-- ==== Sys2Proof/Word.lean ====
section
/-! DEFINITION. The plain value types of H3FC: bytes, 62-bit and 64-bit numbers, field lists, VarInt widths. -/

namespace Sys2Proof

/-- A byte, 8 bits (R12). -/
abbrev Byte := BitVec 8

/-- `u62`, the width of every register that holds a decoded VarInt (R12, D29). -/
abbrev U62 := BitVec 62

/-- `u64`, what the host may present to the encoder (R12, R90). -/
abbrev U64 := BitVec 64

/-- An ordered list of name and value pairs, duplicates allowed (R13). -/
abbrev FieldList := List (List Byte × List Byte)

/-- The four VarInt widths, the formats V1, V2, V4 and V8 (R83). -/
inductive Width where
  | v1 | v2 | v4 | v8
  deriving DecidableEq, Repr

end Sys2Proof
end

