-- ==== Sys2Proof/Config.lean ====
section
/-! DEFINITION. The parameters of H3FC (R9, R10), the adapter (R220 to R222) and the free values. -/

namespace Sys2Proof

/-- One call the block makes to the header compression adapter, with its answer (R220, R223). -/
inductive AdapterCall where
  | compress (fields : FieldList) (block : List Byte)
  | decompress (block : List Byte) (answer : Option FieldList)
  deriving DecidableEq, Repr

/-- A byte string with a marker before each byte and one after the last; only `Adapter`'s inhabitant uses it. -/
def markBytes : List Byte → List Byte
  | [] => [0]
  | b :: bs => 1 :: b :: markBytes bs

/-- A field list in marked form; only `Adapter`'s inhabitant uses it. -/
def markFields : FieldList → List Byte
  | [] => []
  | (n, v) :: fs => markBytes n ++ markBytes v ++ markFields fs

/-- Reads marked strings back, collecting finished strings; only `Adapter`'s inhabitant uses it. -/
def unmark : List Byte → List Byte → List (List Byte) → List (List Byte)
  | [], _, done => done.reverse
  | [_], cur, done => (cur.reverse :: done).reverse
  | m :: b :: rest, cur, done =>
    if m = 0 then unmark (b :: rest) [] (cur.reverse :: done) else unmark rest (b :: cur) done

/-- Consecutive strings as name and value pairs; only `Adapter`'s inhabitant uses it. -/
def pairUp : List (List Byte) → FieldList
  | n :: v :: rest => (n, v) :: pairUp rest
  | _ => []

theorem unmark_markBytes_nil (n : List Byte) (cur : List Byte) (done : List (List Byte)) :
    unmark (markBytes n) cur done = ((cur.reverse ++ n) :: done).reverse := by
  induction n generalizing cur with
  | nil => simp [markBytes, unmark]
  | cons b bs ih => simp [markBytes, unmark, ih]

theorem unmark_markBytes_append (n : List Byte) (x : Byte) (r cur : List Byte) (done : List (List Byte)) :
    unmark (markBytes n ++ x :: r) cur done = unmark (x :: r) [] ((cur.reverse ++ n) :: done) := by
  induction n generalizing cur with
  | nil => simp [markBytes, unmark]
  | cons b bs ih => simp [markBytes, unmark, ih]

theorem markBytes_cons (n : List Byte) : ∃ x r, markBytes n = x :: r := by
  cases n <;> simp [markBytes]

theorem unmark_markFields (fs : FieldList) (done : List (List Byte)) :
    unmark (markFields fs) [] done = done.reverse ++ fs.flatMap (fun f => [f.1, f.2]) := by
  induction fs generalizing done with
  | nil => simp [markFields, unmark]
  | cons f fs ih =>
    obtain ⟨n, v⟩ := f
    obtain ⟨x, r, hv⟩ := markBytes_cons v
    rw [markFields, List.append_assoc, hv, List.cons_append, unmark_markBytes_append, ← List.cons_append, ← hv]
    cases fs with
    | nil => simp [markFields, unmark_markBytes_nil]
    | cons g gs =>
      obtain ⟨y, q, hg⟩ := markBytes_cons g.1
      have hm : markFields (g :: gs) = y :: (q ++ (markBytes g.2 ++ markFields gs)) := by
        simp [markFields, hg]
      rw [hm, unmark_markBytes_append, ← hm, ih]
      simp

theorem pairUp_flatMap (fs : FieldList) : pairUp (fs.flatMap (fun f => [f.1, f.2])) = fs := by
  induction fs with
  | nil => rfl
  | cons f fs ih => simp [pairUp, ih]

theorem unmark_contract (fs : FieldList) : some (pairUp (unmark (markFields fs) [] [])) = some fs := by
  simp [unmark_markFields, pairUp_flatMap]

/-- The parameter ADAPTER (R220 to R222): `decompress` is a total function of the block (`none` is `Fail`); the
answer of `compress` may depend on all earlier calls, the adapter's hidden state (R66, R222); the contract is R221.
The default values serve `deriving Inhabited` alone, so that `Config.adapter` can be declared with no body. -/
structure Adapter where
  decompress : List Byte → Option FieldList := fun b => some (pairUp (unmark b [] []))
  compress : List AdapterCall → FieldList → List Byte := fun _ fs => markFields fs
  contract : ∀ history fields, decompress (compress history fields) = some fields := by
    intro _ fs; exact unmark_contract fs
  deriving Inhabited

/-- `compress_may(fields, b)` of R222: `b` is a block some history of calls makes `compress` answer. -/
def Adapter.compressMay (a : Adapter) (fields : FieldList) (b : List Byte) : Prop :=
  ∃ history, a.compress history fields = b

/-- The plain-data parameters of R9 (N_CTX is the number of contexts of the state, ADAPTER is `Config.adapter`). -/
structure Config where
  tData : U62
  tHeaders : U62
  tCancelPush : U62
  tSettings : U62
  tPushPromise : U62
  tGoAway : U62
  tMaxPushId : U62
  /-- `MIN_RESERVED_FRAME_TYPE` (R104). -/
  minReserved : Nat
  codeFrameUnexpected : U62
  codeFrameError : U62
  codeValueOutOfRange : U62
  codePayloadTooLarge : U62
  codeAdapterFailure : U62
  /-- `PBUF_BYTES`; `none` is `INF` (R32). -/
  pbufBytes : Option Nat
  settingsQpackMaxTableCapacity : U62
  settingsMaxFieldSectionSize : U62
  settingsQpackBlockedStreams : U62
  deriving DecidableEq, Repr

/-- The set KNOWN of R10. -/
def Config.known (k : Config) : List U62 :=
  [k.tData, k.tHeaders, k.tCancelPush, k.tSettings, k.tPushPromise, k.tGoAway, k.tMaxPushId]

/-- The constraints of R10; that the two named codes differ is D8's. N_CTX >= 1 is checked beside it by the step. -/
def Config.valid (k : Config) : Bool :=
  decide k.known.Nodup && k.known.all (fun t => !([0x2, 0x6, 0x8, 0x9] : List U62).contains t) &&
    decide (k.minReserved < 2 ^ 62 - 1) && decide (k.codeFrameUnexpected ≠ k.codeFrameError)

/-- ADAPTER (R9, OPEN): no body, so a claim holds for every adapter under the contract (log 10). -/
opaque Config.adapter : Adapter

/-- A free value for a 62-bit register the spec leaves unspecified (W1), one per draw number (log 5). -/
opaque Config.freeReg : Nat → U62

/-- CODE_VALUE_OUT_OF_RANGE at `State.reset` (R9, OPEN): no number is chosen (log 2). -/
opaque Config.openCodeValueOutOfRange : U62

/-- CODE_ADAPTER_FAILURE at `State.reset` (R9, OPEN): no number is chosen (log 2). -/
opaque Config.openCodeAdapterFailure : U62

/-- The configuration of `State.reset`: the defaults of R9 (PRESUMED, log 3) and, for the OPEN parameters, the
values log 2 names. Claims quantify over every configuration, so none rests on this one. -/
def Config.default : Config where
  tData := 0x0
  tHeaders := 0x1
  tCancelPush := 0x3
  tSettings := 0x4
  tPushPromise := 0x5
  tGoAway := 0x7
  tMaxPushId := 0xd
  minReserved := 0x9
  codeFrameUnexpected := 0x105
  codeFrameError := 0x106
  codeValueOutOfRange := Config.openCodeValueOutOfRange
  codePayloadTooLarge := 0x106
  codeAdapterFailure := Config.openCodeAdapterFailure
  pbufBytes := none
  settingsQpackMaxTableCapacity := 0x1
  settingsMaxFieldSectionSize := 0x6
  settingsQpackBlockedStreams := 0x7

end Sys2Proof
end

