-- ==== Sys2Proof/Machine/Mux.lean ====
section
/-! DEFINITION. The frame-type multiplexer: the reserved set and the map from type value to kind (R90, R91, R102 to R104). -/

namespace Sys2Proof

/-- The nine classes of a type value (R102). -/
inductive Kind where
  | data | headers | cancelPush | settings | pushPromise | goAway | maxPushId | reserved | unknown
  deriving DecidableEq, Repr

/-- The four explicit reserved values (R11, R103). -/
def explicitReserved : List Nat := [0x2, 0x6, 0x8, 0x9]

/-- `is_reserved(t)` (R103): an explicit value, or one at or below the boundary that no known kind has (C4). -/
def isReserved (k : Config) (t : Nat) : Bool :=
  explicitReserved.contains t || (decide (t ≤ k.minReserved) && !(k.known.map BitVec.toNat).contains t)

/-- `kind_of(t)` (R102). -/
def kindOf (k : Config) (t : Nat) : Kind :=
  if t = k.tData.toNat then .data
  else if t = k.tHeaders.toNat then .headers
  else if t = k.tCancelPush.toNat then .cancelPush
  else if t = k.tSettings.toNat then .settings
  else if t = k.tPushPromise.toNat then .pushPromise
  else if t = k.tGoAway.toNat then .goAway
  else if t = k.tMaxPushId.toNat then .maxPushId
  else if isReserved k t then .reserved
  else .unknown

/-- Payload policy (R153): Data is the only streaming kind. -/
def Kind.streaming : Kind → Bool
  | .data => true
  | _ => false

end Sys2Proof
end

