-- ==== Sys2Proof/Machine/VarInt.lean ====
section
/-! DEFINITION. The VarInt codec as pure functions on numbers and bytes (R83 to R87, R120 to R126). -/

namespace Sys2Proof

/-- Total number of bytes of a VarInt of this width (R83). -/
def Width.bytes : Width → Nat
  | .v1 => 1
  | .v2 => 2
  | .v4 => 4
  | .v8 => 8

/-- The tag `log2(width)` (R84, R120). -/
def Width.tag : Width → Nat
  | .v1 => 0
  | .v2 => 1
  | .v4 => 2
  | .v8 => 3

/-- The width `2^tag` a first byte announces by its top two bits (R84). -/
def widthOfFirst (b : Byte) : Width :=
  if b.toNat / 64 = 0 then .v1
  else if b.toNat / 64 = 1 then .v2
  else if b.toNat / 64 = 2 then .v4
  else .v8

/-- Number of value bits of a width: 6, 14, 30, 62 (R83). -/
def Width.valueBits (w : Width) : Nat := 8 * w.bytes - 2

/-- The value lies in the width's range `[0, 2^(8w-2))` (R83, R85). -/
def Width.fits (w : Width) (v : Nat) : Bool := decide (v < 2 ^ w.valueBits)

/-- `n` bytes of a number, most significant first (R56, R120). -/
def beBytes : Nat → Nat → List Byte
  | 0, _ => []
  | n + 1, x => BitVec.ofNat 8 (x / 256 ^ n) :: beBytes n x

/-- Big-endian accumulation of bytes onto a value (R85, R124). -/
def beAccumulate : Nat → List Byte → Nat
  | acc, [] => acc
  | acc, b :: bs => beAccumulate (acc * 256 + b.toNat) bs

/-- `vi_width(v)`, the minimal width (R86, R121). -/
def viWidth (v : Nat) : Width :=
  if v < 2 ^ 6 then .v1 else if v < 2 ^ 14 then .v2 else if v < 2 ^ 30 then .v4 else .v8

/-- The bytes of `v` in width `w`: the tag in the top two bits, then the value, big-endian (R83, R120). -/
def viEncAt (w : Width) (v : Nat) : List Byte :=
  beBytes w.bytes (w.tag * 2 ^ w.valueBits + v)

/-- The encoding of `v` in its minimal width (R86, R120). -/
def viEncMin (v : Nat) : List Byte := viEncAt (viWidth v) v

/-- `vi_enc(v)` (R120, R122): minimal width, or `none` for `ValueOutOfRange`. -/
def viEnc (v : Nat) : Option (List Byte) :=
  if v < 2 ^ 62 then some (viEncMin v) else none

/-- `vi_dec(s)` (R124, R125): the value and the width consumed, or `none` for `InsufficientData`. -/
def viDec : List Byte → Option (Nat × Width)
  | [] => none
  | b :: rest =>
    if rest.length + 1 < (widthOfFirst b).bytes then none
    else some (beAccumulate (b.toNat % 64) (rest.take ((widthOfFirst b).bytes - 1)), widthOfFirst b)

end Sys2Proof
end

