-- ==== Sys2Proof/Syntax.lean ====
section
/-! DEFINITION. The instructions of H3FC: one constructor per row of the opcode table (R2, R83, R91, R110). -/

namespace Sys2Proof

/-- `c` is a decoder context index. A wire-level term is an element of the byte stream presented to context `c`;
`tw` and `lw` are the widths its type and length VarInts are written in (R86, R112). -/
inductive Instr where
  -- VarInt formats (R83): the value bits
  | varint1 (c : Nat) (v : BitVec 6)
  | varint2 (c : Nat) (v : BitVec 14)
  | varint4 (c : Nat) (v : BitVec 30)
  | varint8 (c : Nat) (v : BitVec 62)
  -- frames (R80, R91): any payload bytes, well formed for the kind or not
  | data (c : Nat) (tw lw : Width) (payload : List Byte)
  | headers (c : Nat) (tw lw : Width) (payload : List Byte)
  -- reserved types (R103, R145): the type VarInt is all that is read
  | reserved2 (c : Nat) (tw : Width)
  | cancelPush (c : Nat) (tw lw : Width) (payload : List Byte)
  | settings (c : Nat) (tw lw : Width) (payload : List Byte)
  | pushPromise (c : Nat) (tw lw : Width) (payload : List Byte)
  | reserved6 (c : Nat) (tw : Width)
  | goAway (c : Nat) (tw lw : Width) (payload : List Byte)
  | reserved8 (c : Nat) (tw : Width)
  | reserved9 (c : Nat) (tw : Width)
  | maxPushId (c : Nat) (tw lw : Width) (payload : List Byte)
  | reservedLow (c : Nat) (tw : Width) (t : U62)
  | unknown (c : Nat) (tw : Width) (t : U62) (lw : Width) (payload : List Byte)
  -- host operations (R110)
  | viEnc (value : U64)
  | viDec (input : List Byte)
  | decByte (c : Nat) (b : Byte)
  | decFeed (c : Nat) (chunk : List Byte)
  | encData (payload : List Byte)
  | encCancelPush (pushId : U64)
  | encGoAway (id : U64)
  | encMaxPushId (pushId : U64)
  | encSettings (entries : List (U64 × U64))
  | encHeaders (fields : FieldList)
  | encPushPromise (pushId : U64) (fields : FieldList)
  | encUnknown (type : U64) (payload : List Byte)
  | ctxReset (c : Nat)
  | blockReset
  | statusRead (c : Nat)
  deriving DecidableEq, Repr

end Sys2Proof
end

