-- ==== Sys2Proof/WellFormed.lean ====
section
/-! DEFINITION. Which terms denote an operation the host can issue: an existing context (R25, W8) and, for a
wire-level term, fields some bytes encode (R83, R91). -/

namespace Sys2Proof

/-- A frame of type `t` has its type and its payload's length in the ranges of their widths. -/
def frameFits (tw lw : Width) (t : Nat) (payload : List Byte) : Bool :=
  tw.fits t && lw.fits payload.length

/-- The type value of a RESERVED_LOW row: reserved, but none of the four explicit values (R91, R112). -/
def isReservedLow (k : Config) (t : Nat) : Bool :=
  decide (kindOf k t = .reserved) && !explicitReserved.contains t

/-- The fields of a wire-level term are encodable; true of every host operation, which has no encoding (R110). -/
def Instr.encodable (k : Config) : Instr → Bool
  | .varint1 _ _ | .varint2 _ _ | .varint4 _ _ | .varint8 _ _ => true
  | .data _ tw lw p => frameFits tw lw k.tData.toNat p
  | .headers _ tw lw p => frameFits tw lw k.tHeaders.toNat p
  | .cancelPush _ tw lw p => frameFits tw lw k.tCancelPush.toNat p
  | .settings _ tw lw p => frameFits tw lw k.tSettings.toNat p
  | .pushPromise _ tw lw p => frameFits tw lw k.tPushPromise.toNat p
  | .goAway _ tw lw p => frameFits tw lw k.tGoAway.toNat p
  | .maxPushId _ tw lw p => frameFits tw lw k.tMaxPushId.toNat p
  | .reserved2 _ _ | .reserved6 _ _ | .reserved8 _ _ | .reserved9 _ _ => true
  | .reservedLow _ tw t => tw.fits t.toNat && isReservedLow k t.toNat
  | .unknown _ tw t lw p => frameFits tw lw t.toNat p && decide (kindOf k t.toNat = .unknown)
  | .viEnc _ | .viDec _ | .decByte _ _ | .decFeed _ _ => true
  | .encData _ | .encCancelPush _ | .encGoAway _ | .encMaxPushId _ => true
  | .encSettings _ | .encHeaders _ | .encPushPromise _ _ | .encUnknown _ _ => true
  | .ctxReset _ | .blockReset | .statusRead _ => true

/-- The context a term names, if it names one (R25, R110). -/
def Instr.context? : Instr → Option Nat
  | .varint1 c _ | .varint2 c _ | .varint4 c _ | .varint8 c _ => some c
  | .data c _ _ _ | .headers c _ _ _ | .cancelPush c _ _ _ | .settings c _ _ _ => some c
  | .pushPromise c _ _ _ | .goAway c _ _ _ | .maxPushId c _ _ _ => some c
  | .reserved2 c _ | .reserved6 c _ | .reserved8 c _ | .reserved9 c _ => some c
  | .reservedLow c _ _ | .unknown c _ _ _ _ => some c
  | .decByte c _ | .decFeed c _ | .ctxReset c | .statusRead c => some c
  | .viEnc _ | .viDec _ | .encData _ | .encCancelPush _ | .encGoAway _ | .encMaxPushId _ => none
  | .encSettings _ | .encHeaders _ | .encPushPromise _ _ | .encUnknown _ _ | .blockReset => none

/-- The context a term names exists in a block of `n` contexts. -/
def Instr.contextOk (n : Nat) (i : Instr) : Bool :=
  match i.context? with
  | none => true
  | some c => decide (c < n)

/-- Well-formed in a block of `n` contexts under configuration `k`. -/
def Instr.wellFormed (k : Config) (n : Nat) (i : Instr) : Bool :=
  i.contextOk n && i.encodable k

end Sys2Proof
end

