-- ==== Sys2Proof/Decode.lean ====
section
/-! DEFINITION. What the host hands the block, its decoder and its encoder: the wire level from bytes (R80 to R91,
R112), a host operation as itself, since it has no bit encoding (R110). -/

namespace Sys2Proof

/-- One transaction of the host: the next bytes of a context's stream, read as one VarInt or as frames, or a call.
(The spec leaves the carrier open, R110: log 8, DESIGN CHOICE.) -/
inductive Slot where
  | varint (c : Nat) (bytes : List Byte)
  | frame (c : Nat) (bytes : List Byte)
  | call (i : Instr)
  deriving DecidableEq, Repr

/-- Why bytes hold no whole wire-level instruction: always that some are missing, since no encoding is illegal
(R87, R105: a reserved type and a malformed payload are decoded and are fatal when they run). -/
inductive DecodeError where
  | varintIncomplete
  | typeIncomplete
  | lengthIncomplete
  | payloadIncomplete
  deriving DecidableEq, Repr

/-- The VARINT row of a decoded width and value (R83, R85). -/
def varintInstr (c : Nat) (w : Width) (v : Nat) : Instr :=
  match w with
  | .v1 => .varint1 c (BitVec.ofNat 6 v)
  | .v2 => .varint2 c (BitVec.ofNat 14 v)
  | .v4 => .varint4 c (BitVec.ofNat 30 v)
  | .v8 => .varint8 c (BitVec.ofNat 62 v)

/-- The row of a reserved type value (R91). -/
def reservedInstr (c : Nat) (tw : Width) (t : Nat) : Instr :=
  if t = 0x2 then .reserved2 c tw
  else if t = 0x6 then .reserved6 c tw
  else if t = 0x8 then .reserved8 c tw
  else if t = 0x9 then .reserved9 c tw
  else .reservedLow c tw (BitVec.ofNat 62 t)

/-- The row of a frame of kind `kd` (R91). -/
def frameInstr (c : Nat) (tw : Width) (t : Nat) (lw : Width) (p : List Byte) (kd : Kind) : Instr :=
  match kd with
  | .data => .data c tw lw p
  | .headers => .headers c tw lw p
  | .cancelPush => .cancelPush c tw lw p
  | .settings => .settings c tw lw p
  | .pushPromise => .pushPromise c tw lw p
  | .goAway => .goAway c tw lw p
  | .maxPushId => .maxPushId c tw lw p
  | .reserved => reservedInstr c tw t
  | .unknown => .unknown c tw (BitVec.ofNat 62 t) lw p

/-- One VarInt of context `c`'s stream and the bytes after it (R84, R85). -/
def decodeVarint (c : Nat) (bytes : List Byte) : Except DecodeError (Instr × List Byte) :=
  match viDec bytes with
  | none => .error .varintIncomplete
  | some (v, w) => .ok (varintInstr c w v, bytes.drop w.bytes)

/-- The length and payload of a frame whose type VarInt has been read (R80, R82). -/
def decodeBody (k : Config) (c : Nat) (tw : Width) (t : Nat) (bytes : List Byte) :
    Except DecodeError (Instr × List Byte) :=
  match viDec bytes with
  | none => .error .lengthIncomplete
  | some (n, lw) =>
    let rest := bytes.drop lw.bytes
    if rest.length < n then .error .payloadIncomplete
    else .ok (frameInstr c tw t lw (rest.take n) (kindOf k t), rest.drop n)

/-- One frame of context `c`'s stream and the bytes after it (R80, R102, R112); of a reserved type only the type
VarInt is read (R145). -/
def decodeFrame (k : Config) (c : Nat) (bytes : List Byte) : Except DecodeError (Instr × List Byte) :=
  match viDec bytes with
  | none => .error .typeIncomplete
  | some (t, tw) =>
    let rest := bytes.drop tw.bytes
    if kindOf k t = .reserved then .ok (reservedInstr c tw t, rest) else decodeBody k c tw t rest

/-- The instruction a slot holds and what is left of the slot; total. -/
def decode (k : Config) : Slot → Except DecodeError (Instr × Option Slot)
  | .varint c bytes =>
    match decodeVarint c bytes with
    | .error e => .error e
    | .ok (i, rest) => .ok (i, if rest.isEmpty then none else some (.varint c rest))
  | .frame c bytes =>
    match decodeFrame k c bytes with
    | .error e => .error e
    | .ok (i, rest) => .ok (i, if rest.isEmpty then none else some (.frame c rest))
  | .call i => .ok (i, none)

/-! The encoder, from the tables of R83 and R91. -/

/-- The bytes of one frame: type, length, payload (R80). -/
def frameBytes (tw : Width) (t : Nat) (lw : Width) (p : List Byte) : List Byte :=
  viEncAt tw t ++ viEncAt lw p.length ++ p

/-- The slot that carries an instruction: its wire bytes, or the host operation itself (R110, R112). -/
def encode (k : Config) : Instr → Slot
  | .varint1 c v => .varint c (viEncAt .v1 v.toNat)
  | .varint2 c v => .varint c (viEncAt .v2 v.toNat)
  | .varint4 c v => .varint c (viEncAt .v4 v.toNat)
  | .varint8 c v => .varint c (viEncAt .v8 v.toNat)
  | .data c tw lw p => .frame c (frameBytes tw k.tData.toNat lw p)
  | .headers c tw lw p => .frame c (frameBytes tw k.tHeaders.toNat lw p)
  | .reserved2 c tw => .frame c (viEncAt tw 0x2)
  | .cancelPush c tw lw p => .frame c (frameBytes tw k.tCancelPush.toNat lw p)
  | .settings c tw lw p => .frame c (frameBytes tw k.tSettings.toNat lw p)
  | .pushPromise c tw lw p => .frame c (frameBytes tw k.tPushPromise.toNat lw p)
  | .reserved6 c tw => .frame c (viEncAt tw 0x6)
  | .goAway c tw lw p => .frame c (frameBytes tw k.tGoAway.toNat lw p)
  | .reserved8 c tw => .frame c (viEncAt tw 0x8)
  | .reserved9 c tw => .frame c (viEncAt tw 0x9)
  | .maxPushId c tw lw p => .frame c (frameBytes tw k.tMaxPushId.toNat lw p)
  | .reservedLow c tw t => .frame c (viEncAt tw t.toNat)
  | .unknown c tw t lw p => .frame c (frameBytes tw t.toNat lw p)
  | .viEnc v => .call (.viEnc v)
  | .viDec s => .call (.viDec s)
  | .decByte c b => .call (.decByte c b)
  | .decFeed c s => .call (.decFeed c s)
  | .encData p => .call (.encData p)
  | .encCancelPush n => .call (.encCancelPush n)
  | .encGoAway n => .call (.encGoAway n)
  | .encMaxPushId n => .call (.encMaxPushId n)
  | .encSettings es => .call (.encSettings es)
  | .encHeaders fs => .call (.encHeaders fs)
  | .encPushPromise n fs => .call (.encPushPromise n fs)
  | .encUnknown t p => .call (.encUnknown t p)
  | .ctxReset c => .call (.ctxReset c)
  | .blockReset => .call .blockReset
  | .statusRead c => .call (.statusRead c)

/-! The opcode table's words (log 16). -/

/-- The bytes the hardware holds for a table word: the row's pattern as one big-endian number, first wire byte
leftmost (R112); a FRAME row's 62-bit match value (top two bits clear in 64) is written as the eight-byte type
VarInt of that value. Zeros follow. -/
def tableSlot (nbits w : Nat) : Slot :=
  if nbits = 64 ∧ w < 2 ^ 62 then .frame 0 (viEncAt .v8 w ++ List.replicate 8 0)
  else .varint 0 (beBytes (nbits / 8) w ++ List.replicate 8 0)

/-- The instruction the decoder reads from a table word, under the default type codes of R9; a row of no bits is a
host operation, which no word encodes (R110). -/
def decodeTableWord (nbits w : Nat) : Option Instr :=
  if nbits = 0 then none else
  match decode Config.default (tableSlot nbits w) with
  | .ok (i, _) => some i
  | .error _ => none

/-- The slot cut to the bytes of its first instruction. -/
def firstOnly (k : Config) : Slot → Slot
  | .varint c bytes =>
    match decodeVarint c bytes with
    | .ok (_, rest) => .varint c (bytes.take (bytes.length - rest.length))
    | .error _ => .varint c bytes
  | .frame c bytes =>
    match decodeFrame k c bytes with
    | .ok (_, rest) => .frame c (bytes.take (bytes.length - rest.length))
    | .error _ => .frame c bytes
  | .call i => .call i

end Sys2Proof
end

