-- ==== Sys2Proof/Machine/Memory.lean ====
section
/-! DEFINITION. The payload accumulation buffer as a canonical list of cells (R15, R31, R54). -/

namespace Sys2Proof.Machine

/-- Byte-addressed memory: (address, byte) cells, addresses strictly rising, no cell equal to `Memory.unlisted`. -/
abbrev Memory := List Host.Cell

/-- What an unlisted address reads as. DESIGN CHOICE (log 6): the spec leaves every unwritten byte of `D.pbuf`
unspecified and no rule reads one (R31, R38, W2). -/
def Memory.unlisted : BitVec 8 := 0

/-- Every address of `m` is above `lo`, rising, and no cell holds the unlisted byte. -/
def Memory.wfAbove : Option Nat → Memory → Bool
  | _, [] => true
  | lo, (a, b) :: m => (match lo with | none => true | some l => decide (l < a)) && decide (b ≠ Memory.unlisted) &&
      Memory.wfAbove (some a) m

/-- The canonical form. -/
def Memory.wf (m : Memory) : Bool := Memory.wfAbove none m

/-- The byte at an address. -/
def Memory.read : Memory → Nat → BitVec 8
  | [], _ => Memory.unlisted
  | (a, b) :: m, i => if i = a then b else Memory.read m i

/-- A cell for the byte, or nothing where the byte is the unlisted one. -/
def Memory.cell (i : Nat) (b : BitVec 8) (m : Memory) : Memory :=
  if b = Memory.unlisted then m else (i, b) :: m

/-- Stores a byte, keeping the canonical form. -/
def Memory.write : Memory → Nat → BitVec 8 → Memory
  | [], i, b => Memory.cell i b []
  | (a, x) :: m, i, b =>
    if i < a then Memory.cell i b ((a, x) :: m)
    else if i = a then Memory.cell i b m
    else (a, x) :: Memory.write m i b

/-- The bytes at `i`, ..., `i + n - 1`. -/
def Memory.slice (m : Memory) : Nat → Nat → List (BitVec 8)
  | _, 0 => []
  | i, n + 1 => m.read i :: m.slice (i + 1) n

end Sys2Proof.Machine
end

