-- ==== Sys2Proof/Machine/State.lean ====
section
/-! DEFINITION. Everything the spec gives the machine, as plain data, and the state after reset (R20 to R43, R50). -/

namespace Sys2Proof.Machine

/-- The state tag of a decoder context (R27). -/
inductive DecState where
  | awaitingType | awaitingLength | awaitingPayload | fatal
  deriving DecidableEq, Repr

/-- The five fatal causes (R34, R240); the register value `None` is `Option.none`. -/
inductive Cause where
  | frameUnexpected | frameError | valueOutOfRange | payloadTooLarge | adapterFailure
  deriving DecidableEq, Repr

/-- A frame value (R90) whose VarInt fields are `w` bits: 62 after decode, 64 as the host presents it (C11). -/
inductive Frame (w : Nat) where
  | cancelPush (pushId : BitVec w)
  | data (payload : List Byte)
  | goAway (id : BitVec w)
  | maxPushId (pushId : BitVec w)
  | settings (entries : List (BitVec w × BitVec w))
  | headers (fields : FieldList)
  | pushPromise (pushId : BitVec w) (fields : FieldList)
  | unknown (type : BitVec w) (payload : List Byte)
  deriving DecidableEq, Repr

/-- One item of a context's output event stream (R141). -/
inductive Event where
  | frame (f : Frame 62)
  | dataStart (n : U62)
  | dataByte (b : Byte)
  | dataEnd
  | fatal (cause : Cause) (code : U62)
  deriving DecidableEq, Repr

/-- The status a decoder operation returns (R154); the cause is the register `D.err_cause`. -/
inductive Status where
  | needMore
  | fatal (cause : Option Cause) (code : U62)
  deriving DecidableEq, Repr

/-- The registers and the buffer of one decoder context (table of R26). -/
structure Ctx where
  /-- 2 bits (R27). -/
  state : DecState
  /-- 3 bits: bytes missing from the VarInt in progress (R28). -/
  viRem : BitVec 3
  /-- 62 bits: its value bits so far (R28). -/
  viAcc : U62
  /-- 62 bits: the remembered type (R29). -/
  ftype : U62
  /-- 62 bits: the remembered declared length (R29). -/
  flen : U62
  /-- 62 bits: payload bytes not yet consumed (R30). -/
  prem : U62
  /-- Number of payload bytes held (R31). -/
  pcnt : Nat
  /-- The accumulation buffer (R31, R54). -/
  pbuf : Memory
  /-- 3 bits: cause of the fatal error that stopped the context (R33, R34). -/
  errCause : Option Cause
  /-- 62 bits: its code (R33). -/
  errCode : U62
  deriving DecidableEq, Repr

/-- The connection record CONN (R24). -/
structure Conn where
  closePending : Bool
  closeCode : U62
  closeCause : Option Cause
  deriving DecidableEq, Repr

/-- What `STATUS_READ` returns (R230), tags and causes in the numbers of R27 and R34. -/
structure StatusView where
  state : BitVec 2
  viRem : BitVec 3
  viAcc : U62
  ftype : U62
  flen : U62
  prem : U62
  pcnt : Nat
  errCause : BitVec 3
  errCode : U62
  fatal : Bool
  midFrame : Bool
  closePending : Bool
  closeCode : U62
  closeCause : BitVec 3
  deriving DecidableEq, Repr

/-- What an operation returns to the host (table of R110). -/
inductive Result where
  /-- Nothing: the operation has no result, or none has run since reset. -/
  | nothing
  /-- `VI_ENC`: the bytes. -/
  | viBytes (bytes : List Byte)
  /-- `VI_ENC`: the plain failure `ValueOutOfRange` (D25). -/
  | viOutOfRange
  /-- `VI_DEC`: value and bytes consumed. -/
  | viValue (value : U62) (consumed : Nat)
  /-- `VI_DEC`: `InsufficientData`, nothing consumed. -/
  | insufficientData
  /-- `DEC_BYTE`, `DEC_FEED`: the events of this operation, and the status. -/
  | decoded (events : List Event) (status : Status)
  /-- `ENC_<kind>`: the bytes. -/
  | encoded (bytes : List Byte)
  /-- `ENC_<kind>`: a fatal result. -/
  | encodeFatal (cause : Cause) (code : U62)
  /-- `STATUS_READ`: the registers and flags. -/
  | status (view : StatusView)
  deriving DecidableEq, Repr

/-- A `DEC_FEED` that has been issued and has not returned: its byte steps are taken one at a time, and steps of other
agents may fall between them (R60, log 12). -/
structure Feed where
  /-- The context it presents its bytes to. -/
  ctx : Nat
  /-- The bytes not yet presented; at least one, since the operation returns with its last byte. -/
  rest : List Byte
  /-- The events of its byte steps so far (R155). -/
  events : List Event
  deriving DecidableEq, Repr

/-- One entry of the host's schedule: which agent moves next (R60, R66, log 12). -/
inductive Turn where
  /-- The host's next transaction is issued and runs to its return. -/
  | whole
  /-- The host's next transaction is issued; one that presents bytes waits for the turns of its byte steps, any other is
  one indivisible step and runs. -/
  | start
  /-- The next byte step of the feed in progress on context `c`. -/
  | resume (c : Nat)
  deriving DecidableEq, Repr

/-- Why a step stops with a fault. Both arise only in states no run from reset reaches (R37), and are safe: the model
stops where the spec gives no effect. -/
inductive Fault where
  /-- Raised by the byte step's `MemWrite` and `MemRead` for an address outside `D.pbuf` (R54: it does not exist). -/
  | pbufAddress (address : Nat)
  /-- Raised by `parse_payload` on a type whose kind has no payload parser: Data or Reserved "never reach here" (R164). -/
  | noPayloadParser (type : U62)
  deriving DecidableEq, Repr

/-- Why a step gives an operation no meaning; each is safe, since the model stops. -/
inductive Refusal where
  /-- Raised by `exec` for an instruction that has no meaning yet. -/
  | notModelled (mnemonic : String)
  /-- Raised by every operation that names a context, for an index outside `[0, N_CTX)` (R25, W8). -/
  | noSuchContext (c : Nat)
  /-- Raised by a wire-level term whose fields no bytes encode: no such bytes can be presented (R83, R91). -/
  | noSuchEncoding
  /-- Raised by the step for an operation on a context on which a feed is in progress: the host has no such move (R63). -/
  | overlap (c : Nat)
  /-- Raised by the step for a configuration that breaks R10 (W7). -/
  | badConfiguration
  deriving DecidableEq, Repr

/-- The machine. `cfg` is configuration, fixed for the life of the block (R21): no step writes it (log 1). -/
structure State where
  /-- The parameters of R9. -/
  cfg : Config
  /-- The decoder context bank `D[0]`, ..., `D[N_CTX-1]` (R25); its length is N_CTX. -/
  ctxs : List Ctx
  /-- CONN (R24). -/
  conn : Conn
  /-- The output event streams, in step order; a context's stream is its own entries (R50, R52, R64, log 9). -/
  events : List (Nat × Event)
  /-- The encoder's output sink (R50, R53). -/
  sink : List Byte
  /-- The frames whose one reference the block has dropped (R15, R192, log 11). -/
  released : List (Frame 64)
  /-- The calls made to the adapter with their answers (R223, log 10). -/
  adapterLog : List AdapterCall
  /-- What the last operation returned (R110, log 9). -/
  result : Result
  /-- The host's transactions not yet executed (R226, log 8). -/
  pending : List Slot
  /-- The feeds in progress, oldest first, at most one per context (R60, R63, log 12). -/
  feeds : List Feed
  /-- The host's schedule of the steps to come (R60, R66, log 12). -/
  turns : List Turn
  /-- The model's own: how many free values have been drawn (log 5). -/
  draws : Nat
  deriving DecidableEq, Repr

/-- A context at reset with the given values in the registers R26 leaves unspecified; its buffer lists nothing. -/
def Ctx.atReset (viAcc ftype flen : U62) : Ctx where
  state := .awaitingType
  viRem := 0
  viAcc := viAcc
  ftype := ftype
  flen := flen
  prem := 0
  pcnt := 0
  pbuf := []
  errCause := none
  errCode := 0

/-- CONN after `BLOCK_RESET` (R43). -/
def Conn.clear : Conn where
  closePending := false
  closeCode := 0
  closeCause := none

/-- The power-on state of a block of `n` contexts configured by `k` (R43, R229, R280); the unspecified registers
are 0 here, DESIGN CHOICE (log 4). -/
def State.powerOn (k : Config) (n : Nat) : State where
  cfg := k
  ctxs := List.replicate n (Ctx.atReset 0 0 0)
  conn := Conn.clear
  events := []
  sink := []
  released := []
  adapterLog := []
  result := .nothing
  pending := []
  feeds := []
  turns := []
  draws := 0

/-- The machine right after reset, at the default configuration with two contexts (log 2). -/
def State.reset : State := State.powerOn Config.default 2

end Sys2Proof.Machine
end

