-- ==== Sys2Proof/Machine/Flags.lean ====
section
/-! DEFINITION. The status flags, the status, and the numeric encodings of tags and causes (R27, R34, R35, R154). The
block has no condition codes (R35). -/

namespace Sys2Proof.Machine

/-- The number of a state tag (R27). -/
def DecState.code : DecState → BitVec 2
  | .awaitingType => 0
  | .awaitingLength => 1
  | .awaitingPayload => 2
  | .fatal => 3

/-- The number of a cause (R34). -/
def Cause.code : Cause → BitVec 3
  | .frameUnexpected => 1
  | .frameError => 2
  | .valueOutOfRange => 3
  | .payloadTooLarge => 4
  | .adapterFailure => 5

/-- The number a cause register holds; `None` is 0 (R34). -/
def causeNumber : Option Cause → BitVec 3
  | none => 0
  | some c => c.code

/-- `fatal(D)` (R35). -/
def Ctx.isFatal (d : Ctx) : Bool := decide (d.state = .fatal)

/-- `mid_frame(D)` (R35): not stopped and not at a frame boundary. -/
def Ctx.midFrame (d : Ctx) : Bool :=
  decide (d.state ≠ .fatal) && (decide (d.state ≠ .awaitingType) || decide (d.viRem ≠ 0))

/-- At a frame boundary (R37(f)). -/
def Ctx.atBoundary (d : Ctx) : Bool := decide (d.state = .awaitingType) && decide (d.viRem = 0)

/-- `status(D)` (R154). -/
def Ctx.status (d : Ctx) : Status :=
  if d.state = .fatal then .fatal d.errCause d.errCode else .needMore

/-- What `STATUS_READ` shows (R230, R35, R36). -/
def Ctx.view (d : Ctx) (conn : Conn) : StatusView where
  state := d.state.code
  viRem := d.viRem
  viAcc := d.viAcc
  ftype := d.ftype
  flen := d.flen
  prem := d.prem
  pcnt := d.pcnt
  errCause := causeNumber d.errCause
  errCode := d.errCode
  fatal := d.isFatal
  midFrame := d.midFrame
  closePending := conn.closePending
  closeCode := conn.closeCode
  closeCause := causeNumber conn.closeCause

end Sys2Proof.Machine
end

