-- ==== Sys2Proof/Machine/Operands.lean ====
section
/-! DEFINITION. The payload layouts: the decoder's parsers (R164 to R171) and the encoder's builders (R194 to R202). The
adapter's answers come in as arguments, so both are pure functions (R164, R205). -/

namespace Sys2Proof.Machine

/-- What a payload parser answers (R164). -/
inductive ParseOutcome where
  | ok (f : Frame 62)
  | err (cause : Cause)
  /-- Data and Reserved never reach the parser (R164). -/
  | noParser
  deriving DecidableEq, Repr

/-- A parse and the adapter calls it made (R223). -/
structure Parsed where
  calls : List AdapterCall
  outcome : ParseOutcome
  deriving DecidableEq, Repr

/-- `parse_single(P)` (R164): the payload is exactly one VarInt, none missing and none left over (R82, R92). -/
def parseSingle (p : List Byte) : Option U62 :=
  match viDec p with
  | none => none
  | some (v, w) => if w.bytes = p.length then some (BitVec.ofNat 62 v) else none

/-- A payload of one VarInt field, or `FrameError` (R165 to R167). -/
def parseField (mk : U62 → Frame 62) (p : List Byte) : Parsed where
  calls := []
  outcome := match parseSingle p with
    | some v => .ok (mk v)
    | none => .err .frameError

/-- The loop of `parse_settings` (R168); the fuel is the number of bytes, and each round takes at least two. -/
def parseEntries : Nat → List Byte → Option (List (U62 × U62))
  | _, [] => some []
  | 0, _ :: _ => none
  | fuel + 1, b :: p =>
    match viDec (b :: p) with
    | none => none
    | some (ident, w1) =>
      match viDec ((b :: p).drop w1.bytes) with
      | none => none
      | some (val, w2) =>
        match parseEntries fuel (((b :: p).drop w1.bytes).drop w2.bytes) with
        | none => none
        | some es => some ((BitVec.ofNat 62 ident, BitVec.ofNat 62 val) :: es)

/-- Settings payload (R168): every entry kept in wire order, or `FrameError`. -/
def parseSettings (p : List Byte) : Parsed where
  calls := []
  outcome := match parseEntries p.length p with
    | some es => .ok (.settings es)
    | none => .err .frameError

/-- A header block handed to the adapter once (R169, R170, R223). -/
def parseBlock (dec : List Byte → Option FieldList) (mk : FieldList → Frame 62) (block : List Byte) : Parsed where
  calls := [.decompress block (dec block)]
  outcome := match dec block with
    | some fs => .ok (mk fs)
    | none => .err .adapterFailure

/-- PushPromise payload (R170): the push id first, the adapter only if it parsed (D18). -/
def parsePushPromise (dec : List Byte → Option FieldList) (p : List Byte) : Parsed :=
  match viDec p with
  | none => { calls := [], outcome := .err .frameError }
  | some (v, w) => parseBlock dec (.pushPromise (BitVec.ofNat 62 v)) (p.drop w.bytes)

/-- `parse_payload(t, P)` (R164 to R171). -/
def parsePayload (k : Config) (dec : List Byte → Option FieldList) (t : U62) (p : List Byte) : Parsed :=
  match kindOf k t.toNat with
  | .cancelPush => parseField .cancelPush p
  | .goAway => parseField .goAway p
  | .maxPushId => parseField .maxPushId p
  | .settings => parseSettings p
  | .headers => parseBlock dec .headers p
  | .pushPromise => parsePushPromise dec p
  | .unknown => { calls := [], outcome := .ok (.unknown t p) }
  | .data | .reserved => { calls := [], outcome := .noParser }

/-- What `build(f)` answers (R190): the adapter calls made, and type and payload or a cause. -/
structure Built where
  calls : List AdapterCall
  outcome : Except Cause (U62 × List Byte)
  deriving DecidableEq, Repr

/-- A build that does not use the adapter. -/
def Built.plain (r : Except Cause (U62 × List Byte)) : Built where
  calls := []
  outcome := r

/-- `vi_enc` inside the encoder: its failure is the cause `ValueOutOfRange` (R191). -/
def encField (v : U64) : Except Cause (List Byte) :=
  match viEnc v.toNat with
  | none => .error .valueOutOfRange
  | some bs => .ok bs

/-- A payload of one VarInt field (R195 to R197). -/
def buildField (t : U62) (v : U64) : Built :=
  .plain (match encField v with
    | .error c => .error c
    | .ok p => .ok (t, p))

/-- The Settings payload, entry by entry in the order given (R198). -/
def settingsBytes : List (U64 × U64) → Except Cause (List Byte)
  | [] => .ok []
  | (ident, val) :: es =>
    match encField ident with
    | .error c => .error c
    | .ok a =>
      match encField val with
      | .error c => .error c
      | .ok b =>
        match settingsBytes es with
        | .error c => .error c
        | .ok p => .ok (a ++ b ++ p)

/-- `build(Settings)` (R198). -/
def buildSettings (t : U62) (es : List (U64 × U64)) : Built :=
  .plain (match settingsBytes es with
    | .error c => .error c
    | .ok p => .ok (t, p))

/-- `build(Headers)` (R200): the adapter is called exactly once. -/
def buildHeaders (comp : FieldList → List Byte) (t : U62) (fs : FieldList) : Built where
  calls := [.compress fs (comp fs)]
  outcome := .ok (t, comp fs)

/-- `build(PushPromise)` (R201): the range check comes before the adapter call (R191, D18). -/
def buildPushPromise (comp : FieldList → List Byte) (t : U62) (v : U64) (fs : FieldList) : Built :=
  match encField v with
  | .error c => .plain (.error c)
  | .ok p => { calls := [.compress fs (comp fs)], outcome := .ok (t, p ++ comp fs) }

/-- `build(Unknown)` (R202): the range test, then the reserved test, and no other (D19). -/
def buildUnknown (k : Config) (t : U64) (p : List Byte) : Built :=
  .plain (if 2 ^ 62 ≤ t.toNat then .error .valueOutOfRange
    else if isReserved k t.toNat then .error .frameUnexpected
    else .ok (t.setWidth 62, p))

end Sys2Proof.Machine
end

