-- ==== Sys2Proof/Machine/Ops.lean ====
section
/-! DEFINITION. The named operations over registers and memory, and the fatal entry (R14 to R16, R190, R192, R228, R250). -/

namespace Sys2Proof.Machine

/-! Memory primitives on the payload buffer (R15, R54). -/

/-- Addresses `0` to `i - 1` exist: `i` is at most PBUF_BYTES. -/
def inBuffer (k : Config) (i : Nat) : Bool :=
  match k.pbufBytes with
  | none => true
  | some n => decide (i ≤ n)

/-- `MemWrite(i, 1, b)`. -/
def Ctx.memWrite (k : Config) (d : Ctx) (i : Nat) (b : Byte) : Except Fault Ctx :=
  if inBuffer k (i + 1) then .ok { d with pbuf := d.pbuf.write i b } else .error (.pbufAddress i)

/-- `MemRead(0, n)`. -/
def Ctx.memRead (k : Config) (d : Ctx) (n : Nat) : Except Fault (List Byte) :=
  if inBuffer k n then .ok (d.pbuf.slice 0 n) else .error (.pbufAddress (n - 1))

/-! Registers of the context bank (R25). -/

/-- `D[c]`; operations ask `State.hasCtx` first. -/
def State.ctx (s : State) (c : Nat) : Ctx := s.ctxs.getD c (Ctx.atReset 0 0 0)

/-- The index lies in `[0, N_CTX)` (R25). -/
def State.hasCtx (s : State) (c : Nat) : Bool := decide (c < s.ctxs.length)

/-- Writes the registers of `D[c]`. -/
def State.setCtx (c : Nat) (d : Ctx) (s : State) : State := { s with ctxs := s.ctxs.set c d }

/-- `Emit`, on the stream of context `c` (R15, R52). -/
def State.emit (c : Nat) (ev : List Event) (s : State) : State :=
  { s with events := s.events ++ ev.map (fun e => (c, e)) }

/-- The output event stream of context `c` (R50). -/
def State.stream (s : State) (c : Nat) : List Event :=
  (s.events.filter (fun p => p.1 = c)).map Prod.snd

/-- `SinkWrite` (R15, R53). -/
def State.sinkWrite (bs : List Byte) (s : State) : State := { s with sink := s.sink ++ bs }

/-- `Release(f)` (R15, R192). -/
def State.release (f : Frame 64) (s : State) : State := { s with released := s.released ++ [f] }

/-- Records calls made to the adapter (R223). -/
def State.logCalls (cs : List AdapterCall) (s : State) : State := { s with adapterLog := s.adapterLog ++ cs }

/-- The operation's result, handed to the host (R110). -/
def State.answer (r : Result) (s : State) : State := { s with result := r }

/-! Taking an exception. -/

/-- `code_of(cause)` (R247). -/
def codeOf (k : Config) : Cause → U62
  | .frameUnexpected => k.codeFrameUnexpected
  | .frameError => k.codeFrameError
  | .valueOutOfRange => k.codeValueOutOfRange
  | .payloadTooLarge => k.codePayloadTooLarge
  | .adapterFailure => k.codeAdapterFailure

/-- The context's part of the fatal entry: state, cause and code; every other register is kept (R250, W9). -/
def Ctx.stop (d : Ctx) (cause : Cause) (code : U62) : Ctx :=
  { d with state := .fatal, errCause := some cause, errCode := code }

/-- The latch of CONN: the first fatal error wins (R24, R250). -/
def Conn.latch (conn : Conn) (cause : Cause) (code : U62) : Conn :=
  if conn.closePending then conn else { closePending := true, closeCode := code, closeCause := some cause }

/-- The fatal entry `raise Fatal(cause)` (R250): `raiser` is the context of a decoder step, none for the encoder. -/
def State.raiseFatal (raiser : Option Nat) (cause : Cause) (s : State) : State :=
  let code := codeOf s.cfg cause
  let s' := match raiser with
    | some c => (s.setCtx c ((s.ctx c).stop cause code)).emit c [.fatal cause code]
    | none => s
  { s' with conn := s'.conn.latch cause code }

/-! Leaving `Fatal`: there is no return from a fatal error but a reset (R254). -/

/-- The registers of a context after `CTX_RESET` (R228): the three unspecified ones are free values (W1, log 5). -/
def Ctx.afterReset (draw : Nat) : Ctx :=
  Ctx.atReset (Config.freeReg draw) (Config.freeReg (draw + 1)) (Config.freeReg (draw + 2))

/-- `CTX_RESET(c)` (R228). -/
def State.resetCtx (c : Nat) (s : State) : State :=
  { s.setCtx c (Ctx.afterReset s.draws) with draws := s.draws + 3 }

/-- Every context reset in order (R229). -/
def resetCtxs : Nat → List Ctx → List Ctx
  | _, [] => []
  | draw, _ :: ds => Ctx.afterReset draw :: resetCtxs (draw + 3) ds

/-- `BLOCK_RESET` (R229). -/
def State.resetBlock (s : State) : State :=
  { s with ctxs := resetCtxs s.draws s.ctxs, conn := Conn.clear, draws := s.draws + 3 * s.ctxs.length }

end Sys2Proof.Machine
end

