-- ==== Sys2Proof/Machine/Codec.lean ====
section
/-! DEFINITION. Meanings of the standalone VarInt operations (R120, R124): pure functions of their operand (R23). -/

namespace Sys2Proof.Machine

/-- What `VI_ENC` returns (R120). -/
def viEncResult (v : U64) : Result :=
  match viEnc v.toNat with
  | some bs => .viBytes bs
  | none => .viOutOfRange

/-- What `VI_DEC` returns (R124). -/
def viDecResult (bs : List Byte) : Result :=
  match viDec bs with
  | some (v, w) => .viValue (BitVec.ofNat 62 v) w.bytes
  | none => .insufficientData

/-- `VI_ENC(value)` (R120): its failure is a plain result and marks nothing (D25). -/
def execViEnc (v : U64) (s : State) : Host.Outcome State Fault Refusal :=
  .next (s.answer (viEncResult v))

/-- `VI_DEC(in)` (R124): on `InsufficientData` nothing is consumed. -/
def execViDec (bs : List Byte) (s : State) : Host.Outcome State Fault Refusal :=
  .next (s.answer (viDecResult bs))

end Sys2Proof.Machine
end

