-- ==== Sys2Proof/Machine/Control.lean ====
section
/-! DEFINITION. Meanings of the two resets and of `STATUS_READ` (R228 to R230). -/

namespace Sys2Proof.Machine

/-- `CTX_RESET(c)` (R228): CONN, the other contexts and the adapter are untouched, no event is emitted. -/
def execCtxReset (c : Nat) (s : State) : Host.Outcome State Fault Refusal :=
  if s.hasCtx c then .next ((s.resetCtx c).answer .nothing) else .refused (.noSuchContext c)

/-- `BLOCK_RESET` (R229). -/
def execBlockReset (s : State) : Host.Outcome State Fault Refusal :=
  .next (s.resetBlock.answer .nothing)

/-- `STATUS_READ(c)` (R230). -/
def execStatusRead (c : Nat) (s : State) : Host.Outcome State Fault Refusal :=
  if s.hasCtx c then .next (s.answer (.status ((s.ctx c).view s.conn))) else .refused (.noSuchContext c)

end Sys2Proof.Machine
end

