-- ==== Sys2Proof/Machine/ByteStep.lean ====
section
/-! DEFINITION. The decoder's byte step: vi_step, the arms of the state machine, DEC_BYTE and DEC_FEED on a state
(R127, R142 to R152, R155). -/

namespace Sys2Proof.Machine

/-- `vi_step(D, b)` (R127): the context after the byte, and the value if the VarInt is `Done`. -/
def viStep (d : Ctx) (b : Byte) : Ctx × Option U62 :=
  let d' := if d.viRem = 0
    then { d with viAcc := (b.setWidth 6).setWidth 62, viRem := BitVec.ofNat 3 ((widthOfFirst b).bytes - 1) }
    else { d with viAcc := d.viAcc * 256 + b.setWidth 62, viRem := d.viRem - 1 }
  (d', if d'.viRem = 0 then some d'.viAcc else none)

/-- What an arm does: the context, the events it emits, the adapter calls it makes, the cause it raises. -/
structure Arm where
  ctx : Ctx
  events : List Event
  calls : List AdapterCall
  raised : Option Cause
  deriving DecidableEq, Repr

/-- An arm that only changes registers. -/
def Arm.quiet (d : Ctx) : Arm where
  ctx := d
  events := []
  calls := []
  raised := none

/-- An arm that emits events. -/
def Arm.emits (d : Ctx) (ev : List Event) : Arm where
  ctx := d
  events := ev
  calls := []
  raised := none

/-- An arm that raises a fatal error. -/
def Arm.raises (d : Ctx) (cause : Cause) : Arm where
  ctx := d
  events := []
  calls := []
  raised := some cause

/-- `complete_atomic(D)` (R150). -/
def completeAtomic (k : Config) (dec : List Byte → Option FieldList) (d : Ctx) : Except Fault Arm :=
  match d.memRead k d.flen.toNat with
  | .error f => .error f
  | .ok p =>
    let r := parsePayload k dec d.ftype p
    match r.outcome with
    | .ok f => .ok { ctx := { d with state := .awaitingType }, events := [.frame f], calls := r.calls, raised := none }
    | .err cause => .ok { ctx := d, events := [], calls := r.calls, raised := some cause }
    | .noParser => .error (.noPayloadParser d.ftype)

/-- Arms of R144 and R145: the type VarInt is complete with value `t`. -/
def armTypeDone (k : Config) (d : Ctx) (t : U62) : Arm :=
  if isReserved k t.toNat then .raises { d with ftype := t } .frameUnexpected
  else .quiet { d with ftype := t, state := .awaitingLength }

/-- Arm of R147: the length VarInt of an atomic kind is complete with value `n`. -/
def armLengthAtomic (k : Config) (dec : List Byte → Option FieldList) (d : Ctx) (n : U62) : Except Fault Arm :=
  let d' := { d with flen := n, prem := n, pcnt := 0 }
  if inBuffer k n.toNat then
    if n = 0 then completeAtomic k dec d' else .ok (.quiet { d' with state := .awaitingPayload })
  else .ok (.raises d' .payloadTooLarge)

/-- Arm of R148: the length VarInt of a Data frame is complete with value `n`. -/
def armLengthData (d : Ctx) (n : U62) : Arm :=
  let d' := { d with flen := n, prem := n, pcnt := 0 }
  if n = 0 then .emits { d' with state := .awaitingType } [.dataStart n, .dataEnd]
  else .emits { d' with state := .awaitingPayload } [.dataStart n]

/-- Arm of R149: a payload byte of an atomic kind. -/
def armPayloadAtomic (k : Config) (dec : List Byte → Option FieldList) (d : Ctx) (b : Byte) : Except Fault Arm :=
  match d.memWrite k d.pcnt b with
  | .error f => .error f
  | .ok d1 =>
    let d2 := { d1 with pcnt := d1.pcnt + 1, prem := d1.prem - 1 }
    if d2.prem = 0 then completeAtomic k dec d2 else .ok (.quiet d2)

/-- Arm of R151: a payload byte of a Data frame. -/
def armPayloadData (d : Ctx) (b : Byte) : Arm :=
  let d' := { d with prem := d.prem - 1 }
  if d'.prem = 0 then .emits { d' with state := .awaitingType } [.dataByte b, .dataEnd]
  else .emits d' [.dataByte b]

/-- The dispatch of `DEC_BYTE` on `D.state` (R142). -/
def ctxByte (k : Config) (dec : List Byte → Option FieldList) (d : Ctx) (b : Byte) : Except Fault Arm :=
  match d.state with
  | .fatal => .ok (.quiet d)
  | .awaitingType =>
    match viStep d b with
    | (d', none) => .ok (.quiet d')
    | (d', some t) => .ok (armTypeDone k d' t)
  | .awaitingLength =>
    match viStep d b with
    | (d', none) => .ok (.quiet d')
    | (d', some n) =>
      if kindOf k d'.ftype.toNat = .data then .ok (armLengthData d' n) else armLengthAtomic k dec d' n
  | .awaitingPayload =>
    if kindOf k d.ftype.toNat = .data then .ok (armPayloadData d b) else armPayloadAtomic k dec d b

/-- An arm's effect on the machine: registers, events, adapter calls, then the fatal entry if it raised. -/
def State.applyArm (c : Nat) (r : Arm) (s : State) : State :=
  let s' := ((s.setCtx c r.ctx).emit c r.events).logCalls r.calls
  match r.raised with
  | none => s'
  | some cause => s'.raiseFatal (some c) cause

/-- The events of a byte step, the `Fatal` event of a raise included (R141, R250). -/
def armEvents (k : Config) (r : Arm) : List Event :=
  match r.raised with
  | none => r.events
  | some cause => r.events ++ [.fatal cause (codeOf k cause)]

/-- `DEC_BYTE(c, b)` on an existing context: the state after it and the events it emitted (R142). -/
def State.byteStep (c : Nat) (b : Byte) (s : State) : Except Fault (State × List Event) :=
  match ctxByte s.cfg Config.adapter.decompress (s.ctx c) b with
  | .error f => .error f
  | .ok r => .ok (s.applyArm c r, armEvents s.cfg r)

/-- `DEC_FEED(c, chunk)` on an existing context: its byte steps in order, nothing between them, their events concatenated
(R155). -/
def State.feed (c : Nat) : List Byte → State → Except Fault (State × List Event)
  | [], s => .ok (s, [])
  | b :: bs, s =>
    match s.byteStep c b with
    | .error f => .error f
    | .ok (s1, e1) =>
      match State.feed c bs s1 with
      | .error f => .error f
      | .ok (s2, e2) => .ok (s2, e1 ++ e2)

/-- Presents bytes to context `c` and answers the events and the status; refuses an index that does not exist (R25). -/
def State.present (c : Nat) (bs : List Byte) (s : State) : Host.Outcome State Fault Refusal :=
  if s.hasCtx c then
    match s.feed c bs with
    | .error f => .fault f
    | .ok (s', ev) => .next (s'.answer (.decoded ev (s'.ctx c).status))
  else .refused (.noSuchContext c)

/-- Presents the bytes of a wire-level term (R57, R80, R81); refuses a term no bytes encode (R83). -/
def State.presentWire (i : Instr) (s : State) : Host.Outcome State Fault Refusal :=
  match encode s.cfg i with
  | .varint c bs | .frame c bs =>
    if i.encodable s.cfg then s.present c bs else .refused .noSuchEncoding
  | .call _ => .refused .noSuchEncoding

end Sys2Proof.Machine
end

