-- ==== Sys2Proof/Machine/Decoder.lean ====
section
/-! DEFINITION. Meanings of `DEC_BYTE` and `DEC_FEED` (R142, R155). -/

namespace Sys2Proof.Machine

/-- `DEC_BYTE(c, b)` (R142): one byte step. -/
def execDecByte (c : Nat) (b : Byte) (s : State) : Host.Outcome State Fault Refusal :=
  if s.hasCtx c then
    match s.byteStep c b with
    | .error f => .fault f
    | .ok (s', ev) => .next (s'.answer (.decoded ev (s'.ctx c).status))
  else .refused (.noSuchContext c)

/-- `DEC_FEED(c, chunk)` (R155), with nothing between its byte steps; where the schedule puts other agents' steps between
them (R60), the step runs it as turns of a feed in progress instead (`State.resumeFeed`, log 12). -/
def execDecFeed (c : Nat) (chunk : List Byte) (s : State) : Host.Outcome State Fault Refusal :=
  s.present c chunk

end Sys2Proof.Machine
end

