-- ==== Sys2Proof/Machine/Encoder.lean ====
section
/-! DEFINITION. Meanings of the eight `ENC_<kind>` requests over the common scheme `ENC(f)` (R190 to R202). -/

namespace Sys2Proof.Machine

/-- The bytes of a frame in minimal widths: `vi_enc(T) ++ vi_enc(L) ++ P` (R190, R204). -/
def encodedBytes (t : U62) (p : List Byte) : List Byte :=
  viEncMin t.toNat ++ viEncMin p.length ++ p

/-- A failed request (R190, R192, R193): the release first, then the fatal entry with no context; no byte written. -/
def State.encodeFail (f : Frame 64) (cause : Cause) (s : State) : State :=
  ((s.release f).raiseFatal none cause).answer (.encodeFatal cause (codeOf s.cfg cause))

/-- A served request (R190): one contiguous write, then the release. -/
def State.encodeDone (f : Frame 64) (bs : List Byte) (s : State) : State :=
  ((s.sinkWrite bs).release f).answer (.encoded bs)

/-- `ENC(f)` (R190) for a frame and its `build(f)`; the check on the payload length comes last (R191). -/
def State.encodeFrame (f : Frame 64) (b : Built) (s : State) : State :=
  let s' := s.logCalls b.calls
  match b.outcome with
  | .error cause => s'.encodeFail f cause
  | .ok (t, p) => if 2 ^ 62 ≤ p.length then s'.encodeFail f .valueOutOfRange else s'.encodeDone f (encodedBytes t p)

/-- The adapter's `compress` at this point of its history (R220, R222). -/
def State.compress (s : State) : FieldList → List Byte := Config.adapter.compress s.adapterLog

/-- `ENC_DATA` (R194). -/
def execEncData (p : List Byte) (s : State) : Host.Outcome State Fault Refusal :=
  .next (s.encodeFrame (.data p) (.plain (.ok (s.cfg.tData, p))))

/-- `ENC_CANCEL_PUSH` (R195). -/
def execEncCancelPush (v : U64) (s : State) : Host.Outcome State Fault Refusal :=
  .next (s.encodeFrame (.cancelPush v) (buildField s.cfg.tCancelPush v))

/-- `ENC_GOAWAY` (R196). -/
def execEncGoAway (v : U64) (s : State) : Host.Outcome State Fault Refusal :=
  .next (s.encodeFrame (.goAway v) (buildField s.cfg.tGoAway v))

/-- `ENC_MAX_PUSH_ID` (R197). -/
def execEncMaxPushId (v : U64) (s : State) : Host.Outcome State Fault Refusal :=
  .next (s.encodeFrame (.maxPushId v) (buildField s.cfg.tMaxPushId v))

/-- `ENC_SETTINGS` (R198). -/
def execEncSettings (es : List (U64 × U64)) (s : State) : Host.Outcome State Fault Refusal :=
  .next (s.encodeFrame (.settings es) (buildSettings s.cfg.tSettings es))

/-- `ENC_HEADERS` (R200). -/
def execEncHeaders (fs : FieldList) (s : State) : Host.Outcome State Fault Refusal :=
  .next (s.encodeFrame (.headers fs) (buildHeaders s.compress s.cfg.tHeaders fs))

/-- `ENC_PUSH_PROMISE` (R201). -/
def execEncPushPromise (v : U64) (fs : FieldList) (s : State) : Host.Outcome State Fault Refusal :=
  .next (s.encodeFrame (.pushPromise v fs) (buildPushPromise s.compress s.cfg.tPushPromise v fs))

/-- `ENC_UNKNOWN` (R202). -/
def execEncUnknown (t : U64) (p : List Byte) (s : State) : Host.Outcome State Fault Refusal :=
  .next (s.encodeFrame (.unknown t p) (buildUnknown s.cfg t p))

end Sys2Proof.Machine
end

