-- ==== Sys2Proof/Machine/WireFrames.lean ====
section
/-! DEFINITION. Meanings of the frame-type rows: the frame's bytes (of a reserved type, its type VarInt) are presented
to context `c`, whose state machine dispatches on the type (R80, R81, R91, R142 to R152; log 13). -/

namespace Sys2Proof.Machine

/-- A Data frame on the wire (R94, R148, R151). -/
def execData (c : Nat) (tw lw : Width) (p : List Byte) (s : State) : Host.Outcome State Fault Refusal :=
  s.presentWire (.data c tw lw p)

/-- A Headers frame on the wire (R95, R169). -/
def execHeaders (c : Nat) (tw lw : Width) (p : List Byte) (s : State) : Host.Outcome State Fault Refusal :=
  s.presentWire (.headers c tw lw p)

/-- A CancelPush frame on the wire (R92, R165). -/
def execCancelPush (c : Nat) (tw lw : Width) (p : List Byte) (s : State) : Host.Outcome State Fault Refusal :=
  s.presentWire (.cancelPush c tw lw p)

/-- A Settings frame on the wire (R100, R168). -/
def execSettings (c : Nat) (tw lw : Width) (p : List Byte) (s : State) : Host.Outcome State Fault Refusal :=
  s.presentWire (.settings c tw lw p)

/-- A PushPromise frame on the wire (R96, R170). -/
def execPushPromise (c : Nat) (tw lw : Width) (p : List Byte) (s : State) : Host.Outcome State Fault Refusal :=
  s.presentWire (.pushPromise c tw lw p)

/-- A GoAway frame on the wire (R92, R166). -/
def execGoAway (c : Nat) (tw lw : Width) (p : List Byte) (s : State) : Host.Outcome State Fault Refusal :=
  s.presentWire (.goAway c tw lw p)

/-- A MaxPushId frame on the wire (R92, R167). -/
def execMaxPushId (c : Nat) (tw lw : Width) (p : List Byte) (s : State) : Host.Outcome State Fault Refusal :=
  s.presentWire (.maxPushId c tw lw p)

/-- The reserved type 0x2 on the wire, in any width (R103, R145). -/
def execReserved2 (c : Nat) (tw : Width) (s : State) : Host.Outcome State Fault Refusal :=
  s.presentWire (.reserved2 c tw)

/-- The reserved type 0x6 on the wire, in any width (R103, R145). -/
def execReserved6 (c : Nat) (tw : Width) (s : State) : Host.Outcome State Fault Refusal :=
  s.presentWire (.reserved6 c tw)

/-- The reserved type 0x8 on the wire, in any width (R103, R145). -/
def execReserved8 (c : Nat) (tw : Width) (s : State) : Host.Outcome State Fault Refusal :=
  s.presentWire (.reserved8 c tw)

/-- The reserved type 0x9 on the wire, in any width (R103, R145). -/
def execReserved9 (c : Nat) (tw : Width) (s : State) : Host.Outcome State Fault Refusal :=
  s.presentWire (.reserved9 c tw)

/-- A type at or below the boundary that no kind has (R103, R104, R145). -/
def execReservedLow (c : Nat) (tw : Width) (t : U62) (s : State) : Host.Outcome State Fault Refusal :=
  s.presentWire (.reservedLow c tw t)

/-- An Unknown frame on the wire (R97, R171). -/
def execUnknown (c : Nat) (tw : Width) (t : U62) (lw : Width) (p : List Byte) (s : State) :
    Host.Outcome State Fault Refusal :=
  s.presentWire (.unknown c tw t lw p)

end Sys2Proof.Machine
end

