-- ==== Sys2Proof/Machine/WireVarInt.lean ====
section
/-! DEFINITION. Meanings of the four VarInt formats: the VarInt's bytes are presented, one after the other, to context
`c`, whose byte-serial step assembles the value (R57, R83, R85, R127; log 13). -/

namespace Sys2Proof.Machine

/-- VARINT1: format V1, 6 value bits (R83, R85). -/
def execVarint1 (c : Nat) (v : BitVec 6) (s : State) : Host.Outcome State Fault Refusal :=
  s.presentWire (.varint1 c v)

/-- VARINT2: format V2, 14 value bits (R83, R85). -/
def execVarint2 (c : Nat) (v : BitVec 14) (s : State) : Host.Outcome State Fault Refusal :=
  s.presentWire (.varint2 c v)

/-- VARINT4: format V4, 30 value bits (R83, R85). -/
def execVarint4 (c : Nat) (v : BitVec 30) (s : State) : Host.Outcome State Fault Refusal :=
  s.presentWire (.varint4 c v)

/-- VARINT8: format V8, 62 value bits (R83, R85). -/
def execVarint8 (c : Nat) (v : BitVec 62) (s : State) : Host.Outcome State Fault Refusal :=
  s.presentWire (.varint8 c v)

end Sys2Proof.Machine
end

