-- ==== Sys2Proof/Machine/Dispatch.lean ====
section
/-! DEFINITION. The dispatch: one arm per row of the opcode table. -/

namespace Sys2Proof.Machine

def exec (i : Instr) (s : State) : Host.Outcome State Fault Refusal :=
  match i with
  | .varint1 c v => Sys2Proof.Machine.execVarint1 c v s
  | .varint2 c v => Sys2Proof.Machine.execVarint2 c v s
  | .varint4 c v => Sys2Proof.Machine.execVarint4 c v s
  | .varint8 c v => Sys2Proof.Machine.execVarint8 c v s
  | .data c tw lw p => Sys2Proof.Machine.execData c tw lw p s
  | .headers c tw lw p => Sys2Proof.Machine.execHeaders c tw lw p s
  | .reserved2 c tw => Sys2Proof.Machine.execReserved2 c tw s
  | .cancelPush c tw lw p => Sys2Proof.Machine.execCancelPush c tw lw p s
  | .settings c tw lw p => Sys2Proof.Machine.execSettings c tw lw p s
  | .pushPromise c tw lw p => Sys2Proof.Machine.execPushPromise c tw lw p s
  | .reserved6 c tw => Sys2Proof.Machine.execReserved6 c tw s
  | .goAway c tw lw p => Sys2Proof.Machine.execGoAway c tw lw p s
  | .reserved8 c tw => Sys2Proof.Machine.execReserved8 c tw s
  | .reserved9 c tw => Sys2Proof.Machine.execReserved9 c tw s
  | .maxPushId c tw lw p => Sys2Proof.Machine.execMaxPushId c tw lw p s
  | .reservedLow c tw t => Sys2Proof.Machine.execReservedLow c tw t s
  | .unknown c tw t lw p => Sys2Proof.Machine.execUnknown c tw t lw p s
  | .viEnc v => Sys2Proof.Machine.execViEnc v s
  | .viDec bs => Sys2Proof.Machine.execViDec bs s
  | .decByte c b => Sys2Proof.Machine.execDecByte c b s
  | .decFeed c bs => Sys2Proof.Machine.execDecFeed c bs s
  | .encData p => Sys2Proof.Machine.execEncData p s
  | .encCancelPush v => Sys2Proof.Machine.execEncCancelPush v s
  | .encGoAway v => Sys2Proof.Machine.execEncGoAway v s
  | .encMaxPushId v => Sys2Proof.Machine.execEncMaxPushId v s
  | .encSettings es => Sys2Proof.Machine.execEncSettings es s
  | .encHeaders fs => Sys2Proof.Machine.execEncHeaders fs s
  | .encPushPromise v fs => Sys2Proof.Machine.execEncPushPromise v fs s
  | .encUnknown t p => Sys2Proof.Machine.execEncUnknown t p s
  | .ctxReset c => Sys2Proof.Machine.execCtxReset c s
  | .blockReset => Sys2Proof.Machine.execBlockReset s
  | .statusRead c => Sys2Proof.Machine.execStatusRead c s

end Sys2Proof.Machine
end

