-- ==== Sys2Proof/Machine/Feeds.lean ====
section
/-! DEFINITION. A feed in progress: `DEC_FEED` as the separate byte steps of R60, between which other agents may move
(log 12). A wire-level term is fed in the same way (log 13). -/

namespace Sys2Proof.Machine

/-- The feed in progress on context `c`. -/
def State.feedOn (s : State) (c : Nat) : Option Feed := s.feeds.find? (fun f => f.ctx = c)

/-- An operation on context `c` has not returned (R63, R226). -/
def State.busy (s : State) (c : Nat) : Bool := (s.feedOn c).isSome

/-- A feed of the bytes `bs` to context `c` is in progress, after those that already were. -/
def State.openFeed (c : Nat) (bs : List Byte) (s : State) : State :=
  { s with feeds := s.feeds ++ [{ ctx := c, rest := bs, events := [] }] }

/-- The feed in progress on the context of `f` stands at `f`. -/
def State.setFeed (f : Feed) (s : State) : State :=
  { s with feeds := s.feeds.map (fun g => if g.ctx = f.ctx then f else g) }

/-- No feed is in progress on context `c`. -/
def State.closeFeed (c : Nat) (s : State) : State :=
  { s with feeds := s.feeds.filter (fun g => g.ctx ≠ c) }

/-- The bytes an instruction presents to a context one step each: those of a `DEC_FEED` or of an encodable wire-level
term (R60, R112, R155). -/
def presentedBytes (k : Config) (i : Instr) : Option (Nat × List Byte) :=
  match encode k i with
  | .varint c bs | .frame c bs => if i.encodable k then some (c, bs) else none
  | .call (.decFeed c bs) => some (c, bs)
  | .call _ => none

/-- A feed is issued and waits for its turns; an index that does not exist is refused (R25). -/
def State.startFeed (c : Nat) (bs : List Byte) (s : State) : Host.Outcome State Fault Refusal :=
  if s.hasCtx c then .next (s.openFeed c bs) else .refused (.noSuchContext c)

/-- After a byte step of the feed on `c`: with bytes left it waits for its next turn; with none left the operation
returns the events of all its byte steps, concatenated, and the status (R155). -/
def State.advanceFeed (c : Nat) (rest : List Byte) (ev : List Event) (s : State) : State :=
  if rest.isEmpty then (s.closeFeed c).answer (.decoded ev (s.ctx c).status)
  else s.setFeed { ctx := c, rest := rest, events := ev }

/-- The turn of the feed on `c`: its next byte is one `DEC_BYTE` step (R60, R155); with no feed on `c` the turn passes. -/
def State.resumeFeed (c : Nat) (s : State) : Host.Outcome State Fault Refusal :=
  match s.feedOn c with
  | none => .next s
  | some f =>
    match f.rest with
    | [] => .next (s.advanceFeed c [] f.events)
    | b :: bs =>
      match s.byteStep c b with
      | .error e => .fault e
      | .ok (s', ev) => .next (s'.advanceFeed c bs (f.events ++ ev))

end Sys2Proof.Machine
end

