-- ==== Sys2Proof/Machine/Fetch.lean ====
section
/-! DEFINITION. Which agent moves next and with what: the host's schedule, its next transaction, the feeds in progress
(R60, R66, R226, R268, logs 8, 12, 15). -/

namespace Sys2Proof.Machine

/-- What the block finds to do, on the state whose queue and schedule it has left. -/
inductive Fetched where
  /-- No transaction is pending: the block is idle (R268). -/
  | idle (s : State)
  /-- The instruction to run to its return. -/
  | run (i : Instr) (s : State)
  /-- The feed to issue. -/
  | start (c : Nat) (bs : List Byte) (s : State)
  /-- The context whose feed takes its next byte step. -/
  | resume (c : Nat) (s : State)
  /-- An operation on a context on which a feed is in progress (R63). -/
  | overlap (c : Nat)
  deriving DecidableEq, Repr

/-- What is left of a slot goes back to the front of the queue. -/
def requeue : Option Slot → List Slot → List Slot
  | none, q => q
  | some sl, q => sl :: q

/-- The instruction for bytes that end before their VarInt or frame does: the block takes what has arrived, byte by
byte, and waits (R141 to R146, R160). -/
def shortInstr : Slot → Instr
  | .varint c bytes => .decFeed c bytes
  | .frame c bytes => .decFeed c bytes
  | .call i => i

/-- The next transaction, decoded, on the state whose queue it has left. -/
def State.nextInstr (s : State) : Option (Instr × State) :=
  match s.pending with
  | [] => none
  | sl :: q =>
    match decode s.cfg sl with
    | .ok (i, rest) => some (i, { s with pending := requeue rest q })
    | .error _ => some (shortInstr sl, { s with pending := q })

/-- The context an instruction names, if a feed is in progress on it: the one access rule is exclusivity (R63, R291). -/
def State.overlapped (s : State) (i : Instr) : Option Nat := i.context?.filter s.busy

/-- The next transaction is issued: to run to its return or, `apart`, with its byte steps left to turns of their own. -/
def State.issue (apart : Bool) (s : State) : Fetched :=
  match s.nextInstr with
  | none => .idle s
  | some (i, s') =>
    match s.overlapped i with
    | some c => .overlap c
    | none =>
      if apart then
        match presentedBytes s.cfg i with
        | some (c, b :: bs) => .start c (b :: bs) s'
        | some (_, []) | none => .run i s'
      else .run i s'

/-- The next turn of the schedule; where the host gives none, a feed in progress goes on, and with none in progress the
next transaction runs to its return. -/
def State.fetch (s : State) : Fetched :=
  match s.turns with
  | .whole :: ts => State.issue false { s with turns := ts }
  | .start :: ts => State.issue true { s with turns := ts }
  | .resume c :: ts => .resume c { s with turns := ts }
  | [] =>
    match s.feeds with
    | [] => s.issue false
    | f :: _ => .resume f.ctx s

/-- The configuration obeys R10: its own constraints, and N_CTX is at least 1. -/
def State.configured (s : State) : Bool := s.cfg.valid && decide (0 < s.ctxs.length)

end Sys2Proof.Machine
end

