-- ==== Sys2Proof/Machine/Step.lean ====
section
/-! DEFINITION. One step of the machine: one turn of the host's schedule. -/

namespace Sys2Proof.Machine

/-- One step: a configuration that breaks R10 has no meaning (W7); an idle block keeps all its state (R268). -/
def step (s : State) : Host.Outcome State Fault Refusal :=
  if s.configured then
    match s.fetch with
    | .idle t => .next t
    | .run i t => exec i t
    | .start c bs t => t.startFeed c bs
    | .resume c t => t.resumeFeed c
    | .overlap c => .refused (.overlap c)
  else .refused .badConfiguration

/-- Puts the instruction of a table word at the front of the host's queue and its turn at the front of the schedule,
where `step` takes it next; no feed is in progress on context 0, which every table word is for (logs 8, 12, 16). -/
def State.withFetchWord (s : State) (nbits w : Nat) : State :=
  { s.closeFeed 0 with pending := firstOnly s.cfg (tableSlot nbits w) :: s.pending, turns := .whole :: s.turns }

end Sys2Proof.Machine
end

