-- ==== Sys2Proof/Machine/HostSide.lean ====
section
/-! DEFINITION. Functions the spec defines for the host and the block never calls: `frames_of` (R158), `settings_lookup`
(R101), and a decoded frame as a frame to encode. -/

namespace Sys2Proof.Machine

/-- `frames_of`, with the Data frame that is open, if any: its declared length and the bytes so far (R158). -/
def framesFrom : Option (U62 × List Byte) → List Event → List (Frame 62)
  | _, [] => []
  | _, .fatal _ _ :: _ => []
  | none, .frame f :: es => f :: framesFrom none es
  | none, .dataStart n :: es => framesFrom (some (n, [])) es
  | none, .dataByte _ :: es => framesFrom none es
  | none, .dataEnd :: es => framesFrom none es
  | some (n, bs), .dataByte b :: es => framesFrom (some (n, bs ++ [b])) es
  | some (n, bs), .dataEnd :: es =>
    if bs.length = n.toNat then .data bs :: framesFrom none es else framesFrom none es
  | some _, .frame f :: es => f :: framesFrom none es
  | some _, .dataStart n :: es => framesFrom (some (n, [])) es

/-- `frames_of(events)` (R158). -/
def framesOf (es : List Event) : List (Frame 62) := framesFrom none es

/-- `settings_lookup(entries, id)`: the last entry wins (R101, C5). -/
def settingsLookup (es : List (U62 × U62)) (ident : U62) : Option U62 :=
  ((es.filter (fun e => e.1 = ident)).getLast?).map Prod.snd

/-- A frame of decoded (62-bit) fields as the host would present it to the encoder (R90, C11). -/
def Frame.widen : Frame 62 → Frame 64
  | .cancelPush v => .cancelPush (v.setWidth 64)
  | .data p => .data p
  | .goAway v => .goAway (v.setWidth 64)
  | .maxPushId v => .maxPushId (v.setWidth 64)
  | .settings es => .settings (es.map (fun e => (e.1.setWidth 64, e.2.setWidth 64)))
  | .headers fs => .headers fs
  | .pushPromise v fs => .pushPromise (v.setWidth 64) fs
  | .unknown t p => .unknown (t.setWidth 64) p

/-- The request `ENC_<kind>` of a frame (R190). -/
def Frame.request : Frame 64 → Instr
  | .cancelPush v => .encCancelPush v
  | .data p => .encData p
  | .goAway v => .encGoAway v
  | .maxPushId v => .encMaxPushId v
  | .settings es => .encSettings es
  | .headers fs => .encHeaders fs
  | .pushPromise v fs => .encPushPromise v fs
  | .unknown t p => .encUnknown t p

end Sys2Proof.Machine
end

