-- ==== Sys2Proof/Safety.lean ====
section
/-! DEFINITION. The terms claims use: the invariants of R37, and the states the rules say an operation leaves, written
from the rules and not from the meanings. -/

namespace Sys2Proof.Safety

open Sys2Proof.Machine

/-! Invariants (R24, R33, R37). -/

/-- R37(a): the value bits gathered so far leave room for the bytes still due. -/
def viOk (d : Ctx) : Bool :=
  decide (d.viRem = 0) || decide (d.viAcc.toNat < 2 ^ (62 - 8 * d.viRem.toNat))

/-- R37(e): no error is recorded. -/
def noError (d : Ctx) : Bool := decide (d.errCause = none) && decide (d.errCode = 0)

/-- R37(d), R34: the recorded cause is one the decoder raises, the code is its code. -/
def errorOk (k : Config) (d : Ctx) : Bool :=
  match d.errCause with
  | none => false
  | some cause => decide (cause ≠ .valueOutOfRange) && decide (d.errCode = codeOf k cause)

/-- R37(b): the registers of a frame whose payload is being taken. -/
def payloadOk (k : Config) (d : Ctx) : Bool :=
  decide (d.viRem = 0) && decide (1 ≤ d.prem.toNat) && decide (d.prem.toNat ≤ d.flen.toNat) &&
    (if kindOf k d.ftype.toNat = .data then decide (d.pcnt = 0)
     else decide (d.pcnt = d.flen.toNat - d.prem.toNat) && inBuffer k d.flen.toNat)

/-- R37 for one context, and the canonical form of its buffer. -/
def ctxOk (k : Config) (d : Ctx) : Bool :=
  d.pbuf.wf &&
    match d.state with
    | .awaitingType => viOk d && noError d
    | .awaitingLength => viOk d && noError d && !isReserved k d.ftype.toNat
    | .awaitingPayload => payloadOk k d && noError d && decide (kindOf k d.ftype.toNat ≠ .reserved)
    | .fatal => errorOk k d

/-- R24: CONN holds a cause and its code exactly when it is marked. -/
def connOk (k : Config) (conn : Conn) : Bool :=
  match conn.closeCause with
  | none => decide (conn.closePending = false) && decide (conn.closeCode = 0)
  | some cause => decide (conn.closePending = true) && decide (conn.closeCode = codeOf k cause)

/-- R63: at most one feed is in progress on a context, the context exists, and the feed has bytes left (log 12). -/
def feedsOk (s : State) : Bool :=
  s.feeds.all (fun f => s.hasCtx f.ctx && !f.rest.isEmpty) && decide (s.feeds.map Feed.ctx).Nodup

/-- The invariant of the machine: R37 in every context, R24, R37(d)'s mark for a stopped context, and R63. -/
def inv (s : State) : Bool :=
  s.ctxs.all (ctxOk s.cfg) && connOk s.cfg s.conn && (!(s.ctxs.any Ctx.isFatal) || s.conn.closePending) && feedsOk s

/-! The states the rules say an operation leaves. -/

/-- Bytes of the VarInt in progress still missing after `b` (R28, R84). -/
def missing (d : Ctx) (b : Byte) : Nat :=
  if d.viRem = 0 then 2 ^ (b.toNat / 64) - 1 else d.viRem.toNat - 1

/-- Value bits gathered after `b` (R28, R85). -/
def gathered (d : Ctx) (b : Byte) : U62 :=
  BitVec.ofNat 62 (if d.viRem = 0 then b.toNat % 64 else d.viAcc.toNat * 256 + b.toNat)

/-- The context with `b` taken into its VarInt (R127). -/
def tookByte (d : Ctx) (b : Byte) : Ctx :=
  { d with viRem := BitVec.ofNat 3 (missing d b), viAcc := gathered d b }

/-- After decoder steps on `c` that raised nothing: its registers `d`, the events `ev`, the adapter calls `calls`. -/
def decoded (s : State) (c : Nat) (d : Ctx) (ev : List Event) (calls : List AdapterCall) : State :=
  { s with
    ctxs := s.ctxs.set c d
    events := s.events ++ ev.map (fun e => (c, e))
    adapterLog := s.adapterLog ++ calls
    result := .decoded ev .needMore }

/-- CONN after a fatal error: the first one wins (R24, R250). -/
def marked (k : Config) (conn : Conn) (cause : Cause) : Conn :=
  if conn.closePending then conn
  else { closePending := true, closeCode := codeOf k cause, closeCause := some cause }

/-- After decoder steps on `c` that raised `cause` with the registers at `d` (R250). -/
def stopped (s : State) (c : Nat) (d : Ctx) (cause : Cause) (calls : List AdapterCall) : State :=
  { s with
    ctxs := s.ctxs.set c { d with state := .fatal, errCause := some cause, errCode := codeOf s.cfg cause }
    conn := marked s.cfg s.conn cause
    events := s.events ++ [(c, .fatal cause (codeOf s.cfg cause))]
    adapterLog := s.adapterLog ++ calls
    result := .decoded [.fatal cause (codeOf s.cfg cause)] (.fatal (some cause) (codeOf s.cfg cause)) }

/-- After an encode request that wrote `bs` (R190, R192). -/
def wrote (s : State) (f : Frame 64) (bs : List Byte) (calls : List AdapterCall) : State :=
  { s with
    sink := s.sink ++ bs
    released := s.released ++ [f]
    adapterLog := s.adapterLog ++ calls
    result := .encoded bs }

/-- After an encode request that failed with `cause` (R190, R192, R193, R250). -/
def failed (s : State) (f : Frame 64) (cause : Cause) (calls : List AdapterCall) : State :=
  { s with
    conn := marked s.cfg s.conn cause
    released := s.released ++ [f]
    adapterLog := s.adapterLog ++ calls
    result := .encodeFatal cause (codeOf s.cfg cause) }

/-- The buffer with `p` stored byte after byte from address `i` (R54, R149). -/
def stored (m : Memory) (i : Nat) : List Byte → Memory
  | [] => m
  | b :: bs => stored (m.write i b) (i + 1) bs

/-- A context whose length VarInt has just completed with `n` (R147, R148). -/
def lengthTaken (d : Ctx) (n : U62) : Ctx :=
  { d with viRem := 0, viAcc := n, flen := n, prem := n, pcnt := 0 }

/-- The registers after a whole atomic frame of type `t` and payload `p`, taken from a frame boundary (R147 to R150);
where the frame raises on its last byte the state alone differs (R250, W9). -/
def frameTaken (d : Ctx) (t : U62) (p : List Byte) : Ctx :=
  { d with
    state := .awaitingType
    viRem := 0
    viAcc := BitVec.ofNat 62 p.length
    ftype := t
    flen := BitVec.ofNat 62 p.length
    prem := 0
    pcnt := p.length
    pbuf := stored d.pbuf 0 p }

/-- The registers after a whole Data frame of `n` payload bytes, taken from a frame boundary (R148, R151). -/
def dataTaken (d : Ctx) (t : U62) (n : Nat) : Ctx :=
  { d with
    state := .awaitingType
    viRem := 0
    viAcc := BitVec.ofNat 62 n
    ftype := t
    flen := BitVec.ofNat 62 n
    prem := 0
    pcnt := 0 }

/-- Settings entries written in any widths (R86, R100): the widths of each entry, the entry. -/
def entriesBytes : List (Width × U62 × Width × U62) → List Byte
  | [] => []
  | (w1, ident, w2, val) :: es => viEncAt w1 ident.toNat ++ viEncAt w2 val.toNat ++ entriesBytes es

/-- Each entry's numbers fit their widths. -/
def entriesFit (es : List (Width × U62 × Width × U62)) : Bool :=
  es.all (fun e => e.1.fits e.2.1.toNat && e.2.2.1.fits e.2.2.2.toNat)

/-- The entries without their widths. -/
def entriesOf (es : List (Width × U62 × Width × U62)) : List (U62 × U62) := es.map (fun e => (e.2.1, e.2.2.2))

/-- What `vi_step` returns on each byte of a sequence (R127, R130). -/
def viTrace : Ctx → List Byte → List (Option U62)
  | _, [] => []
  | d, b :: bs => (viStep d b).2 :: viTrace (viStep d b).1 bs

/-- The payload length an encoded frame declares (R80). -/
def declaredLength (bs : List Byte) : Option Nat :=
  match viDec bs with
  | none => none
  | some (_, tw) => (viDec (bs.drop tw.bytes)).map Prod.fst

/-- An outcome with its next state rewritten. -/
def onNext (g : State → State) : Host.Outcome State Fault Refusal → Host.Outcome State Fault Refusal
  | .next t => .next (g t)
  | .fault f => .fault f
  | .refused r => .refused r

/-- The encode requests (R190). -/
def requestOf : Instr → Option (Frame 64)
  | .encData p => some (.data p)
  | .encCancelPush v => some (.cancelPush v)
  | .encGoAway v => some (.goAway v)
  | .encMaxPushId v => some (.maxPushId v)
  | .encSettings es => some (.settings es)
  | .encHeaders fs => some (.headers fs)
  | .encPushPromise v fs => some (.pushPromise v fs)
  | .encUnknown t p => some (.unknown t p)
  | .varint1 _ _ | .varint2 _ _ | .varint4 _ _ | .varint8 _ _ => none
  | .data _ _ _ _ | .headers _ _ _ _ | .cancelPush _ _ _ _ | .settings _ _ _ _ | .pushPromise _ _ _ _ => none
  | .goAway _ _ _ _ | .maxPushId _ _ _ _ | .reserved2 _ _ | .reserved6 _ _ | .reserved8 _ _ | .reserved9 _ _ => none
  | .reservedLow _ _ _ | .unknown _ _ _ _ _ | .viEnc _ | .viDec _ | .decByte _ _ | .decFeed _ _ => none
  | .ctxReset _ | .blockReset | .statusRead _ => none

/-- Bytes read as one big-endian unsigned number (R85). -/
def beNumber (bs : List Byte) : Nat := bs.foldl (fun a b => a * 256 + b.toNat) 0

/-- What `complete_atomic` of R150 leaves, from the registers `d` that hold the whole payload and the parse `r` of it:
the frame emitted and the context back at `AwaitingType`, or the fatal entry. -/
def completes (s : State) (c : Nat) (d : Ctx) (r : Parsed) (o : Host.Outcome State Fault Refusal) : Prop :=
  match r.outcome with
  | .ok f => o = .next (decoded s c { d with state := .awaitingType } [.frame f] r.calls)
  | .err cause => o = .next (stopped s c d cause r.calls)
  | .noParser => False

/-- The context, the type and the payload of a wire-level frame of an atomic kind (R153). -/
def atomicFrame (k : Config) : Instr → Option (Nat × U62 × Width × List Byte)
  | .headers c _ lw p => some (c, k.tHeaders, lw, p)
  | .cancelPush c _ lw p => some (c, k.tCancelPush, lw, p)
  | .settings c _ lw p => some (c, k.tSettings, lw, p)
  | .pushPromise c _ lw p => some (c, k.tPushPromise, lw, p)
  | .goAway c _ lw p => some (c, k.tGoAway, lw, p)
  | .maxPushId c _ lw p => some (c, k.tMaxPushId, lw, p)
  | .unknown c _ t lw p => some (c, t, lw, p)
  | .varint1 _ _ | .varint2 _ _ | .varint4 _ _ | .varint8 _ _ | .data _ _ _ _ => none
  | .reserved2 _ _ | .reserved6 _ _ | .reserved8 _ _ | .reserved9 _ _ | .reservedLow _ _ _ => none
  | .viEnc _ | .viDec _ | .decByte _ _ | .decFeed _ _ | .ctxReset _ | .blockReset | .statusRead _ => none
  | .encData _ | .encCancelPush _ | .encGoAway _ | .encMaxPushId _ => none
  | .encSettings _ | .encHeaders _ | .encPushPromise _ _ | .encUnknown _ _ => none

/-- The operations that present bytes to a context: `DEC_BYTE`, `DEC_FEED` and the wire-level terms (R51, R52). -/
def feedsBytes : Instr → Bool
  | .varint1 _ _ | .varint2 _ _ | .varint4 _ _ | .varint8 _ _ => true
  | .data _ _ _ _ | .headers _ _ _ _ | .cancelPush _ _ _ _ | .settings _ _ _ _ | .pushPromise _ _ _ _ => true
  | .goAway _ _ _ _ | .maxPushId _ _ _ _ | .reserved2 _ _ | .reserved6 _ _ | .reserved8 _ _ | .reserved9 _ _ => true
  | .reservedLow _ _ _ | .unknown _ _ _ _ _ | .decByte _ _ | .decFeed _ _ => true
  | .viEnc _ | .viDec _ | .ctxReset _ | .blockReset | .statusRead _ => false
  | .encData _ | .encCancelPush _ | .encGoAway _ | .encMaxPushId _ => false
  | .encSettings _ | .encHeaders _ | .encPushPromise _ _ | .encUnknown _ _ => false

/-- The `ENC_<kind>` requests that hand their field list to the adapter (R223). -/
def compresses : Instr → Bool
  | .encHeaders _ | .encPushPromise _ _ => true
  | .varint1 _ _ | .varint2 _ _ | .varint4 _ _ | .varint8 _ _ | .data _ _ _ _ | .headers _ _ _ _ => false
  | .cancelPush _ _ _ _ | .settings _ _ _ _ | .pushPromise _ _ _ _ | .goAway _ _ _ _ | .maxPushId _ _ _ _ => false
  | .reserved2 _ _ | .reserved6 _ _ | .reserved8 _ _ | .reserved9 _ _ | .reservedLow _ _ _ => false
  | .unknown _ _ _ _ _ | .viEnc _ | .viDec _ | .decByte _ _ | .decFeed _ _ | .encData _ | .encCancelPush _ => false
  | .encGoAway _ | .encMaxPushId _ | .encSettings _ | .encUnknown _ _ => false
  | .ctxReset _ | .blockReset | .statusRead _ => false

/-- A context in the reset state with any values in the registers and the buffer that R26 leaves unspecified. -/
def resetWith (viAcc ftype flen : U62) (pbuf : Memory) : Ctx :=
  { Ctx.atReset viAcc ftype flen with pbuf := pbuf }

/-- The bytes of the host's next transaction, if it is bytes of a stream. -/
def slotBytes : Slot → Option (Nat × List Byte)
  | .varint c bytes => some (c, bytes)
  | .frame c bytes => some (c, bytes)
  | .call _ => none

end Sys2Proof.Safety
end

