-- ==== Sys2Proof/Certificates/Slice0/Obligations.lean ====
section
/-! DEFINITION. The statements for the provers. The expected states are those of `Sys2Proof.Safety`, written from the
rules; an equation `exec i s = .next t` gives every field of `t`, so it is the instruction's frame as well. -/

open Sys2Proof Sys2Proof.Machine Sys2Proof.Safety

/-! The VarInt codec (R83 to R87, R120 to R130). -/

/-- R122, its facts in order: failure from `2^62` on; injective; length; the first byte's tag; the round trip with any
bytes after it; no shorter VarInt decodes to the value. -/
def Obligations.VarIntCodecLaws : Prop :=
  (∀ v, 2 ^ 62 ≤ v → viEnc v = none) ∧
  (∀ v u, v < 2 ^ 62 → u < 2 ^ 62 → viEnc v = viEnc u → v = u) ∧
  ∀ v, v < 2 ^ 62 → ∃ b rest, viEnc v = some (b :: rest) ∧
    rest.length + 1 = (viWidth v).bytes ∧
    2 ^ (b.toNat / 64) = (viWidth v).bytes ∧
    (∀ s, viDec (b :: rest ++ s) = some (v, viWidth v)) ∧
    ∀ s w, viDec s = some (v, w) → (viWidth v).bytes ≤ w.bytes

/-- R84, R85: the width is two to the first byte's top two bits; the value is the big-endian number of the width's
bytes with its top two bits cleared; any bytes of that width are a VarInt. -/
def Obligations.ReadVarInt : Prop :=
  ∀ (b : Byte) (rest : List Byte), ∃ w : Width, w.bytes = 2 ^ (b.toNat / 64) ∧
    viDec (b :: rest) =
      if rest.length + 1 < w.bytes then none
      else some (beNumber ((b :: rest).take w.bytes) % 2 ^ (8 * w.bytes - 2), w)

/-- R120, R121: `VI_ENC`, its widths, tags and bytes; its failure touches nothing. -/
def Obligations.ViEncResult : Prop :=
  ∀ (v : U64) (s : State) (w tag : Nat),
    (w, tag) = (if v.toNat < 2 ^ 6 then (1, 0) else if v.toNat < 2 ^ 14 then (2, 1)
      else if v.toNat < 2 ^ 30 then (4, 2) else (8, 3)) →
    exec (.viEnc v) s = .next { s with
      result := if v.toNat < 2 ^ 62 then
          .viBytes ((List.range w).map fun i =>
            BitVec.ofNat 8 ((tag * 2 ^ (8 * w - 2) + v.toNat) / 256 ^ (w - 1 - i)))
        else .viOutOfRange }

/-- R124: `VI_DEC`; the value stays below `2^62`. -/
def Obligations.ViDecResult : Prop :=
  (∀ s, exec (.viDec []) s = .next { s with result := .insufficientData }) ∧
  ∀ (b : Byte) (rest : List Byte) (s : State) (w v : Nat), w = 2 ^ (b.toNat / 64) →
    v = (rest.take (w - 1)).foldl (fun a x => a * 256 + x.toNat) (b.toNat % 64) →
    exec (.viDec (b :: rest)) s = .next { s with
      result := if rest.length + 1 < w then .insufficientData else .viValue (BitVec.ofNat 62 v) w } ∧
    (w ≤ rest.length + 1 → v < 2 ^ 62)

/-- R127, R128: the byte-serial step; the continuation update never leaves 62 bits, and R37(a) is kept. -/
def Obligations.VarIntStep : Prop :=
  ∀ (d : Ctx) (b : Byte),
    (d.viRem = 0 → (viStep d b).1 = { d with
      viAcc := BitVec.ofNat 62 (b.toNat % 64), viRem := BitVec.ofNat 3 (2 ^ (b.toNat / 64) - 1) }) ∧
    (d.viRem ≠ 0 → viOk d = true →
      d.viAcc.toNat * 256 + b.toNat < 2 ^ (62 - 8 * (d.viRem.toNat - 1)) ∧
      (viStep d b).1 = { d with
        viAcc := BitVec.ofNat 62 (d.viAcc.toNat * 256 + b.toNat), viRem := BitVec.ofNat 3 (d.viRem.toNat - 1) }) ∧
    (viStep d b).2 = (if (viStep d b).1.viRem = 0 then some (viStep d b).1.viAcc else none) ∧
    (viOk d = true → viOk (viStep d b).1 = true)

/-- R130: fed byte by byte, a VarInt completes with the same value on the same byte as `vi_dec` says. -/
def Obligations.ByteSerialAgrees : Prop :=
  ∀ (d : Ctx) (bs : List Byte), d.viRem = 0 →
    match viDec bs with
    | none => viTrace d bs = List.replicate bs.length none
    | some (v, w) =>
      viTrace d (bs.take w.bytes) = List.replicate (w.bytes - 1) none ++ [some (BitVec.ofNat 62 v)]

/-! The arms of the byte step (R142 to R152). -/

/-- R143, R146: the VarInt is not complete. -/
def Obligations.VarIntNotComplete : Prop :=
  ∀ (c : Nat) (b : Byte) (s : State), s.hasCtx c = true →
    (s.ctx c).state = .awaitingType ∨ (s.ctx c).state = .awaitingLength → missing (s.ctx c) b ≠ 0 →
    exec (.decByte c b) s = .next (decoded s c (tookByte (s.ctx c) b) [] [])

/-- R144: the type is complete and not reserved. -/
def Obligations.TypeComplete : Prop :=
  ∀ (c : Nat) (b : Byte) (s : State), s.hasCtx c = true → (s.ctx c).state = .awaitingType →
    missing (s.ctx c) b = 0 → isReserved s.cfg (gathered (s.ctx c) b).toNat = false →
    exec (.decByte c b) s = .next (decoded s c { tookByte (s.ctx c) b with
      ftype := gathered (s.ctx c) b, state := .awaitingLength } [] [])

/-- R145, R250: the type is complete and reserved: the fatal entry, in this step. -/
def Obligations.TypeReserved : Prop :=
  ∀ (c : Nat) (b : Byte) (s : State), s.hasCtx c = true → (s.ctx c).state = .awaitingType →
    missing (s.ctx c) b = 0 → isReserved s.cfg (gathered (s.ctx c) b).toNat = true →
    exec (.decByte c b) s = .next (stopped s c { tookByte (s.ctx c) b with
      ftype := gathered (s.ctx c) b } .frameUnexpected [])

/-- R147: the length of an atomic frame is complete: too large for the buffer, not 0, or 0. -/
def Obligations.LengthCompleteAtomic : Prop :=
  ∀ (c : Nat) (b : Byte) (s : State) (n : U62), s.hasCtx c = true → (s.ctx c).state = .awaitingLength →
    kindOf s.cfg (s.ctx c).ftype.toNat ≠ .data → kindOf s.cfg (s.ctx c).ftype.toNat ≠ .reserved →
    missing (s.ctx c) b = 0 → n = gathered (s.ctx c) b →
    (∀ size, s.cfg.pbufBytes = some size → size < n.toNat →
      exec (.decByte c b) s = .next (stopped s c (lengthTaken (s.ctx c) n) .payloadTooLarge [])) ∧
    ((∀ size, s.cfg.pbufBytes = some size → n.toNat ≤ size) → n ≠ 0 →
      exec (.decByte c b) s =
        .next (decoded s c { lengthTaken (s.ctx c) n with state := .awaitingPayload } [] [])) ∧
    (n = 0 → completes s c (lengthTaken (s.ctx c) n)
      (parsePayload s.cfg Config.adapter.decompress (s.ctx c).ftype []) (exec (.decByte c b) s))

/-- R148: the length of a Data frame is complete; no bound applies. -/
def Obligations.LengthCompleteData : Prop :=
  ∀ (c : Nat) (b : Byte) (s : State) (n : U62), s.hasCtx c = true → (s.ctx c).state = .awaitingLength →
    kindOf s.cfg (s.ctx c).ftype.toNat = .data → missing (s.ctx c) b = 0 → n = gathered (s.ctx c) b →
    exec (.decByte c b) s = .next (if n = 0
      then decoded s c { lengthTaken (s.ctx c) n with state := .awaitingType } [.dataStart n, .dataEnd] []
      else decoded s c { lengthTaken (s.ctx c) n with state := .awaitingPayload } [.dataStart n] [])

/-- R149, R54: a byte of an atomic payload that is not the last: stored at `D.pcnt`, nothing parsed, no other byte of
the buffer changed. -/
def Obligations.AtomicPayloadByte : Prop :=
  ∀ (c : Nat) (b : Byte) (s : State), s.hasCtx c = true → (s.ctx c).state = .awaitingPayload →
    kindOf s.cfg (s.ctx c).ftype.toNat ≠ .data → 2 ≤ (s.ctx c).prem.toNat →
    inBuffer s.cfg ((s.ctx c).pcnt + 1) = true → (s.ctx c).pbuf.wf = true →
    ∃ m : Memory, m.wf = true ∧ m.read (s.ctx c).pcnt = b ∧
      (∀ a, a ≠ (s.ctx c).pcnt → m.read a = (s.ctx c).pbuf.read a) ∧
      exec (.decByte c b) s = .next (decoded s c { s.ctx c with
        pbuf := m, pcnt := (s.ctx c).pcnt + 1, prem := (s.ctx c).prem - 1 } [] [])

/-- R149, R150: the last byte of an atomic payload: the whole payload is parsed, and the frame emitted or the fatal
entry taken, in this step. -/
def Obligations.AtomicPayloadLastByte : Prop :=
  ∀ (c : Nat) (b : Byte) (s : State), s.hasCtx c = true → (s.ctx c).state = .awaitingPayload →
    kindOf s.cfg (s.ctx c).ftype.toNat ≠ .data → kindOf s.cfg (s.ctx c).ftype.toNat ≠ .reserved →
    (s.ctx c).prem = 1 → (s.ctx c).flen.toNat = (s.ctx c).pcnt + 1 →
    inBuffer s.cfg (s.ctx c).flen.toNat = true → (s.ctx c).pbuf.wf = true →
    ∃ m : Memory, m.wf = true ∧ m.read (s.ctx c).pcnt = b ∧
      (∀ a, a ≠ (s.ctx c).pcnt → m.read a = (s.ctx c).pbuf.read a) ∧
      completes s c { s.ctx c with pbuf := m, pcnt := (s.ctx c).pcnt + 1, prem := 0 }
        (parsePayload s.cfg Config.adapter.decompress (s.ctx c).ftype
          ((s.ctx c).pbuf.slice 0 (s.ctx c).pcnt ++ [b])) (exec (.decByte c b) s)

/-- R151: a byte of a Data payload is forwarded in the step that takes it; the buffer is untouched. -/
def Obligations.DataPayloadByte : Prop :=
  ∀ (c : Nat) (b : Byte) (s : State), s.hasCtx c = true → (s.ctx c).state = .awaitingPayload →
    kindOf s.cfg (s.ctx c).ftype.toNat = .data →
    exec (.decByte c b) s = .next (if (s.ctx c).prem = 1
      then decoded s c { s.ctx c with prem := 0, state := .awaitingType } [.dataByte b, .dataEnd] []
      else decoded s c { s.ctx c with prem := (s.ctx c).prem - 1 } [.dataByte b] [])

/-- R152: a stopped context discards every byte, of a `DEC_BYTE` and of a chunk, and answers its status again. -/
def Obligations.FatalDiscards : Prop :=
  ∀ (c : Nat) (b : Byte) (chunk : List Byte) (s : State), s.hasCtx c = true → (s.ctx c).state = .fatal →
    exec (.decByte c b) s = .next { s with
      result := .decoded [] (.fatal (s.ctx c).errCause (s.ctx c).errCode) } ∧
    exec (.decFeed c chunk) s = .next { s with
      result := .decoded [] (.fatal (s.ctx c).errCause (s.ctx c).errCode) }

/-- R52: a byte step appends no event, one, `DataStart(0), DataEnd`, or `DataByte, DataEnd`, and answers what it
appended; an operation that presents no byte appends none. -/
def Obligations.AtMostTwoEvents : Prop :=
  (∀ (c : Nat) (b : Byte) (s t : State), exec (.decByte c b) s = .next t →
    ∃ ev st, t.events = s.events ++ ev.map (fun e => (c, e)) ∧ t.result = .decoded ev st ∧
      (ev = [] ∨ (∃ e, ev = [e]) ∨ ev = [.dataStart 0, .dataEnd] ∨ ∃ x, ev = [.dataByte x, .dataEnd])) ∧
  ∀ (i : Instr) (s t : State), feedsBytes i = false → exec i s = .next t → t.events = s.events

/-! Feeds (R155, R156, R159). -/

/-- R155: a feed of the empty chunk answers the status and nothing else; a feed of `b :: bs` is `DEC_BYTE(c, b)` and
then the feed of `bs`, their events concatenated. -/
def Obligations.FeedIsByteSteps : Prop :=
  (∀ (c : Nat) (s : State), s.hasCtx c = true →
    exec (.decFeed c []) s = .next { s with
      result := .decoded [] (if (s.ctx c).state = .fatal then .fatal (s.ctx c).errCause (s.ctx c).errCode
        else .needMore) }) ∧
  ∀ (c : Nat) (b : Byte) (bs : List Byte) (s : State), s.hasCtx c = true → inv s = true →
    ∃ s1 s2 e1 st1 e2 st2, exec (.decByte c b) s = .next s1 ∧ s1.result = .decoded e1 st1 ∧
      exec (.decFeed c bs) s1 = .next s2 ∧ s2.result = .decoded e2 st2 ∧
      exec (.decFeed c (b :: bs)) s = .next { s2 with result := .decoded (e1 ++ e2) st2 }

/-- R156, for every state: the chunking of the bytes cannot be seen. That a fault is the same fault, in the states no run
reaches, is the model's choice (log 17). -/
def Obligations.ChunkingInvariance : Prop :=
  ∀ (c : Nat) (xs ys : List Byte) (s : State), s.hasCtx c = true →
    match exec (.decFeed c xs) s with
    | .refused _ => False
    | .fault f => exec (.decFeed c (xs ++ ys)) s = .fault f
    | .next s1 =>
      match exec (.decFeed c ys) s1 with
      | .refused _ => False
      | .fault f => exec (.decFeed c (xs ++ ys)) s = .fault f
      | .next s2 => ∃ e1 st1 e2 st2, s1.result = .decoded e1 st1 ∧ s2.result = .decoded e2 st2 ∧
          exec (.decFeed c (xs ++ ys)) s = .next { s2 with result := .decoded (e1 ++ e2) st2 }

/-- A wire-level term acts as a feed of its bytes (the model's reading of a wire term as an operation: log 13). -/
def Obligations.WireTermIsItsBytes : Prop :=
  ∀ (i : Instr) (c : Nat) (bs : List Byte) (s : State),
    encode s.cfg i = .varint c bs ∨ encode s.cfg i = .frame c bs → i.encodable s.cfg = true →
    exec i s = exec (.decFeed c bs) s

/-- R159: what the encoder writes for a frame, the decoder reads back as that frame, from any frame boundary, and is at
a frame boundary again; conditions (a) and (b) are hypotheses, (c) is the contract `Config.adapter` carries. -/
def Obligations.RoundTrip : Prop :=
  ∀ (f : Frame 64) (s t u : State) (bs : List Byte) (c : Nat), s.cfg.valid = true →
    exec f.request s = .next t → t.result = .encoded bs →
    u.cfg = s.cfg → u.hasCtx c = true → (u.ctx c).atBoundary = true → (u.ctx c).pbuf.wf = true →
    (∀ ty p, f = .unknown ty p → ∀ k ∈ s.cfg.known, k.toNat ≠ ty.toNat) →
    ((∀ p, f ≠ .data p) → ∀ n, declaredLength bs = some n → inBuffer s.cfg n = true) →
    ∃ (u' : State) (g : Frame 62) (ev : List Event), exec (.decFeed c bs) u = .next u' ∧ g.widen = f ∧
      u'.result = .decoded ev .needMore ∧ framesOf ev = [g] ∧ (u'.ctx c).atBoundary = true

/-! The wire-level rows, from a frame boundary (R80, R81, R91). -/

/-- VARINT1 to VARINT8 at a frame boundary: the VarInt is a frame's type, in any width (R83, R85, R144, R145; log 13
says what presenting a bare VarInt means). -/
def Obligations.VarintRowsGiveType : Prop :=
  ∀ (c : Nat) (i : Instr) (v : U62) (s : State),
    (∃ x : BitVec 6, i = .varint1 c x ∧ v = x.setWidth 62) ∨ (∃ x : BitVec 14, i = .varint2 c x ∧ v = x.setWidth 62) ∨
      (∃ x : BitVec 30, i = .varint4 c x ∧ v = x.setWidth 62) ∨ i = .varint8 c v →
    s.hasCtx c = true → (s.ctx c).atBoundary = true →
    exec i s = .next (if isReserved s.cfg v.toNat = true
      then stopped s c { s.ctx c with viRem := 0, viAcc := v, ftype := v } .frameUnexpected []
      else decoded s c { s.ctx c with viRem := 0, viAcc := v, ftype := v, state := .awaitingLength } [] [])

/-- DATA: the declared length, every payload byte in order, the end; no register but those of R148 and R151 changes,
the buffer not at all; `frames_of` reads the frame back (R94, R148, R151, R158). That the context keeps the frame's
registers after the end is the model's choice (log 7). -/
def Obligations.DataFrame : Prop :=
  ∀ (c : Nat) (tw lw : Width) (p : List Byte) (s : State), s.cfg.valid = true → s.hasCtx c = true →
    (s.ctx c).atBoundary = true → frameFits tw lw s.cfg.tData.toNat p = true →
    exec (.data c tw lw p) s = .next (decoded s c (dataTaken (s.ctx c) s.cfg.tData p.length)
      (.dataStart (BitVec.ofNat 62 p.length) :: p.map Event.dataByte ++ [.dataEnd]) []) ∧
    framesOf (.dataStart (BitVec.ofNat 62 p.length) :: p.map Event.dataByte ++ [.dataEnd]) = [.data p]

/-- CANCEL_PUSH, GOAWAY, MAX_PUSH_ID: exactly one VarInt in any width gives the frame; any other payload raises
`FrameError` with its last byte (R92, R164 to R167). That the context keeps the frame's registers and buffer after it is
emitted is the model's choice (log 7). -/
def Obligations.SingleVarIntFrames : Prop :=
  ∀ (c : Nat) (i : Instr) (mk : U62 → Frame 62) (t : U62) (tw lw : Width) (p : List Byte) (s : State),
    (i = .cancelPush c tw lw p ∧ t = s.cfg.tCancelPush ∧ mk = .cancelPush) ∨
      (i = .goAway c tw lw p ∧ t = s.cfg.tGoAway ∧ mk = .goAway) ∨
      (i = .maxPushId c tw lw p ∧ t = s.cfg.tMaxPushId ∧ mk = .maxPushId) →
    s.cfg.valid = true → s.hasCtx c = true → (s.ctx c).atBoundary = true → (s.ctx c).pbuf.wf = true →
    frameFits tw lw t.toNat p = true → inBuffer s.cfg p.length = true →
    (∀ (w : Width) (v : U62), w.fits v.toNat = true → p = viEncAt w v.toNat →
      exec i s = .next (decoded s c (frameTaken (s.ctx c) t p) [.frame (mk v)] [])) ∧
    ((∀ (w : Width) (v : U62), w.fits v.toNat = true → p ≠ viEncAt w v.toNat) →
      exec i s = .next (stopped s c (frameTaken (s.ctx c) t p) .frameError []))

/-- SETTINGS: every entry in wire order, duplicates kept, any widths; a payload that does not exactly partition into
pairs raises `FrameError` (R100, R168). That the context keeps the frame's registers and buffer after it is emitted is
the model's choice (log 7). -/
def Obligations.SettingsFrame : Prop :=
  ∀ (c : Nat) (tw lw : Width) (p : List Byte) (s : State), s.cfg.valid = true → s.hasCtx c = true →
    (s.ctx c).atBoundary = true → (s.ctx c).pbuf.wf = true → frameFits tw lw s.cfg.tSettings.toNat p = true →
    inBuffer s.cfg p.length = true →
    (∀ es, entriesFit es = true → p = entriesBytes es →
      exec (.settings c tw lw p) s =
        .next (decoded s c (frameTaken (s.ctx c) s.cfg.tSettings p) [.frame (.settings (entriesOf es))] [])) ∧
    ((∀ es, entriesFit es = true → p ≠ entriesBytes es) →
      exec (.settings c tw lw p) s = .next (stopped s c (frameTaken (s.ctx c) s.cfg.tSettings p) .frameError []))

/-- HEADERS: the whole payload goes to the adapter, once; its answer is the frame or `AdapterFailure` (R95, R169,
R223). That the context keeps the frame's registers and buffer after it is emitted is the model's choice (log 7). -/
def Obligations.HeadersFrame : Prop :=
  ∀ (c : Nat) (tw lw : Width) (p : List Byte) (s : State), s.cfg.valid = true → s.hasCtx c = true →
    (s.ctx c).atBoundary = true → (s.ctx c).pbuf.wf = true → frameFits tw lw s.cfg.tHeaders.toNat p = true →
    inBuffer s.cfg p.length = true →
    exec (.headers c tw lw p) s = .next (match Config.adapter.decompress p with
      | some fields => decoded s c (frameTaken (s.ctx c) s.cfg.tHeaders p) [.frame (.headers fields)]
          [.decompress p (some fields)]
      | none => stopped s c (frameTaken (s.ctx c) s.cfg.tHeaders p) .adapterFailure [.decompress p none])

/-- PUSH_PROMISE: the push id in any width, then the adapter on all that is left; a payload with no complete push id
raises `FrameError` and the adapter is not called (R96, R170, R252). That the context keeps the frame's registers and
buffer after it is emitted is the model's choice (log 7). -/
def Obligations.PushPromiseFrame : Prop :=
  ∀ (c : Nat) (tw lw : Width) (p : List Byte) (s : State), s.cfg.valid = true → s.hasCtx c = true →
    (s.ctx c).atBoundary = true → (s.ctx c).pbuf.wf = true → frameFits tw lw s.cfg.tPushPromise.toNat p = true →
    inBuffer s.cfg p.length = true →
    (∀ (w : Width) (v : U62) (block : List Byte), w.fits v.toNat = true → p = viEncAt w v.toNat ++ block →
      exec (.pushPromise c tw lw p) s = .next (match Config.adapter.decompress block with
        | some fields => decoded s c (frameTaken (s.ctx c) s.cfg.tPushPromise p) [.frame (.pushPromise v fields)]
            [.decompress block (some fields)]
        | none => stopped s c (frameTaken (s.ctx c) s.cfg.tPushPromise p) .adapterFailure
            [.decompress block none])) ∧
    ((∀ (w : Width) (v : U62) (block : List Byte), w.fits v.toNat = true → p ≠ viEncAt w v.toNat ++ block) →
      exec (.pushPromise c tw lw p) s =
        .next (stopped s c (frameTaken (s.ctx c) s.cfg.tPushPromise p) .frameError []))

/-- UNKNOWN: type and payload carried through as they are, in one frame (R97, R171, R153). That the context keeps the
frame's registers and buffer after it is emitted is the model's choice (log 7). -/
def Obligations.UnknownFrame : Prop :=
  ∀ (c : Nat) (tw lw : Width) (t : U62) (p : List Byte) (s : State), s.hasCtx c = true →
    (s.ctx c).atBoundary = true → (s.ctx c).pbuf.wf = true → (Instr.unknown c tw t lw p).encodable s.cfg = true →
    inBuffer s.cfg p.length = true →
    exec (.unknown c tw t lw p) s =
      .next (decoded s c (frameTaken (s.ctx c) t p) [.frame (.unknown t p)] [])

/-- RESERVED_2, RESERVED_6, RESERVED_8, RESERVED_9, RESERVED_LOW, in any width: `FrameUnexpected` with the last byte of
the type, no frame (R103, R145). -/
def Obligations.ReservedRows : Prop :=
  ∀ (c : Nat) (tw : Width) (i : Instr) (t : U62) (s : State),
    (i = .reserved2 c tw ∧ t = 0x2) ∨ (i = .reserved6 c tw ∧ t = 0x6) ∨ (i = .reserved8 c tw ∧ t = 0x8) ∨
      (i = .reserved9 c tw ∧ t = 0x9) ∨ (i = .reservedLow c tw t ∧ i.encodable s.cfg = true) →
    s.hasCtx c = true → (s.ctx c).atBoundary = true →
    exec i s = .next (stopped s c { s.ctx c with viRem := 0, viAcc := t, ftype := t } .frameUnexpected [])

/-- R147, R245, for every atomic kind: a declared length above `PBUF_BYTES` raises `PayloadTooLarge` before any payload
byte is taken; the buffer is as before and the payload bytes are discarded. -/
def Obligations.OversizedFrame : Prop :=
  ∀ (i : Instr) (c : Nat) (t : U62) (lw : Width) (p : List Byte) (s : State) (size : Nat),
    atomicFrame s.cfg i = some (c, t, lw, p) → s.cfg.valid = true → i.encodable s.cfg = true →
    s.hasCtx c = true → (s.ctx c).atBoundary = true → s.cfg.pbufBytes = some size → size < p.length →
    exec i s = .next (stopped s c { lengthTaken (s.ctx c) (BitVec.ofNat 62 p.length) with ftype := t }
      .payloadTooLarge [])

/-- R54, R31, for every atomic kind: a frame that fits stores its payload at addresses 0 up, in arrival order, and
changes no other byte of its buffer and no byte of another's. That the count and the bytes are still there after the
frame is emitted is the model's choice (log 7). -/
def Obligations.AtomicFrameStores : Prop :=
  ∀ (i : Instr) (c : Nat) (t : U62) (lw : Width) (p : List Byte) (s : State),
    atomicFrame s.cfg i = some (c, t, lw, p) → s.cfg.valid = true → i.encodable s.cfg = true →
    s.hasCtx c = true → (s.ctx c).atBoundary = true → (s.ctx c).pbuf.wf = true → inBuffer s.cfg p.length = true →
    ∃ u, exec i s = .next u ∧ (u.ctx c).pbuf.wf = true ∧ (u.ctx c).pcnt = p.length ∧
      (∀ a, ∀ h : a < p.length, (u.ctx c).pbuf.read a = p[a]) ∧
      (∀ a, p.length ≤ a → (u.ctx c).pbuf.read a = (s.ctx c).pbuf.read a) ∧
      ∀ c' a, c' ≠ c → (u.ctx c').pbuf.read a = (s.ctx c').pbuf.read a

/-! The encoder (R190 to R207). -/

/-- ENC_DATA (R190, R194): type, length, the raw bytes, all in minimal widths. -/
def Obligations.EncData : Prop :=
  ∀ (p : List Byte) (s : State), exec (.encData p) s = .next (if p.length < 2 ^ 62
    then wrote s (.data p) (viEncMin s.cfg.tData.toNat ++ viEncMin p.length ++ p) []
    else failed s (.data p) .valueOutOfRange [])

/-- ENC_CANCEL_PUSH, ENC_GOAWAY, ENC_MAX_PUSH_ID (R195 to R197). -/
def Obligations.EncVarIntField : Prop :=
  ∀ (v : U64) (i : Instr) (f : Frame 64) (t : U62) (s : State),
    (i = .encCancelPush v ∧ f = .cancelPush v ∧ t = s.cfg.tCancelPush) ∨
      (i = .encGoAway v ∧ f = .goAway v ∧ t = s.cfg.tGoAway) ∨
      (i = .encMaxPushId v ∧ f = .maxPushId v ∧ t = s.cfg.tMaxPushId) →
    exec i s = .next (if v.toNat < 2 ^ 62
      then wrote s f (viEncMin t.toNat ++ viEncMin (viWidth v.toNat).bytes ++ viEncMin v.toNat) []
      else failed s f .valueOutOfRange [])

/-- ENC_SETTINGS (R198): the entries given, in the order given, duplicates too; one number out of range fails the
request. -/
def Obligations.EncSettings : Prop :=
  ∀ (es : List (U64 × U64)) (p : List Byte) (s : State),
    p = es.flatMap (fun e => viEncMin e.1.toNat ++ viEncMin e.2.toNat) →
    exec (.encSettings es) s = .next (
      if (∀ e ∈ es, e.1.toNat < 2 ^ 62 ∧ e.2.toNat < 2 ^ 62) ∧ p.length < 2 ^ 62
      then wrote s (.settings es) (viEncMin s.cfg.tSettings.toNat ++ viEncMin p.length ++ p) []
      else failed s (.settings es) .valueOutOfRange [])

/-- ENC_HEADERS (R200, R222): one call of `compress`, whatever block it answers. -/
def Obligations.EncHeaders : Prop :=
  ∀ (fs : FieldList) (s : State), ∃ block, Config.adapter.compressMay fs block ∧
    exec (.encHeaders fs) s = .next (if block.length < 2 ^ 62
      then wrote s (.headers fs) (viEncMin s.cfg.tHeaders.toNat ++ viEncMin block.length ++ block)
        [.compress fs block]
      else failed s (.headers fs) .valueOutOfRange [.compress fs block])

/-- ENC_PUSH_PROMISE (R201, R191): the range check first; out of range, the adapter is not called. -/
def Obligations.EncPushPromise : Prop :=
  ∀ (v : U64) (fs : FieldList) (s : State), ∃ block, Config.adapter.compressMay fs block ∧
    exec (.encPushPromise v fs) s = .next (
      if 2 ^ 62 ≤ v.toNat then failed s (.pushPromise v fs) .valueOutOfRange []
      else if (viEncMin v.toNat ++ block).length < 2 ^ 62
      then wrote s (.pushPromise v fs) (viEncMin s.cfg.tPushPromise.toNat ++
        viEncMin (viEncMin v.toNat ++ block).length ++ (viEncMin v.toNat ++ block)) [.compress fs block]
      else failed s (.pushPromise v fs) .valueOutOfRange [.compress fs block])

/-- ENC_UNKNOWN (R202): the range test, the reserved test, no other. -/
def Obligations.EncUnknown : Prop :=
  ∀ (t : U64) (p : List Byte) (s : State), exec (.encUnknown t p) s = .next (
    if 2 ^ 62 ≤ t.toNat then failed s (.unknown t p) .valueOutOfRange []
    else if isReserved s.cfg t.toNat = true then failed s (.unknown t p) .frameUnexpected []
    else if p.length < 2 ^ 62
    then wrote s (.unknown t p) (viEncMin t.toNat ++ viEncMin p.length ++ p) []
    else failed s (.unknown t p) .valueOutOfRange [])

/-- R207: reserved-type rejection on encode. -/
def Obligations.EncReservedRejected : Prop :=
  ∀ (t : U64) (p : List Byte) (s : State), s.cfg.valid = true → isReserved s.cfg t.toNat = true →
    ∃ u, exec (.encUnknown t p) s = .next u ∧ u.sink = s.sink ∧ u.released = s.released ++ [.unknown t p] ∧
      u.result = .encodeFatal .frameUnexpected s.cfg.codeFrameUnexpected ∧ u.conn.closePending = true ∧
      (s.conn.closePending = false → u.conn.closeCode = s.cfg.codeFrameUnexpected) ∧
      (s.conn.closePending = true → u.conn = s.conn)

/-- R192, R53, R193: every encode request completes with exactly one release; it either appends one complete encoding
and leaves CONN, or appends nothing and latches CONN; no context and no event is touched; nothing else releases. -/
def Obligations.ReleaseOnce : Prop :=
  (∀ (i : Instr) (f : Frame 64) (s : State), requestOf i = some f →
    ∃ u, exec i s = .next u ∧ u.released = s.released ++ [f] ∧ u.ctxs = s.ctxs ∧ u.events = s.events ∧
      u.pending = s.pending ∧
      ((∃ cause, u.sink = s.sink ∧ u.conn = marked s.cfg s.conn cause ∧
          u.result = .encodeFatal cause (codeOf s.cfg cause)) ∨
       ∃ t p, t < 2 ^ 62 ∧ p.length < 2 ^ 62 ∧ u.sink = s.sink ++ (viEncMin t ++ viEncMin p.length ++ p) ∧
          u.conn = s.conn ∧ u.result = .encoded (viEncMin t ++ viEncMin p.length ++ p))) ∧
  ∀ (i : Instr) (s u : State), requestOf i = none → exec i s = .next u →
    u.released = s.released ∧ u.sink = s.sink

/-! Resets and status (R228 to R230). -/

/-- CTX_RESET (R228, R43): the reset state in one context, any values in the unspecified registers and buffer; nothing
else but the model's count of free values changes. -/
def Obligations.CtxReset : Prop :=
  ∀ (c : Nat) (s : State), s.hasCtx c = true →
    ∃ a f n m k, m.wf = true ∧ exec (.ctxReset c) s = .next { s with
      ctxs := s.ctxs.set c (resetWith a f n m), result := .nothing, draws := k }

/-- BLOCK_RESET (R229, R43): every context in the reset state and CONN clear; the adapter, the outputs and the
configuration untouched. -/
def Obligations.BlockReset : Prop :=
  ∀ s : State, ∃ ds k, ds.length = s.ctxs.length ∧
    (∀ d ∈ ds, ∃ a f n m, m.wf = true ∧ d = resetWith a f n m) ∧
    exec .blockReset s = .next { s with
      ctxs := ds
      conn := { closePending := false, closeCode := 0, closeCause := none }
      result := .nothing
      draws := k }

/-- STATUS_READ (R230, R27, R34, R35): every register but the buffer, the flags and CONN, in the numbers of R27 and
R34; no side effect. -/
def Obligations.StatusRead : Prop :=
  ∀ (c : Nat) (s : State) (number : Option Cause → BitVec 3), s.hasCtx c = true →
    number none = 0 → number (some .frameUnexpected) = 1 → number (some .frameError) = 2 →
    number (some .valueOutOfRange) = 3 → number (some .payloadTooLarge) = 4 → number (some .adapterFailure) = 5 →
    exec (.statusRead c) s = .next { s with result := .status {
      state := match (s.ctx c).state with
        | .awaitingType => 0
        | .awaitingLength => 1
        | .awaitingPayload => 2
        | .fatal => 3
      viRem := (s.ctx c).viRem
      viAcc := (s.ctx c).viAcc
      ftype := (s.ctx c).ftype
      flen := (s.ctx c).flen
      prem := (s.ctx c).prem
      pcnt := (s.ctx c).pcnt
      errCause := number (s.ctx c).errCause
      errCode := (s.ctx c).errCode
      fatal := decide ((s.ctx c).state = .fatal)
      midFrame := decide ((s.ctx c).state ≠ .fatal ∧ ¬ ((s.ctx c).state = .awaitingType ∧ (s.ctx c).viRem = 0))
      closePending := s.conn.closePending
      closeCode := s.conn.closeCode
      closeCause := number s.conn.closeCause } }

/-! The fatal entry and CONN (R24, R247 to R256). -/

/-- R24, R250, R254: the first fatal error wins, and only `BLOCK_RESET` clears the mark; CONN changes only when the
operation answers a fatal error, whose cause and code it then holds. -/
def Obligations.FirstFatalWins : Prop :=
  ∀ (i : Instr) (s t : State), i ≠ .blockReset → exec i s = .next t →
    (s.conn.closePending = true → t.conn = s.conn) ∧
    (s.conn.closePending = false → t.conn = s.conn ∨
      ∃ cause, t.conn = { closePending := true, closeCode := codeOf s.cfg cause, closeCause := some cause } ∧
        (t.result = .encodeFatal cause (codeOf s.cfg cause) ∨
          ∃ ev, t.result = .decoded ev (.fatal (some cause) (codeOf s.cfg cause))))

/-- R254: a context in `Fatal` keeps every register and its buffer under every operation but a reset of it. -/
def Obligations.FatalIsSticky : Prop :=
  ∀ (i : Instr) (c : Nat) (s t : State), (s.ctx c).state = .fatal → i ≠ .ctxReset c → i ≠ .blockReset →
    exec i s = .next t → t.ctx c = s.ctx c

/-- R256, R35: no operation but `STATUS_READ` reads the mark: with any CONN it does the same, CONN apart. -/
def Obligations.NoGating : Prop :=
  ∀ (i : Instr) (s : State) (k k' : Conn), (∀ c, i ≠ .statusRead c) →
    onNext (fun t => { t with conn := k' }) (exec i { s with conn := k }) =
      onNext (fun t => { t with conn := k' }) (exec i s)

/-- R251, R64: on a byte step that raises, the only event is that `Fatal`, after all events before it; the context
records cause and code, CONN is marked unless it was, and the encoder's outputs are as before. -/
def Obligations.FatalIsPrecise : Prop :=
  ∀ (c : Nat) (b : Byte) (s t : State), exec (.decByte c b) s = .next t → (s.ctx c).state ≠ .fatal →
    (t.ctx c).state = .fatal →
    ∃ cause, t.events = s.events ++ [(c, .fatal cause (codeOf s.cfg cause))] ∧
      t.result = .decoded [.fatal cause (codeOf s.cfg cause)] (.fatal (some cause) (codeOf s.cfg cause)) ∧
      (t.ctx c).errCause = some cause ∧ (t.ctx c).errCode = codeOf s.cfg cause ∧ cause ≠ .valueOutOfRange ∧
      t.conn = marked s.cfg s.conn cause ∧ t.sink = s.sink ∧ t.released = s.released

/-! Contexts, configuration, outputs (R21, R25, R50 to R53, R223). -/

/-- R25: no operation writes a context it does not name, and none reads one: with any registers there it does the
same, that context apart. And a feed in progress is indivisible on its context (R60, R63, log 12): a step that is neither
its turn nor `BLOCK_RESET` leaves the context and the feed as they were. -/
def Obligations.Isolation : Prop :=
  (∀ (i : Instr) (c : Nat) (s t : State), i.context? ≠ some c → i ≠ .blockReset → exec i s = .next t →
    t.ctx c = s.ctx c) ∧
  (∀ (i : Instr) (c : Nat) (d : Ctx) (s : State), i.context? ≠ some c → i ≠ .blockReset →
    exec i (s.setCtx c d) = onNext (State.setCtx c d) (exec i s)) ∧
  ∀ (c : Nat) (f : Feed) (s t : State), s.feedOn c = some f → (∀ u, s.fetch ≠ .resume c u) →
    (∀ u, s.fetch ≠ .run .blockReset u) → step s = .next t → t.ctx c = s.ctx c ∧ t.feedOn c = some f

/-- R25, R10, R16: an index outside `[0, N_CTX)` is refused by name (log 18), and so is every step under a
configuration that breaks a constraint (log 20); and so is an operation on a context on which a feed is in progress
(R63, log 19). -/
def Obligations.BadOperandsRefused : Prop :=
  (∀ (i : Instr) (c : Nat) (s : State), i.context? = some c → s.hasCtx c = false → i.encodable s.cfg = true →
    exec i s = .refused (.noSuchContext c)) ∧
  (∀ s : State, (¬ s.cfg.known.Nodup ∨ (∃ t ∈ s.cfg.known, t ∈ ([0x2, 0x6, 0x8, 0x9] : List U62)) ∨
      2 ^ 62 - 1 ≤ s.cfg.minReserved ∨ s.ctxs = []) →
    step s = .refused .badConfiguration) ∧
  ∀ (s : State) (ts : List Turn) (sl : Slot) (q : List Slot) (i : Instr) (rest : Option Slot) (c : Nat),
    s.configured = true → s.turns = .whole :: ts ∨ s.turns = .start :: ts → s.pending = sl :: q →
    decode s.cfg sl = .ok (i, rest) → i.context? = some c → s.busy c = true → step s = .refused (.overlap c)

/-- R21, R9: the configuration and the number of contexts are fixed for the life of the block. -/
def Obligations.ConfigurationFixed : Prop :=
  ∀ s t : State, step s = .next t → t.cfg = s.cfg ∧ t.ctxs.length = s.ctxs.length

/-- R52, R53, R223: every output is append-only, an operation reaches only its own outputs, and only the operations of
R223 call the adapter. -/
def Obligations.OutputsAppendOnly : Prop :=
  ∀ (i : Instr) (s t : State), exec i s = .next t →
    ∃ ev bs fs calls, t.events = s.events ++ ev ∧ t.sink = s.sink ++ bs ∧ t.released = s.released ++ fs ∧
      t.adapterLog = s.adapterLog ++ calls ∧
      (∀ e ∈ ev, i.context? = some e.1) ∧ (feedsBytes i = false → ev = []) ∧
      (requestOf i = none → bs = [] ∧ fs = []) ∧
      (feedsBytes i = false → compresses i = false → calls = [])

/-- R223: a byte step calls `decompress` at most once, only in the step that completes the payload of a Headers or
PushPromise frame, and only with a block that ends the complete payload. -/
def Obligations.DecompressCallSites : Prop :=
  ∀ (c : Nat) (b : Byte) (s t : State), s.hasCtx c = true → exec (.decByte c b) s = .next t →
    t.adapterLog = s.adapterLog ∨
      ∃ first block, t.adapterLog = s.adapterLog ++ [.decompress block (Config.adapter.decompress block)] ∧
        first ++ block = (t.ctx c).pbuf.slice 0 (t.ctx c).flen.toNat ∧
        ((kindOf s.cfg (t.ctx c).ftype.toNat = .headers ∧ first = []) ∨
          kindOf s.cfg (t.ctx c).ftype.toNat = .pushPromise) ∧
        ((t.ctx c).state = .awaitingType ∨ (t.ctx c).state = .fatal)

/-! The multiplexer and the host's lookup (R101 to R104). -/

/-- R102, R103: under R10 the nine classes are the seven codes, the reserved set and the rest, in whatever order they
are tested; R103's set is the four explicit values and what is at or below the boundary and not known. -/
def Obligations.Multiplexer : Prop :=
  ∀ (k : Config) (t : Nat), k.valid = true →
    (kindOf k t = .data ↔ t = k.tData.toNat) ∧ (kindOf k t = .headers ↔ t = k.tHeaders.toNat) ∧
    (kindOf k t = .cancelPush ↔ t = k.tCancelPush.toNat) ∧ (kindOf k t = .settings ↔ t = k.tSettings.toNat) ∧
    (kindOf k t = .pushPromise ↔ t = k.tPushPromise.toNat) ∧ (kindOf k t = .goAway ↔ t = k.tGoAway.toNat) ∧
    (kindOf k t = .maxPushId ↔ t = k.tMaxPushId.toNat) ∧
    (kindOf k t = .reserved ↔ isReserved k t = true) ∧
    (kindOf k t = .unknown ↔ isReserved k t = false ∧ ∀ x ∈ k.known, t ≠ x.toNat) ∧
    (isReserved k t = true ↔
      t = 0x2 ∨ t = 0x6 ∨ t = 0x8 ∨ t = 0x9 ∨ (t ≤ k.minReserved ∧ ∀ x ∈ k.known, t ≠ x.toNat))

/-- R101: the last entry with the identifier wins; absent if there is none. -/
def Obligations.SettingsLookup : Prop :=
  (∀ ident, settingsLookup [] ident = none) ∧
  ∀ (es : List (U62 × U62)) (ident ident' v : U62),
    settingsLookup (es ++ [(ident', v)]) ident = if ident' = ident then some v else settingsLookup es ident

/-! Encoding (R80 to R91, R112). -/

/-- Every bit of every encoding is read: whatever the configuration under R10, decoding an encoded term gives it back
and leaves nothing. -/
def Obligations.DecodeEncode : Prop :=
  ∀ (k : Config) (i : Instr), k.valid = true → i.encodable k = true → decode k (encode k i) = .ok (i, none)

/-- The other direction: what is decoded is encodable, and its encoding and the rest are the bytes read. -/
def Obligations.EncodeDecode : Prop :=
  ∀ (k : Config) (sl : Slot) (i : Instr) (rest : Option Slot) (c : Nat) (bytes : List Byte), k.valid = true →
    slotBytes sl = some (c, bytes) → decode k sl = .ok (i, rest) →
    i.encodable k = true ∧ i.context? = some c ∧
      ∃ bs more, slotBytes (encode k i) = some (c, bs) ∧ bytes = bs ++ more ∧
        (rest = none → more = []) ∧ (∀ sl', rest = some sl' → slotBytes sl' = some (c, more) ∧ more ≠ [])

/-- Six words written out from the patterns of R83 and the table of R91 decode to the instruction they stand for, and
one that is cut short is rejected by name; the type codes are the defaults (log 3), and a reserved type is a term of its
own (log 14). -/
def Obligations.DecodedWords : Prop :=
  decode Config.default (.varint 1 [0x25]) = .ok (.varint1 1 37, none) ∧
  decode Config.default (.varint 0 [0x7b, 0xbd]) = .ok (.varint2 0 15293, none) ∧
  decode Config.default (.varint 0 [0x9d, 0x7f, 0x3e, 0x7d]) = .ok (.varint4 0 494878333, none) ∧
  decode Config.default (.frame 0 [0x07, 0x01, 0x05, 0x00, 0x00]) =
    .ok (.goAway 0 .v1 .v1 [0x05], some (.frame 0 [0x00, 0x00])) ∧
  decode Config.default (.frame 0 [0x40, 0x06, 0xff]) = .ok (.reserved6 0 .v2, some (.frame 0 [0xff])) ∧
  decode Config.default (.frame 0 [0x21, 0x40, 0x01, 0x77]) = .ok (.unknown 0 .v1 0x21 .v2 [0x77], none) ∧
  decode Config.default (.frame 0 [0x04, 0x02, 0x01]) = .error .payloadIncomplete

/-! Steps (R226, R268, R37, R38, R43). -/

/-- A step runs the decoded instruction: on a turn to run whole, or with no turn given and no feed in progress, the front
transaction's first instruction leaves the queue and `exec` runs it; bytes that end inside a VarInt or frame are fed as
they are (log 15); an idle block keeps all its state (R268). On a turn to start, bytes to be fed wait for turns of their
own and any other instruction runs; each turn of a feed, or the first feed's with no turn given, is one `DEC_BYTE` step of
its next byte, and the last one returns all its events (R60, R155, log 12). -/
def Obligations.StepRunsDecoded : Prop :=
  ∀ (s : State) (ts : List Turn), s.configured = true →
    (s.turns = .whole :: ts ∨ s.turns = [] ∧ ts = [] ∧ s.feeds = [] →
      (s.pending = [] → step s = .next { s with turns := ts }) ∧
      (∀ sl q i rest, s.pending = sl :: q → decode s.cfg sl = .ok (i, rest) →
        (∀ c, i.context? = some c → s.busy c = false) →
        step s = exec i { s with pending := rest.toList ++ q, turns := ts }) ∧
      ∀ sl q e, s.pending = sl :: q → decode s.cfg sl = .error e →
        ∃ c bytes, slotBytes sl = some (c, bytes) ∧
          (s.busy c = false → step s = exec (.decFeed c bytes) { s with pending := q, turns := ts })) ∧
    (s.turns = .start :: ts → ∀ sl q i rest, s.pending = sl :: q → decode s.cfg sl = .ok (i, rest) →
      (∀ c, i.context? = some c → s.busy c = false) →
      (∀ c b bs, presentedBytes s.cfg i = some (c, b :: bs) → s.hasCtx c = true →
        step s = .next { s with
          pending := rest.toList ++ q
          turns := ts
          feeds := s.feeds ++ [{ ctx := c, rest := b :: bs, events := [] }] }) ∧
      ((∀ c b bs, presentedBytes s.cfg i ≠ some (c, b :: bs)) →
        step s = exec i { s with pending := rest.toList ++ q, turns := ts })) ∧
    ∀ c f b bs t ev st, s.turns = .resume c :: ts ∨ s.turns = [] ∧ ts = [] ∧ s.feeds.head? = some f →
      s.feedOn c = some f → f.rest = b :: bs → exec (.decByte c b) s = .next t → t.result = .decoded ev st →
      step s = .next (if bs = []
        then { t with turns := ts, feeds := s.feeds.filter (fun g => g.ctx ≠ c), result := .decoded (f.events ++ ev) st }
        else { t with
          turns := ts
          feeds := s.feeds.map (fun g => if g.ctx = c then { ctx := c, rest := bs, events := f.events ++ ev } else g)
          result := s.result })

/-- R43, R280, R37: at power-on every register the spec gives a value holds it, CONN is clear, the invariant holds, and
so it does at `State.reset`, whose configuration obeys R10. -/
def Obligations.ResetState : Prop :=
  (∀ (k : Config) (n c : Nat), c < n →
    (State.powerOn k n).hasCtx c = true ∧
    (∃ a f l m, (State.powerOn k n).ctx c = resetWith a f l m ∧ m.wf = true) ∧
    (State.powerOn k n).conn = { closePending := false, closeCode := 0, closeCause := none }) ∧
  (∀ a f l m, (resetWith a f l m).state = .awaitingType ∧ (resetWith a f l m).viRem = 0 ∧
    (resetWith a f l m).prem = 0 ∧ (resetWith a f l m).pcnt = 0 ∧ (resetWith a f l m).errCause = none ∧
    (resetWith a f l m).errCode = 0 ∧ (resetWith a f l m).isFatal = false ∧
    (resetWith a f l m).midFrame = false) ∧
  (∀ k n, inv (State.powerOn k n) = true) ∧ inv State.reset = true ∧ State.reset.configured = true

/-- R37, R24, the canonical form of every buffer, and at most one feed in progress on a context, which exists (R63,
log 12), kept by every step from every state that has them. -/
def Obligations.StepKeepsInvariant : Prop :=
  ∀ s t : State, inv s = true → step s = .next t → inv t = true

/-- R300, R60: from every state that meets the invariant, every well-formed operation returns, with neither a fault nor a
refusal, and the invariant holds after it; and so does every turn of a feed in progress (log 12). -/
def Obligations.EveryOperationCompletes : Prop :=
  (∀ (i : Instr) (s : State), inv s = true → i.wellFormed s.cfg s.ctxs.length = true →
    ∃ t, exec i s = .next t ∧ inv t = true) ∧
  ∀ (c : Nat) (s u : State), inv s = true → s.configured = true → s.fetch = .resume c u →
    ∃ t, step s = .next t ∧ inv t = true

/-- R38: whatever values a context's unspecified registers and buffer hold after reset, feeding it any bytes gives the
same events, status, adapter calls and CONN. -/
def Obligations.UnspecifiedNotObservable : Prop :=
  ∀ (c : Nat) (chunk : List Byte) (s : State) (a f n a' f' n' : U62) (m m' : Memory), s.hasCtx c = true →
    m.wf = true → m'.wf = true →
    ∃ t t', exec (.decFeed c chunk) (s.setCtx c (resetWith a f n m)) = .next t ∧
      exec (.decFeed c chunk) (s.setCtx c (resetWith a' f' n' m')) = .next t' ∧
      t.result = t'.result ∧ t.events = t'.events ∧ t.adapterLog = t'.adapterLog ∧ t.conn = t'.conn
end

