-- ==== Sys2Proof/Laws/VarInt.lean ====
section
/-! SUPPORT. What the VarInt functions compute: lengths, first bytes, and that decoding undoes encoding in every width. -/

namespace Sys2Proof

@[simp] theorem beBytes_length (n x : Nat) : (beBytes n x).length = n := by
  induction n generalizing x with
  | zero => rfl
  | succ n ih => simp [beBytes, ih]

@[simp] theorem viEncAt_length (w : Width) (v : Nat) : (viEncAt w v).length = w.bytes := by
  simp [viEncAt]

/-- Accumulating a concatenation. -/
theorem beAccumulate_append (acc : Nat) (xs ys : List Byte) :
    beAccumulate acc (xs ++ ys) = beAccumulate (beAccumulate acc xs) ys := by
  induction xs generalizing acc with
  | nil => rfl
  | cons x xs ih => simp [beAccumulate, ih]

/-- The accumulator enters multiplied by `256^length`. -/
theorem beAccumulate_eq (acc : Nat) (bs : List Byte) :
    beAccumulate acc bs = acc * 256 ^ bs.length + beAccumulate 0 bs := by
  induction bs generalizing acc with
  | nil => simp [beAccumulate]
  | cons b bs ih =>
    rw [beAccumulate, ih, beAccumulate, ih (0 * 256 + b.toNat)]
    simp only [List.length_cons]
    ring

theorem beAccumulate_lt (bs : List Byte) : beAccumulate 0 bs < 256 ^ bs.length := by
  induction bs with
  | nil => simp [beAccumulate]
  | cons b bs ih =>
    rw [beAccumulate, beAccumulate_eq, List.length_cons]
    have hb := b.isLt
    calc (0 * 256 + b.toNat) * 256 ^ bs.length + beAccumulate 0 bs
        < (0 * 256 + b.toNat) * 256 ^ bs.length + 256 ^ bs.length := by omega
      _ = (b.toNat + 1) * 256 ^ bs.length := by ring
      _ ≤ 256 * 256 ^ bs.length := Nat.mul_le_mul_right _ (by omega)
      _ = 256 ^ (bs.length + 1) := by ring

/-- Big-endian bytes read back. -/
theorem beAccumulate_beBytes (n x : Nat) : beAccumulate 0 (beBytes n x) = x % 256 ^ n := by
  induction n with
  | zero => simp [beBytes, beAccumulate, Nat.mod_one]
  | succ n ih =>
    rw [beBytes, beAccumulate, beAccumulate_eq, ih, beBytes_length]
    simp only [BitVec.toNat_ofNat, Nat.zero_mul, Nat.zero_add, Nat.reducePow]
    rw [pow_succ, Nat.mod_mul]
    ring

theorem Width.bytes_pos (w : Width) : 0 < w.bytes := by cases w <;> decide

theorem Width.bytes_eq (w : Width) : w.bytes = 2 ^ w.tag := by cases w <;> rfl

theorem widthOfFirst_bytes (b : Byte) : (widthOfFirst b).bytes = 2 ^ (b.toNat / 64) := by
  have h := b.isLt
  unfold widthOfFirst
  have : b.toNat / 64 = 0 ∨ b.toNat / 64 = 1 ∨ b.toNat / 64 = 2 ∨ b.toNat / 64 = 3 := by omega
  rcases this with h | h | h | h <;> simp [h, Width.bytes]

theorem widthOfFirst_eq_of_tag {b : Byte} {w : Width} (h : b.toNat / 64 = w.tag) : widthOfFirst b = w := by
  unfold widthOfFirst
  cases w <;> simp_all [Width.tag]

theorem widthOfFirst_tag (b : Byte) : (widthOfFirst b).tag = b.toNat / 64 := by
  have h := b.isLt
  unfold widthOfFirst
  have : b.toNat / 64 = 0 ∨ b.toNat / 64 = 1 ∨ b.toNat / 64 = 2 ∨ b.toNat / 64 = 3 := by omega
  rcases this with h | h | h | h <;> simp [h, Width.tag]

/-- The low bytes of a number depend on its residue alone. -/
theorem beBytes_congr (n : Nat) : ∀ x y, x % 256 ^ n = y % 256 ^ n → beBytes n x = beBytes n y := by
  induction n with
  | zero => intros; rfl
  | succ n ih =>
    intro x y hxy
    have h1 : x % 256 ^ n = y % 256 ^ n := by
      have := congrArg (· % 256 ^ n) hxy
      simpa [pow_succ, Nat.mod_mul_right_mod] using this
    have h2 : x / 256 ^ n % 256 = y / 256 ^ n % 256 := by
      rw [← Nat.mod_mul_right_div_self, ← Nat.mod_mul_right_div_self, ← pow_succ, hxy]
    rw [beBytes, beBytes, ih x y h1]
    congr 1
    apply BitVec.eq_of_toNat_eq
    simpa using h2

/-- The value range of a width, by its low bytes. -/
theorem Width.two_pow_valueBits (w : Width) : 2 ^ w.valueBits = 64 * 256 ^ (w.bytes - 1) := by cases w <;> rfl

/-- An encoding is a first byte that carries the tag and the top value bits, then the rest of the value. -/
theorem viEncAt_eq_cons (w : Width) (v : Nat) :
    viEncAt w v = BitVec.ofNat 8 (w.tag * 64 + v / 256 ^ (w.bytes - 1)) :: beBytes (w.bytes - 1) v := by
  obtain ⟨n, hn⟩ : ∃ n, w.bytes = n + 1 := ⟨w.bytes - 1, by have := w.bytes_pos; omega⟩
  have hx : w.tag * 2 ^ w.valueBits + v = (w.tag * 64) * 256 ^ n + v := by
    have : 2 ^ w.valueBits = 64 * 256 ^ n := by rw [w.two_pow_valueBits, hn, Nat.add_sub_cancel]
    rw [this, Nat.mul_assoc]
  rw [viEncAt, hx, hn, beBytes, Nat.add_sub_cancel]
  congr 1
  · rw [Nat.add_comm, Nat.add_mul_div_right _ _ (by positivity), Nat.add_comm]
  · exact beBytes_congr n _ _ (by simp)

/-- Decoding undoes encoding in every width that holds the value, whatever follows (R86, R126). -/
theorem viDec_viEncAt (w : Width) (v : Nat) (s : List Byte) (h : v < 2 ^ w.valueBits) :
    viDec (viEncAt w v ++ s) = some (v, w) := by
  have htop : v / 256 ^ (w.bytes - 1) < 64 := by
    rw [Nat.div_lt_iff_lt_mul (by positivity), ← w.two_pow_valueBits]
    exact h
  have htag : w.tag < 4 := by cases w <;> decide
  have hpos := w.bytes_pos
  have hval : v / 256 ^ (w.bytes - 1) * 256 ^ (w.bytes - 1) + v % 256 ^ (w.bytes - 1) = v := Nat.div_add_mod' v _
  rw [viEncAt_eq_cons, List.cons_append, viDec]
  generalize v / 256 ^ (w.bytes - 1) = q at htop hval
  have hb : (BitVec.ofNat 8 (w.tag * 64 + q)).toNat = w.tag * 64 + q := by
    simp only [BitVec.toNat_ofNat]
    exact Nat.mod_eq_of_lt (by omega)
  have hw : widthOfFirst (BitVec.ofNat 8 (w.tag * 64 + q)) = w :=
    widthOfFirst_eq_of_tag (by rw [hb]; omega)
  have hmod : (w.tag * 64 + q) % 64 = q := by omega
  have hlen : ¬ (beBytes (w.bytes - 1) v ++ s).length + 1 < w.bytes := by
    simp only [List.length_append, beBytes_length]; omega
  rw [hw, hb, if_neg hlen, hmod, List.take_append_of_le_length (by simp), List.take_of_length_le (by simp),
    beAccumulate_eq, beAccumulate_beBytes, beBytes_length, hval]

/-- A decoded value lies in its width's range (R85, R124). -/
theorem viDec_lt {s : List Byte} {v : Nat} {w : Width} (h : viDec s = some (v, w)) : v < 2 ^ w.valueBits := by
  cases s with
  | nil => simp [viDec] at h
  | cons b rest =>
    simp only [viDec] at h
    split at h
    · cases h
    · rename_i hlen
      cases h
      have hpos := (widthOfFirst b).bytes_pos
      have hl : (rest.take ((widthOfFirst b).bytes - 1)).length = (widthOfFirst b).bytes - 1 := by
        rw [List.length_take]; omega
      have hlt := beAccumulate_lt (rest.take ((widthOfFirst b).bytes - 1))
      rw [beAccumulate_eq, hl]
      rw [hl] at hlt
      rw [Width.two_pow_valueBits]
      have h64 : b.toNat % 64 + 1 ≤ 64 := by omega
      calc b.toNat % 64 * 256 ^ ((widthOfFirst b).bytes - 1) + _
          < b.toNat % 64 * 256 ^ ((widthOfFirst b).bytes - 1) + 256 ^ ((widthOfFirst b).bytes - 1) := by omega
        _ = (b.toNat % 64 + 1) * 256 ^ ((widthOfFirst b).bytes - 1) := by ring
        _ ≤ 64 * 256 ^ ((widthOfFirst b).bytes - 1) := Nat.mul_le_mul_right _ h64

theorem Width.valueBits_le (w : Width) : 2 ^ w.valueBits ≤ 2 ^ 62 := by cases w <;> decide

/-- A decoded value is below `2^62` (R124). -/
theorem viDec_lt_62 {s : List Byte} {v : Nat} {w : Width} (h : viDec s = some (v, w)) : v < 2 ^ 62 :=
  Nat.lt_of_lt_of_le (viDec_lt h) w.valueBits_le

/-- At least the width's bytes were there. -/
theorem viDec_length {s : List Byte} {v : Nat} {w : Width} (h : viDec s = some (v, w)) : w.bytes ≤ s.length := by
  cases s with
  | nil => simp [viDec] at h
  | cons b rest =>
    simp only [viDec] at h
    split at h
    · cases h
    · cases h; simp only [List.length_cons]; omega

/-- The minimal width holds the value (R121). -/
theorem viWidth_fits {v : Nat} (h : v < 2 ^ 62) : v < 2 ^ (viWidth v).valueBits := by
  unfold viWidth
  split
  · assumption
  · split
    · assumption
    · split
      · assumption
      · exact h

/-- Decoding undoes minimal encoding. -/
theorem viDec_viEncMin (v : Nat) (s : List Byte) (h : v < 2 ^ 62) :
    viDec (viEncMin v ++ s) = some (v, viWidth v) :=
  viDec_viEncAt _ _ _ (viWidth_fits h)

@[simp] theorem viEncMin_length (v : Nat) : (viEncMin v).length = (viWidth v).bytes := by simp [viEncMin]

theorem fits_iff {w : Width} {v : Nat} : w.fits v = true ↔ v < 2 ^ w.valueBits := by simp [Width.fits]

/-- Dropping an encoding from the front. -/
@[simp] theorem drop_viEncAt (w : Width) (v : Nat) (s : List Byte) : (viEncAt w v ++ s).drop w.bytes = s := by
  rw [List.drop_append_of_le_length (by simp), List.drop_of_length_le (by simp), List.nil_append]

end Sys2Proof
end

