-- ==== Sys2Proof/Laws/Decode.lean ====
section
/-! SUPPORT. The decoder and the encoder of the wire level, each the other's inverse on one VarInt and one frame. -/

namespace Sys2Proof

theorem beBytes_beAccumulate (xs : List Byte) : beBytes xs.length (beAccumulate 0 xs) = xs := by
  induction xs with
  | nil => rfl
  | cons x xs ih =>
    have hlt := beAccumulate_lt xs
    have hx := x.isLt
    rw [List.length_cons, beBytes, beAccumulate, Nat.zero_mul, Nat.zero_add, beAccumulate_eq]
    have hdiv : (x.toNat * 256 ^ xs.length + beAccumulate 0 xs) / 256 ^ xs.length = x.toNat := by
      rw [Nat.add_comm, Nat.add_mul_div_right _ _ (by positivity), Nat.div_eq_of_lt hlt, Nat.zero_add]
    rw [hdiv, beBytes_congr xs.length _ (beAccumulate 0 xs) (by simp), ih]
    simp

/-- What `vi_dec` read is the encoding, in the width read, of the value read (R85, R87). -/
theorem viEncAt_of_viDec {s : List Byte} {v : Nat} {w : Width} (h : viDec s = some (v, w)) :
    s = viEncAt w v ++ s.drop w.bytes := by
  cases s with
  | nil => simp [viDec] at h
  | cons b rest =>
    simp only [viDec] at h
    split at h
    · cases h
    · rename_i hlen
      simp only [Option.some.injEq, Prod.mk.injEq] at h
      obtain ⟨hv, hw⟩ := h
      have htag : w.tag = b.toNat / 64 := by rw [← hw, widthOfFirst_tag]
      rw [hw] at hv hlen
      obtain ⟨n, hn⟩ : ∃ n, w.bytes = n + 1 := ⟨w.bytes - 1, by have := w.bytes_pos; omega⟩
      rw [viEncAt_eq_cons, hn, Nat.add_sub_cancel, List.drop_succ_cons, List.cons_append]
      rw [hn, Nat.add_sub_cancel] at hv
      have htake : (rest.take n).length = n := by rw [List.length_take]; omega
      have hacc := beAccumulate_lt (rest.take n)
      rw [beAccumulate_eq, htake] at hv
      rw [htake] at hacc
      have hdiv : v / 256 ^ n = b.toNat % 64 := by
        rw [← hv, Nat.add_comm, Nat.add_mul_div_right _ _ (by positivity), Nat.div_eq_of_lt hacc, Nat.zero_add]
      have hb : BitVec.ofNat 8 (w.tag * 64 + v / 256 ^ n) = b := by
        rw [hdiv, htag, Nat.mul_comm, Nat.div_add_mod]
        simp
      have hrest : beBytes n v = rest.take n := by
        have := beBytes_beAccumulate (rest.take n)
        rw [htake] at this
        rw [← this]
        exact beBytes_congr n _ _ (by rw [← hv]; simp)
      rw [hb, hrest, List.take_append_drop]

theorem viDec_eq_some_iff {s : List Byte} {v : Nat} {w : Width} :
    viDec s = some (v, w) ↔ v < 2 ^ w.valueBits ∧ ∃ rest, s = viEncAt w v ++ rest := by
  constructor
  · intro h; exact ⟨viDec_lt h, _, viEncAt_of_viDec h⟩
  · rintro ⟨hv, rest, rfl⟩; exact viDec_viEncAt w v rest hv

/-! Kinds under a configuration that obeys R10. -/

/-- The seven codes are pairwise distinct as numbers, and none is reserved (R10, R103). -/
theorem Config.valid_codes {k : Config} (h : k.valid = true) :
    (k.known.map BitVec.toNat).Nodup ∧ ∀ t ∈ k.known, isReserved k t.toNat = false := by
  simp only [Config.valid, Bool.and_eq_true, decide_eq_true_eq, List.all_eq_true] at h
  obtain ⟨⟨⟨hnd, hall⟩, -⟩, -⟩ := h
  refine ⟨hnd.map (fun a b hab => BitVec.eq_of_toNat_eq hab), fun t ht => ?_⟩
  have h4 := hall t ht
  simp only [isReserved, Bool.or_eq_false_iff, Bool.and_eq_false_iff]
  refine ⟨?_, .inr ?_⟩
  · rw [Bool.eq_false_iff]
    intro hc
    simp only [explicitReserved, List.contains_eq_mem, List.mem_cons, List.not_mem_nil, or_false,
      decide_eq_true_eq] at hc
    have key : ∀ n : Nat, n < 2 ^ 62 → t.toNat = n → t = BitVec.ofNat 62 n := by
      intro n hn hh; apply BitVec.eq_of_toNat_eq; rw [hh, BitVec.toNat_ofNat, Nat.mod_eq_of_lt hn]
    rcases hc with hc | hc | hc | hc <;>
      (rw [key _ (by decide) hc] at h4; revert h4; decide)
  · simp only [Bool.not_eq_eq_eq_not, Bool.not_false, List.contains_eq_mem, decide_eq_true_eq]
    exact List.mem_map_of_mem ht

/-- The codes' numbers, pairwise distinct. -/
theorem Config.valid_distinct {k : Config} (h : k.valid = true) :
    List.Pairwise (fun a b => a ≠ b) [k.tData.toNat, k.tHeaders.toNat, k.tCancelPush.toNat, k.tSettings.toNat,
      k.tPushPromise.toNat, k.tGoAway.toNat, k.tMaxPushId.toNat] := (Config.valid_codes h).1

/-- The kind of each of the seven codes. -/
theorem kindOf_known {k : Config} (h : k.valid = true) :
    kindOf k k.tData.toNat = .data ∧ kindOf k k.tHeaders.toNat = .headers ∧
      kindOf k k.tCancelPush.toNat = .cancelPush ∧ kindOf k k.tSettings.toNat = .settings ∧
      kindOf k k.tPushPromise.toNat = .pushPromise ∧ kindOf k k.tGoAway.toNat = .goAway ∧
      kindOf k k.tMaxPushId.toNat = .maxPushId := by
  have hd := Config.valid_distinct h
  simp only [List.pairwise_cons, List.mem_cons, List.not_mem_nil, or_false, forall_eq_or_imp, forall_eq,
    false_imp_iff, implies_true] at hd
  obtain ⟨⟨a1, a2, a3, a4, a5, a6⟩, ⟨b2, b3, b4, b5, b6⟩, ⟨c3, c4, c5, c6⟩, ⟨d4, d5, d6⟩, ⟨e5, e6⟩, f6, -⟩ := hd
  refine ⟨?_, ?_, ?_, ?_, ?_, ?_, ?_⟩
  · rw [kindOf, if_pos rfl]
  · rw [kindOf, if_neg a1.symm, if_pos rfl]
  · rw [kindOf, if_neg a2.symm, if_neg b2.symm, if_pos rfl]
  · rw [kindOf, if_neg a3.symm, if_neg b3.symm, if_neg c3.symm, if_pos rfl]
  · rw [kindOf, if_neg a4.symm, if_neg b4.symm, if_neg c4.symm, if_neg d4.symm, if_pos rfl]
  · rw [kindOf, if_neg a5.symm, if_neg b5.symm, if_neg c5.symm, if_neg d5.symm, if_neg e5.symm, if_pos rfl]
  · rw [kindOf, if_neg a6.symm, if_neg b6.symm, if_neg c6.symm, if_neg d6.symm, if_neg e6.symm, if_neg f6.symm,
      if_pos rfl]

/-- What a kind says of its type value, under any configuration. -/
theorem kindOf_spec (k : Config) (t : Nat) :
    match kindOf k t with
    | .data => t = k.tData.toNat
    | .headers => t = k.tHeaders.toNat
    | .cancelPush => t = k.tCancelPush.toNat
    | .settings => t = k.tSettings.toNat
    | .pushPromise => t = k.tPushPromise.toNat
    | .goAway => t = k.tGoAway.toNat
    | .maxPushId => t = k.tMaxPushId.toNat
    | .reserved => isReserved k t = true
    | .unknown => isReserved k t = false := by
  unfold kindOf
  split_ifs <;> simp_all

/-- A kind that is neither of the last two belongs to a known code. -/
theorem kindOf_unknown_iff {k : Config} {t : Nat} :
    kindOf k t = .unknown ↔ isReserved k t = false ∧ ∀ x ∈ k.known, t ≠ x.toNat := by
  simp only [Config.known, List.mem_cons, List.not_mem_nil, or_false, forall_eq_or_imp, forall_eq]
  unfold kindOf
  split_ifs <;> simp_all

/-- A reserved type has no other kind (R103 under R10). -/
theorem kindOf_reserved_iff {k : Config} {t : Nat} (h : k.valid = true) :
    kindOf k t = .reserved ↔ isReserved k t = true := by
  have hk := (Config.valid_codes h).2
  simp only [Config.known, List.mem_cons, List.not_mem_nil, or_false, forall_eq_or_imp, forall_eq] at hk
  obtain ⟨h1, h2, h3, h4, h5, h6, h7⟩ := hk
  unfold kindOf
  split_ifs <;> simp_all

end Sys2Proof
end

