-- ==== Sys2Proof/Laws/Memory.lean ====
section
/-! SUPPORT. The payload buffer's laws: every operation keeps the canonical form, and reads see writes. -/

namespace Sys2Proof.Machine

theorem Memory.wfAbove_mono {lo lo' : Option Nat} {m : Memory} (h : Memory.wfAbove lo' m = true)
    (hle : ∀ l, lo = some l → ∃ l', lo' = some l' ∧ l ≤ l') : Memory.wfAbove lo m = true := by
  cases m with
  | nil => rfl
  | cons p m =>
    obtain ⟨a, b⟩ := p
    cases lo with
    | none => cases lo' <;> simp_all [Memory.wfAbove]
    | some l =>
      obtain ⟨l', rfl, hl⟩ := hle l rfl
      simp only [Memory.wfAbove, Bool.and_eq_true, decide_eq_true_eq] at h ⊢
      exact ⟨⟨by omega, h.1.2⟩, h.2⟩

theorem Memory.cell_wfAbove {lo : Option Nat} {i : Nat} {b : BitVec 8} {m : Memory}
    (hlo : ∀ l, lo = some l → l < i) (hm : Memory.wfAbove (some i) m = true) :
    Memory.wfAbove lo (Memory.cell i b m) = true := by
  unfold Memory.cell
  split
  · exact Memory.wfAbove_mono hm fun l h => ⟨i, rfl, Nat.le_of_lt (hlo l h)⟩
  · rename_i hb
    cases lo with
    | none => simp [Memory.wfAbove, hb, hm]
    | some l => simp [Memory.wfAbove, hb, hm, hlo l rfl]

theorem Memory.write_wfAbove {m : Memory} {lo : Option Nat} {i : Nat} {b : BitVec 8}
    (hm : Memory.wfAbove lo m = true) (hlo : ∀ l, lo = some l → l < i) :
    Memory.wfAbove lo (m.write i b) = true := by
  induction m generalizing lo with
  | nil => exact Memory.cell_wfAbove hlo rfl
  | cons p m ih =>
    obtain ⟨a, x⟩ := p
    have hrest : Memory.wfAbove (some a) m = true := by
      simp only [Memory.wfAbove, Bool.and_eq_true] at hm; exact hm.2
    unfold Memory.write
    split
    · rename_i hia
      refine Memory.cell_wfAbove hlo ?_
      simp only [Memory.wfAbove, Bool.and_eq_true, decide_eq_true_eq] at hm ⊢
      exact ⟨⟨hia, hm.1.2⟩, hm.2⟩
    · split
      · rename_i hia
        subst hia
        exact Memory.cell_wfAbove hlo hrest
      · simp only [Memory.wfAbove, Bool.and_eq_true] at hm ⊢
        exact ⟨hm.1, ih hrest (by intro l hl; cases hl; omega)⟩

/-- A store keeps the canonical form. -/
theorem Memory.write_wf {m : Memory} (hm : m.wf = true) (i : Nat) (b : BitVec 8) : (m.write i b).wf = true :=
  Memory.write_wfAbove hm (by intro l h; cases h)

/-- The buffer at reset is canonical. -/
theorem Memory.wf_nil : Memory.wf [] = true := rfl

theorem Memory.read_below {m : Memory} {lo i : Nat} (hm : Memory.wfAbove (some lo) m = true) (h : i ≤ lo) :
    m.read i = Memory.unlisted := by
  induction m generalizing lo with
  | nil => rfl
  | cons p m ih =>
    obtain ⟨a, x⟩ := p
    simp only [Memory.wfAbove, Bool.and_eq_true, decide_eq_true_eq] at hm
    have hne : i ≠ a := by omega
    simp [Memory.read, hne, ih hm.2 (by omega)]

/-- A read after a store: the byte stored at its address, what was there elsewhere. -/
theorem Memory.read_write {m : Memory} {lo : Option Nat} (hm : Memory.wfAbove lo m = true) (i j : Nat) (b : BitVec 8) :
    (m.write i b).read j = if j = i then b else m.read j := by
  induction m generalizing lo with
  | nil =>
    simp only [Memory.write, Memory.cell]
    split <;> simp_all [Memory.read]
  | cons p m ih =>
    obtain ⟨a, x⟩ := p
    simp only [Memory.wfAbove, Bool.and_eq_true, decide_eq_true_eq] at hm
    have hbelow : ∀ k, k ≤ a → Memory.read m k = Memory.unlisted := fun k hk => Memory.read_below hm.2 hk
    unfold Memory.write
    split
    · rename_i hia
      have hi := hbelow i (by omega)
      simp only [Memory.cell]
      split <;> by_cases hj : j = i <;> simp_all [Memory.read]
      intro h; omega
    · split
      · rename_i hia
        subst hia
        have hi := hbelow i (Nat.le_refl i)
        simp only [Memory.cell]
        split <;> by_cases hj : j = i <;> simp_all [Memory.read]
      · simp only [Memory.read]
        by_cases hj : j = a
        · simp [hj]; intro h; omega
        · simp [hj, ih hm.2]

/-- A slice has the length asked for. -/
@[simp] theorem Memory.slice_length (m : Memory) (i n : Nat) : (m.slice i n).length = n := by
  induction n generalizing i with
  | zero => rfl
  | succ n ih => simp [Memory.slice, ih]

/-- A slice one byte longer. -/
theorem Memory.slice_succ_right (m : Memory) (i n : Nat) : m.slice i (n + 1) = m.slice i n ++ [m.read (i + n)] := by
  induction n generalizing i with
  | zero => simp [Memory.slice]
  | succ n ih =>
    rw [Memory.slice, ih (i + 1), Memory.slice]
    simp [Nat.add_assoc, Nat.add_comm 1 n]

/-- A store at or above a slice's end leaves the slice as it was. -/
theorem Memory.slice_write_above {m : Memory} (hm : m.wf = true) (i n j : Nat) (b : BitVec 8) (h : i + n ≤ j) :
    (m.write j b).slice i n = m.slice i n := by
  induction n generalizing i with
  | zero => rfl
  | succ n ih =>
    simp only [Memory.slice]
    rw [Memory.read_write hm, if_neg (by omega), ih (i + 1) (by omega)]

end Sys2Proof.Machine
end

