-- ==== Sys2Proof/Laws/State.lean ====
section
/-! SUPPORT. One lemma per field per update of the state, all true by rfl, so that no proof unfolds a record update. -/

namespace Sys2Proof.Machine

@[simp] theorem State.setCtx_cfg (s : State) (c : Nat) (d : Ctx) : (s.setCtx c d).cfg = s.cfg := rfl
@[simp] theorem State.setCtx_ctxs (s : State) (c : Nat) (d : Ctx) : (s.setCtx c d).ctxs = s.ctxs.set c d := rfl
@[simp] theorem State.setCtx_conn (s : State) (c : Nat) (d : Ctx) : (s.setCtx c d).conn = s.conn := rfl
@[simp] theorem State.setCtx_events (s : State) (c : Nat) (d : Ctx) : (s.setCtx c d).events = s.events := rfl
@[simp] theorem State.setCtx_sink (s : State) (c : Nat) (d : Ctx) : (s.setCtx c d).sink = s.sink := rfl
@[simp] theorem State.setCtx_released (s : State) (c : Nat) (d : Ctx) : (s.setCtx c d).released = s.released := rfl
@[simp] theorem State.setCtx_adapterLog (s : State) (c : Nat) (d : Ctx) : (s.setCtx c d).adapterLog = s.adapterLog := rfl
@[simp] theorem State.setCtx_result (s : State) (c : Nat) (d : Ctx) : (s.setCtx c d).result = s.result := rfl
@[simp] theorem State.setCtx_pending (s : State) (c : Nat) (d : Ctx) : (s.setCtx c d).pending = s.pending := rfl
@[simp] theorem State.setCtx_feeds (s : State) (c : Nat) (d : Ctx) : (s.setCtx c d).feeds = s.feeds := rfl
@[simp] theorem State.setCtx_turns (s : State) (c : Nat) (d : Ctx) : (s.setCtx c d).turns = s.turns := rfl
@[simp] theorem State.setCtx_draws (s : State) (c : Nat) (d : Ctx) : (s.setCtx c d).draws = s.draws := rfl

@[simp] theorem State.emit_cfg (s : State) (c : Nat) (ev : List Event) : (s.emit c ev).cfg = s.cfg := rfl
@[simp] theorem State.emit_ctxs (s : State) (c : Nat) (ev : List Event) : (s.emit c ev).ctxs = s.ctxs := rfl
@[simp] theorem State.emit_conn (s : State) (c : Nat) (ev : List Event) : (s.emit c ev).conn = s.conn := rfl
@[simp] theorem State.emit_events (s : State) (c : Nat) (ev : List Event) : (s.emit c ev).events = s.events ++ ev.map (fun e => (c, e)) := rfl
@[simp] theorem State.emit_sink (s : State) (c : Nat) (ev : List Event) : (s.emit c ev).sink = s.sink := rfl
@[simp] theorem State.emit_released (s : State) (c : Nat) (ev : List Event) : (s.emit c ev).released = s.released := rfl
@[simp] theorem State.emit_adapterLog (s : State) (c : Nat) (ev : List Event) : (s.emit c ev).adapterLog = s.adapterLog := rfl
@[simp] theorem State.emit_result (s : State) (c : Nat) (ev : List Event) : (s.emit c ev).result = s.result := rfl
@[simp] theorem State.emit_pending (s : State) (c : Nat) (ev : List Event) : (s.emit c ev).pending = s.pending := rfl
@[simp] theorem State.emit_feeds (s : State) (c : Nat) (ev : List Event) : (s.emit c ev).feeds = s.feeds := rfl
@[simp] theorem State.emit_turns (s : State) (c : Nat) (ev : List Event) : (s.emit c ev).turns = s.turns := rfl
@[simp] theorem State.emit_draws (s : State) (c : Nat) (ev : List Event) : (s.emit c ev).draws = s.draws := rfl

@[simp] theorem State.sinkWrite_cfg (s : State) (bs : List Byte) : (s.sinkWrite bs).cfg = s.cfg := rfl
@[simp] theorem State.sinkWrite_ctxs (s : State) (bs : List Byte) : (s.sinkWrite bs).ctxs = s.ctxs := rfl
@[simp] theorem State.sinkWrite_conn (s : State) (bs : List Byte) : (s.sinkWrite bs).conn = s.conn := rfl
@[simp] theorem State.sinkWrite_events (s : State) (bs : List Byte) : (s.sinkWrite bs).events = s.events := rfl
@[simp] theorem State.sinkWrite_sink (s : State) (bs : List Byte) : (s.sinkWrite bs).sink = s.sink ++ bs := rfl
@[simp] theorem State.sinkWrite_released (s : State) (bs : List Byte) : (s.sinkWrite bs).released = s.released := rfl
@[simp] theorem State.sinkWrite_adapterLog (s : State) (bs : List Byte) : (s.sinkWrite bs).adapterLog = s.adapterLog := rfl
@[simp] theorem State.sinkWrite_result (s : State) (bs : List Byte) : (s.sinkWrite bs).result = s.result := rfl
@[simp] theorem State.sinkWrite_pending (s : State) (bs : List Byte) : (s.sinkWrite bs).pending = s.pending := rfl
@[simp] theorem State.sinkWrite_feeds (s : State) (bs : List Byte) : (s.sinkWrite bs).feeds = s.feeds := rfl
@[simp] theorem State.sinkWrite_turns (s : State) (bs : List Byte) : (s.sinkWrite bs).turns = s.turns := rfl
@[simp] theorem State.sinkWrite_draws (s : State) (bs : List Byte) : (s.sinkWrite bs).draws = s.draws := rfl

@[simp] theorem State.release_cfg (s : State) (f : Frame 64) : (s.release f).cfg = s.cfg := rfl
@[simp] theorem State.release_ctxs (s : State) (f : Frame 64) : (s.release f).ctxs = s.ctxs := rfl
@[simp] theorem State.release_conn (s : State) (f : Frame 64) : (s.release f).conn = s.conn := rfl
@[simp] theorem State.release_events (s : State) (f : Frame 64) : (s.release f).events = s.events := rfl
@[simp] theorem State.release_sink (s : State) (f : Frame 64) : (s.release f).sink = s.sink := rfl
@[simp] theorem State.release_released (s : State) (f : Frame 64) : (s.release f).released = s.released ++ [f] := rfl
@[simp] theorem State.release_adapterLog (s : State) (f : Frame 64) : (s.release f).adapterLog = s.adapterLog := rfl
@[simp] theorem State.release_result (s : State) (f : Frame 64) : (s.release f).result = s.result := rfl
@[simp] theorem State.release_pending (s : State) (f : Frame 64) : (s.release f).pending = s.pending := rfl
@[simp] theorem State.release_feeds (s : State) (f : Frame 64) : (s.release f).feeds = s.feeds := rfl
@[simp] theorem State.release_turns (s : State) (f : Frame 64) : (s.release f).turns = s.turns := rfl
@[simp] theorem State.release_draws (s : State) (f : Frame 64) : (s.release f).draws = s.draws := rfl

@[simp] theorem State.logCalls_cfg (s : State) (cs : List AdapterCall) : (s.logCalls cs).cfg = s.cfg := rfl
@[simp] theorem State.logCalls_ctxs (s : State) (cs : List AdapterCall) : (s.logCalls cs).ctxs = s.ctxs := rfl
@[simp] theorem State.logCalls_conn (s : State) (cs : List AdapterCall) : (s.logCalls cs).conn = s.conn := rfl
@[simp] theorem State.logCalls_events (s : State) (cs : List AdapterCall) : (s.logCalls cs).events = s.events := rfl
@[simp] theorem State.logCalls_sink (s : State) (cs : List AdapterCall) : (s.logCalls cs).sink = s.sink := rfl
@[simp] theorem State.logCalls_released (s : State) (cs : List AdapterCall) : (s.logCalls cs).released = s.released := rfl
@[simp] theorem State.logCalls_adapterLog (s : State) (cs : List AdapterCall) : (s.logCalls cs).adapterLog = s.adapterLog ++ cs := rfl
@[simp] theorem State.logCalls_result (s : State) (cs : List AdapterCall) : (s.logCalls cs).result = s.result := rfl
@[simp] theorem State.logCalls_pending (s : State) (cs : List AdapterCall) : (s.logCalls cs).pending = s.pending := rfl
@[simp] theorem State.logCalls_feeds (s : State) (cs : List AdapterCall) : (s.logCalls cs).feeds = s.feeds := rfl
@[simp] theorem State.logCalls_turns (s : State) (cs : List AdapterCall) : (s.logCalls cs).turns = s.turns := rfl
@[simp] theorem State.logCalls_draws (s : State) (cs : List AdapterCall) : (s.logCalls cs).draws = s.draws := rfl

@[simp] theorem State.answer_cfg (s : State) (r : Result) : (s.answer r).cfg = s.cfg := rfl
@[simp] theorem State.answer_ctxs (s : State) (r : Result) : (s.answer r).ctxs = s.ctxs := rfl
@[simp] theorem State.answer_conn (s : State) (r : Result) : (s.answer r).conn = s.conn := rfl
@[simp] theorem State.answer_events (s : State) (r : Result) : (s.answer r).events = s.events := rfl
@[simp] theorem State.answer_sink (s : State) (r : Result) : (s.answer r).sink = s.sink := rfl
@[simp] theorem State.answer_released (s : State) (r : Result) : (s.answer r).released = s.released := rfl
@[simp] theorem State.answer_adapterLog (s : State) (r : Result) : (s.answer r).adapterLog = s.adapterLog := rfl
@[simp] theorem State.answer_result (s : State) (r : Result) : (s.answer r).result = r := rfl
@[simp] theorem State.answer_pending (s : State) (r : Result) : (s.answer r).pending = s.pending := rfl
@[simp] theorem State.answer_feeds (s : State) (r : Result) : (s.answer r).feeds = s.feeds := rfl
@[simp] theorem State.answer_turns (s : State) (r : Result) : (s.answer r).turns = s.turns := rfl
@[simp] theorem State.answer_draws (s : State) (r : Result) : (s.answer r).draws = s.draws := rfl

@[simp] theorem State.resetCtx_cfg (s : State) (c : Nat) : (s.resetCtx c).cfg = s.cfg := rfl
@[simp] theorem State.resetCtx_ctxs (s : State) (c : Nat) : (s.resetCtx c).ctxs = s.ctxs.set c (Ctx.afterReset s.draws) := rfl
@[simp] theorem State.resetCtx_conn (s : State) (c : Nat) : (s.resetCtx c).conn = s.conn := rfl
@[simp] theorem State.resetCtx_events (s : State) (c : Nat) : (s.resetCtx c).events = s.events := rfl
@[simp] theorem State.resetCtx_sink (s : State) (c : Nat) : (s.resetCtx c).sink = s.sink := rfl
@[simp] theorem State.resetCtx_released (s : State) (c : Nat) : (s.resetCtx c).released = s.released := rfl
@[simp] theorem State.resetCtx_adapterLog (s : State) (c : Nat) : (s.resetCtx c).adapterLog = s.adapterLog := rfl
@[simp] theorem State.resetCtx_result (s : State) (c : Nat) : (s.resetCtx c).result = s.result := rfl
@[simp] theorem State.resetCtx_pending (s : State) (c : Nat) : (s.resetCtx c).pending = s.pending := rfl
@[simp] theorem State.resetCtx_feeds (s : State) (c : Nat) : (s.resetCtx c).feeds = s.feeds := rfl
@[simp] theorem State.resetCtx_turns (s : State) (c : Nat) : (s.resetCtx c).turns = s.turns := rfl
@[simp] theorem State.resetCtx_draws (s : State) (c : Nat) : (s.resetCtx c).draws = s.draws + 3 := rfl

@[simp] theorem State.resetBlock_cfg (s : State) : (s.resetBlock).cfg = s.cfg := rfl
@[simp] theorem State.resetBlock_ctxs (s : State) : (s.resetBlock).ctxs = resetCtxs s.draws s.ctxs := rfl
@[simp] theorem State.resetBlock_conn (s : State) : (s.resetBlock).conn = Conn.clear := rfl
@[simp] theorem State.resetBlock_events (s : State) : (s.resetBlock).events = s.events := rfl
@[simp] theorem State.resetBlock_sink (s : State) : (s.resetBlock).sink = s.sink := rfl
@[simp] theorem State.resetBlock_released (s : State) : (s.resetBlock).released = s.released := rfl
@[simp] theorem State.resetBlock_adapterLog (s : State) : (s.resetBlock).adapterLog = s.adapterLog := rfl
@[simp] theorem State.resetBlock_result (s : State) : (s.resetBlock).result = s.result := rfl
@[simp] theorem State.resetBlock_pending (s : State) : (s.resetBlock).pending = s.pending := rfl
@[simp] theorem State.resetBlock_feeds (s : State) : (s.resetBlock).feeds = s.feeds := rfl
@[simp] theorem State.resetBlock_turns (s : State) : (s.resetBlock).turns = s.turns := rfl
@[simp] theorem State.resetBlock_draws (s : State) : (s.resetBlock).draws = s.draws + 3 * s.ctxs.length := rfl

@[simp] theorem State.raiseFatal_cfg (s : State) (who : Option Nat) (cause : Cause) :
    (s.raiseFatal who cause).cfg = s.cfg := by cases who <;> rfl
@[simp] theorem State.raiseFatal_sink (s : State) (who : Option Nat) (cause : Cause) :
    (s.raiseFatal who cause).sink = s.sink := by cases who <;> rfl
@[simp] theorem State.raiseFatal_released (s : State) (who : Option Nat) (cause : Cause) :
    (s.raiseFatal who cause).released = s.released := by cases who <;> rfl
@[simp] theorem State.raiseFatal_adapterLog (s : State) (who : Option Nat) (cause : Cause) :
    (s.raiseFatal who cause).adapterLog = s.adapterLog := by cases who <;> rfl
@[simp] theorem State.raiseFatal_result (s : State) (who : Option Nat) (cause : Cause) :
    (s.raiseFatal who cause).result = s.result := by cases who <;> rfl
@[simp] theorem State.raiseFatal_pending (s : State) (who : Option Nat) (cause : Cause) :
    (s.raiseFatal who cause).pending = s.pending := by cases who <;> rfl
@[simp] theorem State.raiseFatal_feeds (s : State) (who : Option Nat) (cause : Cause) :
    (s.raiseFatal who cause).feeds = s.feeds := by cases who <;> rfl
@[simp] theorem State.raiseFatal_turns (s : State) (who : Option Nat) (cause : Cause) :
    (s.raiseFatal who cause).turns = s.turns := by cases who <;> rfl
@[simp] theorem State.raiseFatal_draws (s : State) (who : Option Nat) (cause : Cause) :
    (s.raiseFatal who cause).draws = s.draws := by cases who <;> rfl

/-- The fatal entry latches CONN, whoever raised (R250). -/
@[simp] theorem State.raiseFatal_conn (s : State) (who : Option Nat) (cause : Cause) :
    (s.raiseFatal who cause).conn = s.conn.latch cause (codeOf s.cfg cause) := by cases who <;> rfl

@[simp] theorem State.raiseFatal_none_ctxs (s : State) (cause : Cause) :
    (s.raiseFatal none cause).ctxs = s.ctxs := rfl

@[simp] theorem State.raiseFatal_none_events (s : State) (cause : Cause) :
    (s.raiseFatal none cause).events = s.events := rfl

@[simp] theorem State.raiseFatal_some_ctxs (s : State) (c : Nat) (cause : Cause) :
    (s.raiseFatal (some c) cause).ctxs = s.ctxs.set c ((s.ctx c).stop cause (codeOf s.cfg cause)) := rfl

@[simp] theorem State.raiseFatal_some_events (s : State) (c : Nat) (cause : Cause) :
    (s.raiseFatal (some c) cause).events = s.events ++ [(c, .fatal cause (codeOf s.cfg cause))] := rfl

@[simp] theorem Ctx.stop_state (d : Ctx) (cause : Cause) (code : U62) : (d.stop cause code).state = .fatal := rfl
@[simp] theorem Ctx.stop_viRem (d : Ctx) (cause : Cause) (code : U62) : (d.stop cause code).viRem = d.viRem := rfl
@[simp] theorem Ctx.stop_viAcc (d : Ctx) (cause : Cause) (code : U62) : (d.stop cause code).viAcc = d.viAcc := rfl
@[simp] theorem Ctx.stop_ftype (d : Ctx) (cause : Cause) (code : U62) : (d.stop cause code).ftype = d.ftype := rfl
@[simp] theorem Ctx.stop_flen (d : Ctx) (cause : Cause) (code : U62) : (d.stop cause code).flen = d.flen := rfl
@[simp] theorem Ctx.stop_prem (d : Ctx) (cause : Cause) (code : U62) : (d.stop cause code).prem = d.prem := rfl
@[simp] theorem Ctx.stop_pcnt (d : Ctx) (cause : Cause) (code : U62) : (d.stop cause code).pcnt = d.pcnt := rfl
@[simp] theorem Ctx.stop_pbuf (d : Ctx) (cause : Cause) (code : U62) : (d.stop cause code).pbuf = d.pbuf := rfl
@[simp] theorem Ctx.stop_errCause (d : Ctx) (cause : Cause) (code : U62) : (d.stop cause code).errCause = some cause := rfl
@[simp] theorem Ctx.stop_errCode (d : Ctx) (cause : Cause) (code : U62) : (d.stop cause code).errCode = code := rfl

@[simp] theorem Ctx.atReset_state (a t n : U62) : (Ctx.atReset a t n).state = .awaitingType := rfl
@[simp] theorem Ctx.atReset_viRem (a t n : U62) : (Ctx.atReset a t n).viRem = 0 := rfl
@[simp] theorem Ctx.atReset_viAcc (a t n : U62) : (Ctx.atReset a t n).viAcc = a := rfl
@[simp] theorem Ctx.atReset_ftype (a t n : U62) : (Ctx.atReset a t n).ftype = t := rfl
@[simp] theorem Ctx.atReset_flen (a t n : U62) : (Ctx.atReset a t n).flen = n := rfl
@[simp] theorem Ctx.atReset_prem (a t n : U62) : (Ctx.atReset a t n).prem = 0 := rfl
@[simp] theorem Ctx.atReset_pcnt (a t n : U62) : (Ctx.atReset a t n).pcnt = 0 := rfl
@[simp] theorem Ctx.atReset_pbuf (a t n : U62) : (Ctx.atReset a t n).pbuf = [] := rfl
@[simp] theorem Ctx.atReset_errCause (a t n : U62) : (Ctx.atReset a t n).errCause = none := rfl
@[simp] theorem Ctx.atReset_errCode (a t n : U62) : (Ctx.atReset a t n).errCode = 0 := rfl

/-- Two states that agree on every field are the same state. -/
theorem State.ext_fields {s t : State} (h0 : s.cfg = t.cfg) (h1 : s.ctxs = t.ctxs) (h2 : s.conn = t.conn)
    (h3 : s.events = t.events) (h4 : s.sink = t.sink) (h5 : s.released = t.released)
    (h6 : s.adapterLog = t.adapterLog) (h7 : s.result = t.result) (h8 : s.pending = t.pending)
    (h9 : s.feeds = t.feeds) (h10 : s.turns = t.turns) (h11 : s.draws = t.draws) : s = t := by
  cases s; cases t; simp_all

/-- Reading a context just written. -/
theorem State.ctx_setCtx_self (s : State) (c : Nat) (d : Ctx) (h : c < s.ctxs.length) :
    (s.setCtx c d).ctx c = d := by
  simp [State.ctx, List.getD_eq_getElem?_getD, h]

/-- Writing a context leaves the others as they were. -/
theorem State.ctx_setCtx_other (s : State) (c c' : Nat) (d : Ctx) (h : c ≠ c') :
    (s.setCtx c d).ctx c' = s.ctx c' := by
  simp [State.ctx, List.getD_eq_getElem?_getD, List.getElem?_set_ne h]

/-- A context depends on the context bank alone. -/
theorem State.ctx_congr {s t : State} (h : s.ctxs = t.ctxs) (c : Nat) : s.ctx c = t.ctx c := by
  simp [State.ctx, h]

@[simp] theorem Conn.latch_pending (conn : Conn) (cause : Cause) (code : U62) :
    (conn.latch cause code).closePending = true := by
  unfold Conn.latch; split <;> simp_all

/-- First fatal wins: a marked record is left as it is (R24). -/
theorem Conn.latch_of_pending (conn : Conn) (cause : Cause) (code : U62) (h : conn.closePending = true) :
    conn.latch cause code = conn := by simp [Conn.latch, h]

end Sys2Proof.Machine
end

