-- ==== Sys2Proof/Laws/Ops.lean ====
section
/-! SUPPORT. What the shared operations can do: the VarInt step, an arm's effect, the byte step and a feed. -/

namespace Sys2Proof.Machine

open Sys2Proof.Safety

/-! Writing a context twice, and in which order updates of different fields are made. -/

theorem State.setCtx_setCtx (s : State) (c : Nat) (d d' : Ctx) : (s.setCtx c d).setCtx c d' = s.setCtx c d' := by
  simp [State.setCtx, List.set_set]

@[simp] theorem State.setCtx_ctx (s : State) (c : Nat) : s.setCtx c (s.ctx c) = s := by
  have : s.ctxs.set c (s.ctx c) = s.ctxs := by
    apply List.ext_getElem? ; intro i
    by_cases h : c = i
    · subst h
      by_cases hc : c < s.ctxs.length
      · simp [State.ctx, List.getD_eq_getElem?_getD, hc]
      · simp [List.getElem?_eq_none (Nat.le_of_not_lt hc)]; omega
    · simp [List.getElem?_set_ne h]
  simp [State.setCtx, this]

@[simp] theorem State.hasCtx_setCtx (s : State) (c c' : Nat) (d : Ctx) :
    (s.setCtx c d).hasCtx c' = s.hasCtx c' := by simp [State.hasCtx]

theorem State.hasCtx_iff (s : State) (c : Nat) : s.hasCtx c = true ↔ c < s.ctxs.length := by simp [State.hasCtx]

@[simp] theorem State.emit_nil (s : State) (c : Nat) : s.emit c [] = s := by simp [State.emit]

@[simp] theorem State.logCalls_nil (s : State) : s.logCalls [] = s := by simp [State.logCalls]

/-! The VarInt step. -/

/-- `vi_step` in the terms of R127: the byte is taken, and the value is done when none is missing. -/
theorem viStep_eq (d : Ctx) (b : Byte) :
    viStep d b = (tookByte d b, if missing d b = 0 then some (gathered d b) else none) := by
  have hb := b.isLt
  have htag := widthOfFirst_bytes b
  have h4 : b.toNat / 64 = 0 ∨ b.toNat / 64 = 1 ∨ b.toNat / 64 = 2 ∨ b.toNat / 64 = 3 := by omega
  by_cases h : d.viRem = 0
  · have hacc : (b.setWidth 6).setWidth 62 = gathered d b := by
      apply BitVec.eq_of_toNat_eq
      simp [gathered, h]
    have hrem : BitVec.ofNat 3 ((widthOfFirst b).bytes - 1) = BitVec.ofNat 3 (missing d b) := by
      simp [missing, h, htag]
    have hz : BitVec.ofNat 3 (missing d b) = 0 ↔ missing d b = 0 := by
      simp only [missing, h, if_true]
      rcases h4 with h4 | h4 | h4 | h4 <;> rw [h4] <;> decide
    simp only [viStep, h, if_true, tookByte, hacc, hrem, hz]
  · have hpos : 0 < d.viRem.toNat := by
      rcases Nat.eq_zero_or_pos d.viRem.toNat with h0 | h0
      · exact absurd (BitVec.eq_of_toNat_eq (by simpa using h0)) h
      · exact h0
    have hlt := d.viRem.isLt
    have hacc : d.viAcc * 256 + b.setWidth 62 = gathered d b := by
      apply BitVec.eq_of_toNat_eq
      rw [gathered, if_neg h]
      simp [BitVec.toNat_add, BitVec.toNat_mul]
    have hrem : d.viRem - 1 = BitVec.ofNat 3 (missing d b) := by
      apply BitVec.eq_of_toNat_eq
      have h1 : (1 : BitVec 3).toNat = 1 := rfl
      simp only [missing, h, if_false, BitVec.toNat_sub, BitVec.toNat_ofNat, h1]
      omega
    have hz : BitVec.ofNat 3 (missing d b) = 0 ↔ missing d b = 0 := by
      simp only [missing, h, if_false]
      constructor
      · intro he
        have := congrArg BitVec.toNat he
        have h0 : (0 : BitVec 3).toNat = 0 := rfl
        simp only [BitVec.toNat_ofNat, h0] at this
        omega
      · intro he; rw [he]; rfl
    simp only [viStep, h, if_false, tookByte, hacc, hrem, hz]

/-! An arm's effect. -/

@[simp] theorem State.applyArm_quiet (s : State) (c : Nat) (d : Ctx) :
    s.applyArm c (.quiet d) = s.setCtx c d := by simp [State.applyArm, Arm.quiet]

@[simp] theorem State.applyArm_emits (s : State) (c : Nat) (d : Ctx) (ev : List Event) :
    s.applyArm c (.emits d ev) = (s.setCtx c d).emit c ev := by simp [State.applyArm, Arm.emits]

/-- Only the arm's own registers of context `c` matter. -/
@[simp] theorem State.applyArm_setCtx (s : State) (c : Nat) (d : Ctx) (r : Arm) :
    (s.setCtx c d).applyArm c r = s.applyArm c r := by
  simp [State.applyArm, State.setCtx_setCtx]

@[simp] theorem State.applyArm_cfg (s : State) (c : Nat) (r : Arm) : (s.applyArm c r).cfg = s.cfg := by
  unfold State.applyArm; cases r.raised <;> simp

@[simp] theorem State.applyArm_sink (s : State) (c : Nat) (r : Arm) : (s.applyArm c r).sink = s.sink := by
  unfold State.applyArm; cases r.raised <;> simp

@[simp] theorem State.applyArm_released (s : State) (c : Nat) (r : Arm) :
    (s.applyArm c r).released = s.released := by
  unfold State.applyArm; cases r.raised <;> simp

@[simp] theorem State.applyArm_pending (s : State) (c : Nat) (r : Arm) : (s.applyArm c r).pending = s.pending := by
  unfold State.applyArm; cases r.raised <;> simp

@[simp] theorem State.applyArm_feeds (s : State) (c : Nat) (r : Arm) : (s.applyArm c r).feeds = s.feeds := by
  unfold State.applyArm; cases r.raised <;> simp

@[simp] theorem State.applyArm_turns (s : State) (c : Nat) (r : Arm) : (s.applyArm c r).turns = s.turns := by
  unfold State.applyArm; cases r.raised <;> simp

@[simp] theorem State.applyArm_draws (s : State) (c : Nat) (r : Arm) : (s.applyArm c r).draws = s.draws := by
  unfold State.applyArm; cases r.raised <;> simp

@[simp] theorem State.applyArm_result (s : State) (c : Nat) (r : Arm) : (s.applyArm c r).result = s.result := by
  unfold State.applyArm; cases r.raised <;> simp

@[simp] theorem State.applyArm_adapterLog (s : State) (c : Nat) (r : Arm) :
    (s.applyArm c r).adapterLog = s.adapterLog ++ r.calls := by
  unfold State.applyArm; cases r.raised <;> simp

/-- An arm appends its own events and, if it raised, one `Fatal` (R251). -/
@[simp] theorem State.applyArm_events (s : State) (c : Nat) (r : Arm) :
    (s.applyArm c r).events = s.events ++ (armEvents s.cfg r).map (fun e => (c, e)) := by
  unfold State.applyArm armEvents; cases r.raised <;> simp

/-- CONN changes only by a raise (R24). -/
@[simp] theorem State.applyArm_conn (s : State) (c : Nat) (r : Arm) :
    (s.applyArm c r).conn = match r.raised with
      | none => s.conn
      | some cause => s.conn.latch cause (codeOf s.cfg cause) := by
  unfold State.applyArm; cases r.raised <;> simp

/-- The registers an arm leaves in its own context: its own, or those stopped by the fatal entry. -/
def armCtx (k : Config) (r : Arm) : Ctx :=
  match r.raised with
  | none => r.ctx
  | some cause => r.ctx.stop cause (codeOf k cause)

theorem State.applyArm_ctxs (s : State) (c : Nat) (r : Arm) (h : s.hasCtx c = true) :
    (s.applyArm c r).ctxs = s.ctxs.set c (armCtx s.cfg r) := by
  have hc := (s.hasCtx_iff c).mp h
  unfold State.applyArm armCtx
  cases r.raised with
  | none => simp
  | some cause =>
    have h1 : (((s.setCtx c r.ctx).emit c r.events).logCalls r.calls).ctx c = r.ctx :=
      State.ctx_setCtx_self s c r.ctx hc
    simp [h1, List.set_set]

@[simp] theorem State.applyArm_ctxs_length (s : State) (c : Nat) (r : Arm) :
    (s.applyArm c r).ctxs.length = s.ctxs.length := by
  unfold State.applyArm; cases r.raised <;> simp

@[simp] theorem State.applyArm_hasCtx (s : State) (c c' : Nat) (r : Arm) :
    (s.applyArm c r).hasCtx c' = s.hasCtx c' := by simp [State.hasCtx]

theorem State.applyArm_ctx_self (s : State) (c : Nat) (r : Arm) (h : s.hasCtx c = true) :
    (s.applyArm c r).ctx c = armCtx s.cfg r := by
  have hc := (s.hasCtx_iff c).mp h
  rw [State.ctx, State.applyArm_ctxs s c r h]
  simp [List.getD_eq_getElem?_getD, hc]

theorem State.applyArm_ctx_other (s : State) (c c' : Nat) (r : Arm) (h : c ≠ c') :
    (s.applyArm c r).ctx c' = s.ctx c' := by
  unfold State.applyArm
  cases r.raised <;> simp [State.ctx, List.getD_eq_getElem?_getD, List.getElem?_set_ne h]

/-! The byte step and a feed. -/

/-- A byte step that faults leaves nothing; one that goes on applies one arm. -/
theorem State.byteStep_ok {s s' : State} {c : Nat} {b : Byte} {ev : List Event}
    (h : s.byteStep c b = .ok (s', ev)) :
    ∃ r, ctxByte s.cfg Config.adapter.decompress (s.ctx c) b = .ok r ∧ s' = s.applyArm c r ∧
      ev = armEvents s.cfg r := by
  unfold State.byteStep at h
  split at h
  · cases h
  · rename_i r hr
    cases h
    exact ⟨r, hr, rfl, rfl⟩

theorem State.byteStep_of_arm {s : State} {c : Nat} {b : Byte} {r : Arm}
    (h : ctxByte s.cfg Config.adapter.decompress (s.ctx c) b = .ok r) :
    s.byteStep c b = .ok (s.applyArm c r, armEvents s.cfg r) := by simp [State.byteStep, h]

@[simp] theorem State.feed_nil (s : State) (c : Nat) : s.feed c [] = .ok (s, []) := rfl

/-- One byte of a feed, then the rest of it. -/
theorem State.feed_cons_of_ok {s s1 : State} {c : Nat} {b : Byte} {bs : List Byte} {e1 : List Event}
    (h : s.byteStep c b = .ok (s1, e1)) :
    s.feed c (b :: bs) = match s1.feed c bs with
      | .error f => .error f
      | .ok (s2, e2) => .ok (s2, e1 ++ e2) := by simp only [State.feed, h] <;> rfl

/-- A feed of a concatenation is the two feeds, one after the other. -/
theorem State.feed_append (s : State) (c : Nat) (xs ys : List Byte) :
    s.feed c (xs ++ ys) = match s.feed c xs with
      | .error f => .error f
      | .ok (s1, e1) =>
        match s1.feed c ys with
        | .error f => .error f
        | .ok (s2, e2) => .ok (s2, e1 ++ e2) := by
  induction xs generalizing s with
  | nil => simp only [List.nil_append, State.feed_nil]; cases s.feed c ys <;> simp
  | cons x xs ih =>
    simp only [List.cons_append, State.feed]
    cases s.byteStep c x with
    | error f => rfl
    | ok p =>
      obtain ⟨s1, e1⟩ := p
      simp only [ih]
      cases s1.feed c xs with
      | error f => rfl
      | ok q =>
        obtain ⟨s2, e2⟩ := q
        simp only
        cases s2.feed c ys <;> simp

theorem State.feed_append_of_ok {s s1 : State} {c : Nat} {xs ys : List Byte} {e1 : List Event}
    (h : s.feed c xs = .ok (s1, e1)) :
    s.feed c (xs ++ ys) = match s1.feed c ys with
      | .error f => .error f
      | .ok (s2, e2) => .ok (s2, e1 ++ e2) := by simp [State.feed_append, h]

/-- An invariant of every byte step holds after a feed. -/
theorem State.feed_induction {P : State → Prop} {c : Nat}
    (hstep : ∀ s s' b ev, P s → s.byteStep c b = .ok (s', ev) → P s') :
    ∀ bs s s' ev, P s → s.feed c bs = .ok (s', ev) → P s' := by
  intro bs
  induction bs with
  | nil => intro s s' ev hp h; cases h; exact hp
  | cons b bs ih =>
    intro s s' ev hp h
    simp only [State.feed] at h
    split at h
    · cases h
    · rename_i s1 e1 h1
      split at h
      · cases h
      · rename_i s2 e2 h2
        cases h
        exact ih s1 _ _ (hstep s s1 b e1 hp h1) h2

/-- A feed changes neither the configuration nor what the encoder and the host own, and appends its events. -/
theorem State.feed_frame {s s' : State} {c : Nat} {bs : List Byte} {ev : List Event}
    (h : s.feed c bs = .ok (s', ev)) :
    s'.cfg = s.cfg ∧ s'.sink = s.sink ∧ s'.released = s.released ∧ s'.pending = s.pending ∧ s'.draws = s.draws ∧
      s'.result = s.result ∧ s'.ctxs.length = s.ctxs.length ∧ s'.events = s.events ++ ev.map (fun e => (c, e)) ∧
      (∃ calls, s'.adapterLog = s.adapterLog ++ calls) ∧ ∀ c', c ≠ c' → s'.ctx c' = s.ctx c' := by
  induction bs generalizing s s' ev with
  | nil => cases h; simp
  | cons b bs ih =>
    simp only [State.feed] at h
    split at h
    · cases h
    · rename_i s1 e1 h1
      split at h
      · cases h
      · rename_i s2 e2 h2
        cases h
        obtain ⟨r, -, rfl, rfl⟩ := State.byteStep_ok h1
        obtain ⟨a1, a2, a3, a4, a5, a6, a7, a8, ⟨calls, a9⟩, a10⟩ := ih h2
        refine ⟨by simp [a1], by simp [a2], by simp [a3], by simp [a4], by simp [a5], by simp [a6], by simp [a7],
          by simp [a8], ⟨r.calls ++ calls, by simp [a9]⟩, fun c' hc => ?_⟩
        rw [a10 c' hc, State.applyArm_ctx_other _ _ _ _ hc]

/-- What `present` answers on an existing context. -/
theorem State.present_of_feed {s s' : State} {c : Nat} {bs : List Byte} {ev : List Event} (hc : s.hasCtx c = true)
    (h : s.feed c bs = .ok (s', ev)) :
    s.present c bs = .next (s'.answer (.decoded ev (s'.ctx c).status)) := by simp [State.present, hc, h]

/-- A wire-level term whose fields are encodable is its bytes presented. -/
theorem State.presentWire_eq {s : State} {i : Instr} {c : Nat} {bs : List Byte}
    (he : encode s.cfg i = .frame c bs ∨ encode s.cfg i = .varint c bs) (hw : i.encodable s.cfg = true) :
    s.presentWire i = s.present c bs := by
  rcases he with he | he <;> simp [State.presentWire, he, hw]

/-! A VarInt taken whole. -/

/-- The dispatch of a context that takes a VarInt: wait, or do `fin` with the value. -/
def viArm (fin : Ctx → U62 → Except Fault Arm) (d : Ctx) (b : Byte) : Except Fault Arm :=
  match viStep d b with
  | (d', none) => .ok (.quiet d')
  | (d', some v) => fin d' v

/-- A byte step's state from its arm. -/
def armState (s : State) (c : Nat) : Except Fault Arm → Except Fault (State × List Event)
  | .error f => .error f
  | .ok r => .ok (s.applyArm c r, armEvents s.cfg r)

theorem State.byteStep_eq_armState (s : State) (c : Nat) (b : Byte) :
    s.byteStep c b = armState s c (ctxByte s.cfg Config.adapter.decompress (s.ctx c) b) := by
  unfold State.byteStep armState; split <;> simp_all

theorem ctxByte_awaitingType (k : Config) (dec : List Byte → Option FieldList) (d : Ctx) (b : Byte)
    (h : d.state = .awaitingType) :
    ctxByte k dec d b = viArm (fun d' t => .ok (armTypeDone k d' t)) d b := by
  simp only [ctxByte, h, viArm] <;> rfl

theorem ctxByte_awaitingLength (k : Config) (dec : List Byte → Option FieldList) (d : Ctx) (b : Byte)
    (h : d.state = .awaitingLength) :
    ctxByte k dec d b = viArm (fun d' n =>
      if kindOf k d'.ftype.toNat = .data then .ok (armLengthData d' n) else armLengthAtomic k dec d' n) d b := by
  simp only [ctxByte, h, viArm] <;> rfl

/-- The later bytes of a VarInt: all but the last wait, the last does `fin` with the accumulated value (R127, R130). -/
theorem State.feed_vi_rest {c : Nat} {st : DecState} {k : Config} {fin : Ctx → U62 → Except Fault Arm}
    (hfin : ∀ d b, d.state = st → ctxByte k Config.adapter.decompress d b = viArm fin d b) :
    ∀ (rest : List Byte) (s : State), s.cfg = k → s.hasCtx c = true → (s.ctx c).state = st →
      rest ≠ [] → (s.ctx c).viRem.toNat = rest.length →
      s.feed c rest = armState s c (fin { s.ctx c with
          viRem := 0, viAcc := BitVec.ofNat 62 (beAccumulate (s.ctx c).viAcc.toNat rest) }
        (BitVec.ofNat 62 (beAccumulate (s.ctx c).viAcc.toNat rest))) := by
  intro rest
  induction rest with
  | nil => intro s _ _ _ h; exact absurd rfl h
  | cons b rest ih =>
    intro s hk hc hst _ hrem
    have hne : (s.ctx c).viRem ≠ 0 := by
      intro h0; rw [h0] at hrem; simp at hrem
    have hmiss : missing (s.ctx c) b = rest.length := by
      simp only [missing, hne, if_false, hrem, List.length_cons, Nat.add_sub_cancel]
    have hgat : gathered (s.ctx c) b = BitVec.ofNat 62 ((s.ctx c).viAcc.toNat * 256 + b.toNat) := by
      rw [gathered, if_neg hne]
    have hlen : rest.length < 8 := by
      have := (s.ctx c).viRem.isLt; rw [hrem] at this; simp only [List.length_cons] at this; omega
    cases rest with
    | nil =>
      simp only [State.feed, State.byteStep_eq_armState, hk, hfin _ _ hst, viArm, viStep_eq, hmiss, List.length_nil,
        if_true, beAccumulate]
      rw [hgat]
      simp only [tookByte, hmiss, hgat, List.length_nil]
      simp only [armState]
      cases fin { s.ctx c with viRem := BitVec.ofNat 3 0, viAcc := _ } _ <;> simp [*]
    | cons b' rest' =>
      have hstep : s.byteStep c b = .ok (s.setCtx c (tookByte (s.ctx c) b), []) := by
        rw [State.byteStep_eq_armState, hk, hfin _ _ hst, viArm, viStep_eq, hmiss]
        simp [armState, armEvents, Arm.quiet, State.applyArm]
      rw [State.feed_cons_of_ok hstep]
      have hself := State.ctx_setCtx_self s c (tookByte (s.ctx c) b) ((s.hasCtx_iff c).mp hc)
      rw [ih (s.setCtx c (tookByte (s.ctx c) b)) (by simpa using hk) (by simpa using hc)
        (by rw [hself]; exact hst) (by simp)
        (by rw [hself]; simp only [tookByte, hmiss, BitVec.toNat_ofNat]; exact Nat.mod_eq_of_lt (by simpa using hlen))]
      rw [hself]
      have hacc : BitVec.ofNat 62 (beAccumulate (tookByte (s.ctx c) b).viAcc.toNat (b' :: rest'))
          = BitVec.ofNat 62 (beAccumulate (s.ctx c).viAcc.toNat (b :: b' :: rest')) := by
        apply BitVec.eq_of_toNat_eq
        rw [beAccumulate.eq_2 _ b, beAccumulate_eq, beAccumulate_eq ((s.ctx c).viAcc.toNat * 256 + b.toNat)]
        simp only [tookByte, hgat, BitVec.toNat_ofNat]
        rw [Nat.add_mod, Nat.mul_mod, Nat.mod_mod, ← Nat.mul_mod, ← Nat.add_mod]
      rw [hacc]
      simp only [tookByte, armState]
      cases fin _ _ <;> simp
  
/-! No byte step reads the result of the operation before it. -/

theorem State.byteStep_answer (s : State) (c : Nat) (b : Byte) (r : Result) :
    (s.answer r).byteStep c b = match s.byteStep c b with
      | .error f => .error f
      | .ok (s1, e) => .ok (s1.answer r, e) := by
  unfold State.byteStep
  change (match ctxByte s.cfg _ (s.ctx c) b with | .error f => _ | .ok r' => _) = _
  cases ctxByte s.cfg Config.adapter.decompress (s.ctx c) b with
  | error f => rfl
  | ok r' =>
    simp only
    congr 2
    unfold State.applyArm
    cases r'.raised <;> rfl

theorem State.feed_answer (c : Nat) (r : Result) : ∀ (bs : List Byte) (s : State),
    (s.answer r).feed c bs = match s.feed c bs with
      | .error f => .error f
      | .ok (s1, e) => .ok (s1.answer r, e) := by
  intro bs
  induction bs with
  | nil => intro s; rfl
  | cons b bs ih =>
    intro s
    simp only [State.feed, State.byteStep_answer]
    cases s.byteStep c b with
    | error f => rfl
    | ok q =>
      simp only [ih]
      cases q.1.feed c bs <;> rfl

end Sys2Proof.Machine
end

