-- ==== Sys2Proof/Laws/Arms.lean ====
section
/-! SUPPORT. What a byte step or a feed that ends in one arm answers, in the terms of `Sys2Proof.Safety`. -/

namespace Sys2Proof.Machine

open Sys2Proof.Safety

/-- An arm that raises nothing and leaves its context running, answered to the host. -/
theorem State.answer_quietArm {s : State} {c : Nat} {r : Arm} (hc : s.hasCtx c = true) (hr : r.raised = none)
    (hs : r.ctx.state ≠ .fatal) :
    (s.applyArm c r).answer (.decoded (armEvents s.cfg r) ((s.applyArm c r).ctx c).status) =
      decoded s c r.ctx r.events r.calls := by
  rw [State.applyArm_ctx_self s c r hc]
  have hev : armEvents s.cfg r = r.events := by simp only [armEvents, hr]
  have hctx : armCtx s.cfg r = r.ctx := by simp only [armCtx, hr]
  have hst : r.ctx.status = .needMore := by simp only [Ctx.status, hs, if_false]
  apply State.ext_fields <;>
    simp [decoded, State.applyArm_ctxs s c r hc, hctx, hev, hst, hr]

/-- An arm that raises: the fatal entry, answered to the host (R250). -/
theorem State.answer_raisingArm {s : State} {c : Nat} {r : Arm} {cause : Cause} (hc : s.hasCtx c = true)
    (hr : r.raised = some cause) (hev : r.events = []) :
    (s.applyArm c r).answer (.decoded (armEvents s.cfg r) ((s.applyArm c r).ctx c).status) =
      stopped s c r.ctx cause r.calls := by
  rw [State.applyArm_ctx_self s c r hc]
  have he : armEvents s.cfg r = [.fatal cause (codeOf s.cfg cause)] := by simp only [armEvents, hr, hev, List.nil_append]
  have hctx : armCtx s.cfg r = r.ctx.stop cause (codeOf s.cfg cause) := by simp only [armCtx, hr]
  apply State.ext_fields <;>
    simp [stopped, State.applyArm_ctxs s c r hc, hctx, he, hr, Ctx.stop, Ctx.status]
  rfl

/-- `DEC_BYTE` from its arm. -/
theorem execDecByte_of_arm {s : State} {c : Nat} {b : Byte} {r : Arm} (hc : s.hasCtx c = true)
    (h : ctxByte s.cfg Config.adapter.decompress (s.ctx c) b = .ok r) :
    execDecByte c b s =
      .next ((s.applyArm c r).answer (.decoded (armEvents s.cfg r) ((s.applyArm c r).ctx c).status)) := by
  simp only [execDecByte, hc, if_true, State.byteStep_of_arm h]

/-- A feed that comes to one arm, presented. -/
theorem State.present_of_arm {s : State} {c : Nat} {bs : List Byte} {r : Arm} (hc : s.hasCtx c = true)
    (h : s.feed c bs = armState s c (.ok r)) :
    s.present c bs =
      .next ((s.applyArm c r).answer (.decoded (armEvents s.cfg r) ((s.applyArm c r).ctx c).status)) := by
  rw [armState] at h
  exact State.present_of_feed hc h

/-- Every arm of the byte step on a running context, by state (R142). -/
theorem ctxByte_fatal {k : Config} {dec : List Byte → Option FieldList} {d : Ctx} {b : Byte} (h : d.state = .fatal) :
    ctxByte k dec d b = .ok (.quiet d) := by simp only [ctxByte, h]

theorem ctxByte_type {k : Config} {dec : List Byte → Option FieldList} {d : Ctx} {b : Byte}
    (h : d.state = .awaitingType) :
    ctxByte k dec d b = .ok (if missing d b = 0 then armTypeDone k (tookByte d b) (gathered d b)
      else .quiet (tookByte d b)) := by
  simp only [ctxByte, h, viStep_eq]
  split
  · rename_i heq; split at heq <;> simp_all
  · rename_i heq; split at heq <;> simp_all

theorem ctxByte_length {k : Config} {dec : List Byte → Option FieldList} {d : Ctx} {b : Byte}
    (h : d.state = .awaitingLength) :
    ctxByte k dec d b = if missing d b ≠ 0 then .ok (.quiet (tookByte d b))
      else if kindOf k d.ftype.toNat = .data then .ok (armLengthData (tookByte d b) (gathered d b))
      else armLengthAtomic k dec (tookByte d b) (gathered d b) := by
  simp only [ctxByte, h, viStep_eq]
  split
  · rename_i heq; split at heq <;> simp_all
  · rename_i heq; split at heq
    · simp only [Prod.mk.injEq, Option.some.injEq] at heq
      obtain ⟨rfl, rfl⟩ := heq
      simp_all [tookByte]
    · simp_all

theorem ctxByte_payload {k : Config} {dec : List Byte → Option FieldList} {d : Ctx} {b : Byte}
    (h : d.state = .awaitingPayload) :
    ctxByte k dec d b = if kindOf k d.ftype.toNat = .data then .ok (armPayloadData d b)
      else armPayloadAtomic k dec d b := by simp only [ctxByte, h]

/-- `complete_atomic` when the payload is within the buffer (R150). -/
theorem completeAtomic_eq {k : Config} {dec : List Byte → Option FieldList} {d : Ctx}
    (h : inBuffer k d.flen.toNat = true) :
    completeAtomic k dec d =
      match (parsePayload k dec d.ftype (d.pbuf.slice 0 d.flen.toNat)).outcome with
      | .ok f => .ok { ctx := { d with state := .awaitingType }, events := [.frame f],
                       calls := (parsePayload k dec d.ftype (d.pbuf.slice 0 d.flen.toNat)).calls, raised := none }
      | .err cause => .ok { ctx := d, events := [],
                            calls := (parsePayload k dec d.ftype (d.pbuf.slice 0 d.flen.toNat)).calls,
                            raised := some cause }
      | .noParser => .error (.noPayloadParser d.ftype) := by
  simp only [completeAtomic, Ctx.memRead, h, if_true] <;>
  cases (parsePayload k dec d.ftype (d.pbuf.slice 0 d.flen.toNat)).outcome <;> rfl

/-- Only Data and Reserved have no payload parser (R164). -/
theorem parsePayload_noParser {k : Config} {dec : List Byte → Option FieldList} {t : U62} {p : List Byte}
    (h : (parsePayload k dec t p).outcome = .noParser) :
    kindOf k t.toNat = .data ∨ kindOf k t.toNat = .reserved := by
  unfold parsePayload at h
  split at h <;> simp_all [parseField, parseSettings, parseBlock, parsePushPromise]
  all_goals split at h <;> simp_all
  all_goals split at h <;> simp_all

/-- The causes a payload raises (R243, R246). -/
theorem parsePayload_err {k : Config} {dec : List Byte → Option FieldList} {t : U62} {p : List Byte} {cause : Cause}
    (h : (parsePayload k dec t p).outcome = .err cause) : cause = .frameError ∨ cause = .adapterFailure := by
  unfold parsePayload at h
  split at h <;> simp_all [parseField, parseSettings, parseBlock, parsePushPromise]
  all_goals split at h <;> simp_all
  all_goals split at h <;> simp_all

/-! Everything the arm of a byte step can do (R52, R223, R251). -/

/-- An arm runs on and emits at most two events, of the shapes of R52, or raises and emits none. -/
def ArmShape (r : Arm) : Prop :=
  (r.raised = none ∧ r.ctx.state ≠ .fatal ∧
      (r.events = [] ∨ (∃ e, r.events = [e]) ∨ r.events = [.dataStart 0, .dataEnd] ∨
        ∃ x, r.events = [.dataByte x, .dataEnd])) ∨
    ∃ cause, r.raised = some cause ∧ r.events = [] ∧ cause ≠ .valueOutOfRange

/-- An arm calls `decompress` not at all, or once with a block that ends the payload it completes. -/
def CallShape (k : Config) (dec : List Byte → Option FieldList) (r : Arm) : Prop :=
  r.calls = [] ∨ ∃ first block, r.calls = [.decompress block (dec block)] ∧
    first ++ block = r.ctx.pbuf.slice 0 r.ctx.flen.toNat ∧
    ((kindOf k r.ctx.ftype.toNat = .headers ∧ first = []) ∨ kindOf k r.ctx.ftype.toNat = .pushPromise) ∧
    (r.ctx.state = .awaitingType ∨ r.raised ≠ none)

theorem parsePayload_calls (k : Config) (dec : List Byte → Option FieldList) (t : U62) (p : List Byte) :
    (parsePayload k dec t p).calls = [] ∨
      ∃ first block, (parsePayload k dec t p).calls = [.decompress block (dec block)] ∧ first ++ block = p ∧
        ((kindOf k t.toNat = .headers ∧ first = []) ∨ kindOf k t.toNat = .pushPromise) := by
  unfold parsePayload
  split <;> try (left; rfl)
  · right; exact ⟨[], p, rfl, rfl, .inl ⟨by assumption, rfl⟩⟩
  · unfold parsePushPromise
    split
    · left; rfl
    · right
      rename_i v w h
      exact ⟨p.take w.bytes, p.drop w.bytes, rfl, List.take_append_drop _ _, .inr (by assumption)⟩

theorem completeAtomic_shape {k : Config} {dec : List Byte → Option FieldList} {d : Ctx} {r : Arm}
    (h : completeAtomic k dec d = .ok r) : ArmShape r ∧ CallShape k dec r := by
  unfold completeAtomic at h
  split at h
  · cases h
  · rename_i p hp
    unfold Ctx.memRead at hp
    split at hp <;> cases hp
    simp only at h
    have hcalls := parsePayload_calls k dec d.ftype (d.pbuf.slice 0 d.flen.toNat)
    split at h
    · cases h
      refine ⟨.inl ⟨rfl, by simp, .inr (.inl ⟨_, rfl⟩)⟩, ?_⟩
      rcases hcalls with h | ⟨a, b, h1, h2, h3⟩
      · exact .inl h
      · exact .inr ⟨a, b, h1, h2, h3, .inl rfl⟩
    · rename_i cause ho
      cases h
      refine ⟨.inr ⟨_, rfl, rfl, ?_⟩, ?_⟩
      · rcases parsePayload_err ho with rfl | rfl <;> simp
      · rcases hcalls with h | ⟨a, b, h1, h2, h3⟩
        · exact .inl h
        · exact .inr ⟨a, b, h1, h2, h3, .inr (by simp)⟩
    · cases h

theorem ctxByte_shape {k : Config} {dec : List Byte → Option FieldList} {d : Ctx} {b : Byte} {r : Arm}
    (hd : d.state ≠ .fatal) (h : ctxByte k dec d b = .ok r) : ArmShape r ∧ CallShape k dec r := by
  cases hst : d.state with
  | fatal => exact absurd hst hd
  | awaitingType =>
    rw [ctxByte_type hst] at h
    cases h
    split
    · unfold armTypeDone
      split
      · exact ⟨.inr ⟨_, rfl, rfl, by simp⟩, .inl rfl⟩
      · exact ⟨.inl ⟨rfl, by simp [Arm.quiet], .inl rfl⟩, .inl rfl⟩
    · exact ⟨.inl ⟨rfl, by simp [Arm.quiet, tookByte, hst], .inl rfl⟩, .inl rfl⟩
  | awaitingLength =>
    rw [ctxByte_length hst] at h
    split at h
    · cases h
      exact ⟨.inl ⟨rfl, by simp [Arm.quiet, tookByte, hst], .inl rfl⟩, .inl rfl⟩
    · split at h
      · cases h
        unfold armLengthData
        simp only
        split
        · rename_i hz
          rw [hz]
          exact ⟨.inl ⟨rfl, by simp [Arm.emits], .inr (.inr (.inl rfl))⟩, .inl rfl⟩
        · exact ⟨.inl ⟨rfl, by simp [Arm.emits], .inr (.inl ⟨_, rfl⟩)⟩, .inl rfl⟩
      · unfold armLengthAtomic at h
        simp only at h
        split at h
        · split at h
          · exact completeAtomic_shape h
          · cases h
            exact ⟨.inl ⟨rfl, by simp [Arm.quiet], .inl rfl⟩, .inl rfl⟩
        · cases h
          exact ⟨.inr ⟨_, rfl, rfl, by simp⟩, .inl rfl⟩
  | awaitingPayload =>
    rw [ctxByte_payload hst] at h
    split at h
    · cases h
      unfold armPayloadData
      simp only
      split
      · exact ⟨.inl ⟨rfl, by simp [Arm.emits], .inr (.inr (.inr ⟨_, rfl⟩))⟩, .inl rfl⟩
      · exact ⟨.inl ⟨rfl, by simp [Arm.emits, hst], .inr (.inl ⟨_, rfl⟩)⟩, .inl rfl⟩
    · unfold armPayloadAtomic at h
      split at h
      · cases h
      · rename_i d1 hd1
        simp only at h
        have hs : d1.state = .awaitingPayload := by
          unfold Ctx.memWrite at hd1
          split at hd1 <;> cases hd1
          exact hst
        split at h
        · exact completeAtomic_shape h
        · cases h
          exact ⟨.inl ⟨rfl, by simp [Arm.quiet, hs], .inl rfl⟩, .inl rfl⟩

end Sys2Proof.Machine
end

