-- ==== Sys2Proof/Laws/Encoder.lean ====
section
/-! SUPPORT. What the common scheme of the encoder, its builders and `vi_enc` can answer (R120, R190 to R202). -/

namespace Sys2Proof.Machine

open Sys2Proof.Safety

theorem viEnc_of_lt {v : Nat} (h : v < 2 ^ 62) : viEnc v = some (viEncMin v) := by rw [viEnc, if_pos h]

theorem viEnc_of_le {v : Nat} (h : 2 ^ 62 ≤ v) : viEnc v = none := by rw [viEnc, if_neg (by omega)]

theorem Conn.latch_eq_marked (k : Config) (conn : Conn) (cause : Cause) :
    conn.latch cause (codeOf k cause) = marked k conn cause := rfl

/-- A request whose build fails (R190, R193). -/
theorem State.encodeFrame_error {s : State} {f : Frame 64} {b : Built} {cause : Cause}
    (h : b.outcome = .error cause) : s.encodeFrame f b = failed s f cause b.calls := by
  simp only [State.encodeFrame, h]
  rfl

/-- A request whose payload is too long (R191). -/
theorem State.encodeFrame_long {s : State} {f : Frame 64} {b : Built} {t : U62} {p : List Byte}
    (h : b.outcome = .ok (t, p)) (hp : 2 ^ 62 ≤ p.length) :
    s.encodeFrame f b = failed s f .valueOutOfRange b.calls := by
  simp only [State.encodeFrame, h, if_pos hp]
  rfl

/-- A request that is served (R190). -/
theorem State.encodeFrame_ok {s : State} {f : Frame 64} {b : Built} {t : U62} {p : List Byte}
    (h : b.outcome = .ok (t, p)) (hp : p.length < 2 ^ 62) :
    s.encodeFrame f b = wrote s f (viEncMin t.toNat ++ viEncMin p.length ++ p) b.calls := by
  simp only [State.encodeFrame, h, if_neg (Nat.not_le_of_lt hp)]
  rfl

/-- Everything a request can do. -/
theorem State.encodeFrame_cases (s : State) (f : Frame 64) (b : Built) :
    (∃ cause, s.encodeFrame f b = failed s f cause b.calls) ∨
      ∃ (t : U62) (p : List Byte), b.outcome = .ok (t, p) ∧ p.length < 2 ^ 62 ∧
        s.encodeFrame f b = wrote s f (viEncMin t.toNat ++ viEncMin p.length ++ p) b.calls := by
  cases h : b.outcome with
  | error cause => exact .inl ⟨cause, State.encodeFrame_error h⟩
  | ok q =>
    obtain ⟨t, p⟩ := q
    by_cases hp : p.length < 2 ^ 62
    · exact .inr ⟨t, p, rfl, hp, State.encodeFrame_ok h hp⟩
    · exact .inl ⟨_, State.encodeFrame_long h (by omega)⟩

theorem encField_of_lt {v : U64} (h : v.toNat < 2 ^ 62) : encField v = .ok (viEncMin v.toNat) := by
  simp only [encField, viEnc_of_lt h]

theorem encField_of_le {v : U64} (h : 2 ^ 62 ≤ v.toNat) : encField v = .error .valueOutOfRange := by
  simp only [encField, viEnc_of_le h]

/-- The Settings payload when every number is in range (R198). -/
theorem settingsBytes_ok {es : List (U64 × U64)} (h : ∀ e ∈ es, e.1.toNat < 2 ^ 62 ∧ e.2.toNat < 2 ^ 62) :
    settingsBytes es = .ok (es.flatMap (fun e => viEncMin e.1.toNat ++ viEncMin e.2.toNat)) := by
  induction es with
  | nil => rfl
  | cons e es ih =>
    obtain ⟨h1, h2⟩ := h e (by simp)
    simp only [settingsBytes, encField_of_lt h1, encField_of_lt h2, ih (fun x hx => h x (by simp [hx])),
      List.flatMap_cons]

/-- One number out of range fails it, always with the same cause (R191). -/
theorem settingsBytes_error {es : List (U64 × U64)} (h : ∃ e ∈ es, 2 ^ 62 ≤ e.1.toNat ∨ 2 ^ 62 ≤ e.2.toNat) :
    settingsBytes es = .error .valueOutOfRange := by
  induction es with
  | nil => obtain ⟨e, he, _⟩ := h; simp at he
  | cons e es ih =>
    simp only [settingsBytes]
    by_cases h1 : e.1.toNat < 2 ^ 62
    · by_cases h2 : e.2.toNat < 2 ^ 62
      · obtain ⟨x, hx, hxx⟩ := h
        rcases List.mem_cons.mp hx with rfl | hx
        · omega
        · simp only [encField_of_lt h1, encField_of_lt h2, ih ⟨x, hx, hxx⟩]
      · simp only [encField_of_lt h1, encField_of_le (Nat.le_of_not_lt h2)]
    · simp only [encField_of_le (Nat.le_of_not_lt h1)]

end Sys2Proof.Machine
end

