-- ==== Sys2Proof/Laws/Dispatch.lean ====
section
/-! SUPPORT. What `exec` answers, by shape of operation: a presentation of bytes, an encode request, or one of the five
others; so that a claim over all instructions needs one case for each shape and not one for each constructor. -/

namespace Sys2Proof.Machine

open Sys2Proof.Safety

/-- `DEC_BYTE` is the presentation of one byte. -/
theorem execDecByte_eq_present (c : Nat) (b : Byte) (s : State) : execDecByte c b s = s.present c [b] := by
  unfold execDecByte State.present
  split
  · simp only [State.feed]
    cases s.byteStep c b with
    | error f => rfl
    | ok q => simp
  · rfl

theorem State.presentWire_cases {s : State} {i : Instr} {c : Nat} {bs : List Byte}
    (he : encode s.cfg i = .varint c bs ∨ encode s.cfg i = .frame c bs) :
    s.presentWire i = if i.encodable s.cfg = true then s.present c bs else .refused .noSuchEncoding := by
  rcases he with he | he <;> simp [State.presentWire, he]

/-- The wire-level terms and their bytes. -/
theorem exec_wire {i : Instr} {k : Config} {c : Nat} {bs : List Byte}
    (he : encode k i = .varint c bs ∨ encode k i = .frame c bs) :
    i.context? = some c ∧ ∀ s : State, s.cfg = k → exec i s = s.presentWire i := by
  cases i <;> simp [encode] at he <;> exact ⟨congrArg some he.1, fun _ _ => rfl⟩

/-- An operation that presents bytes: to the context it names, the same bytes in every state of one configuration. -/
theorem exec_feeds {i : Instr} (h : feedsBytes i = true) (k : Config) :
    ∃ c bs, i.context? = some c ∧ ∀ s : State, s.cfg = k →
      exec i s = if i.encodable k = true then s.present c bs else .refused .noSuchEncoding := by
  have wire : ∀ c bs, (encode k i = .varint c bs ∨ encode k i = .frame c bs) →
      ∃ c bs, i.context? = some c ∧ ∀ s : State, s.cfg = k →
        exec i s = if i.encodable k = true then s.present c bs else .refused .noSuchEncoding := by
    intro c bs he
    obtain ⟨h1, h2⟩ := exec_wire he
    refine ⟨c, bs, h1, fun s hs => ?_⟩
    rw [h2 s hs]
    subst hs
    exact State.presentWire_cases he
  cases i
  case decByte c b => exact ⟨c, [b], rfl, fun s _ => execDecByte_eq_present c b s⟩
  case decFeed c bs => exact ⟨c, bs, rfl, fun s _ => rfl⟩
  case varint1 => exact wire _ _ (.inl rfl)
  case varint2 => exact wire _ _ (.inl rfl)
  case varint4 => exact wire _ _ (.inl rfl)
  case varint8 => exact wire _ _ (.inl rfl)
  case data => exact wire _ _ (.inr rfl)
  case headers => exact wire _ _ (.inr rfl)
  case reserved2 => exact wire _ _ (.inr rfl)
  case cancelPush => exact wire _ _ (.inr rfl)
  case settings => exact wire _ _ (.inr rfl)
  case pushPromise => exact wire _ _ (.inr rfl)
  case reserved6 => exact wire _ _ (.inr rfl)
  case goAway => exact wire _ _ (.inr rfl)
  case reserved8 => exact wire _ _ (.inr rfl)
  case reserved9 => exact wire _ _ (.inr rfl)
  case maxPushId => exact wire _ _ (.inr rfl)
  case reservedLow => exact wire _ _ (.inr rfl)
  case unknown => exact wire _ _ (.inr rfl)
  all_goals exact absurd h (by simp [feedsBytes])

/-- An encode request: a build that depends on the configuration and the adapter's history alone, and that calls the
adapter only for the two kinds of R223. -/
theorem exec_request {i : Instr} {f : Frame 64} (h : requestOf i = some f) (k : Config) (log : List AdapterCall) :
    ∃ b : Built, (compresses i = false → b.calls = []) ∧
      ∀ s : State, s.cfg = k → s.adapterLog = log → exec i s = .next (s.encodeFrame f b) := by
  cases i <;> simp only [requestOf, Option.some.injEq, reduceCtorEq] at h <;> subst h
  case encData p => exact ⟨.plain (.ok (k.tData, p)), fun _ => rfl, by rintro s rfl rfl; rfl⟩
  case encCancelPush v => exact ⟨buildField k.tCancelPush v, fun _ => rfl, by rintro s rfl rfl; rfl⟩
  case encGoAway v => exact ⟨buildField k.tGoAway v, fun _ => rfl, by rintro s rfl rfl; rfl⟩
  case encMaxPushId v => exact ⟨buildField k.tMaxPushId v, fun _ => rfl, by rintro s rfl rfl; rfl⟩
  case encSettings es => exact ⟨buildSettings k.tSettings es, fun _ => rfl, by rintro s rfl rfl; rfl⟩
  case encHeaders fs =>
    exact ⟨buildHeaders (Config.adapter.compress log) k.tHeaders fs, fun h => absurd h (by simp [compresses]),
      by rintro s rfl rfl; rfl⟩
  case encPushPromise v fs =>
    exact ⟨buildPushPromise (Config.adapter.compress log) k.tPushPromise v fs,
      fun h => absurd h (by simp [compresses]), by rintro s rfl rfl; rfl⟩
  case encUnknown t p => exact ⟨buildUnknown k t p, fun _ => rfl, by rintro s rfl rfl; rfl⟩

/-- The three shapes. -/
theorem instr_shape (i : Instr) :
    feedsBytes i = true ∨ (∃ f, requestOf i = some f) ∨ (∃ v, i = .viEnc v) ∨ (∃ bs, i = .viDec bs) ∨
      (∃ c, i = .ctxReset c) ∨ i = .blockReset ∨ ∃ c, i = .statusRead c := by
  cases i <;> simp [feedsBytes, requestOf]

/-- An operation that presents bytes is no encode request, no reset and no status read. -/
theorem feedsBytes_exclusive {i : Instr} (h : feedsBytes i = true) :
    requestOf i = none ∧ i ≠ .blockReset ∧ (∀ c, i ≠ .ctxReset c) ∧ ∀ c, i ≠ .statusRead c := by
  cases i <;> simp_all [feedsBytes, requestOf]

/-- An encode request names no context and is none of the others. -/
theorem requestOf_exclusive {i : Instr} {f : Frame 64} (h : requestOf i = some f) :
    feedsBytes i = false ∧ i.context? = none ∧ i ≠ .blockReset ∧ (∀ c, i ≠ .ctxReset c) ∧ (∀ c, i ≠ .statusRead c) ∧
      ∀ k, i.encodable k = true := by
  cases i <;> simp_all [feedsBytes, requestOf, Instr.context?, Instr.encodable]

/-- What a next state of a presentation is. -/
theorem State.present_next {s t : State} {c : Nat} {bs : List Byte} (h : s.present c bs = .next t) :
    s.hasCtx c = true ∧ ∃ s1 ev, s.feed c bs = .ok (s1, ev) ∧ t = s1.answer (.decoded ev (s1.ctx c).status) := by
  unfold State.present at h
  split at h
  · rename_i hc
    split at h
    · cases h
    · rename_i s1 ev hf
      cases h
      exact ⟨hc, s1, ev, hf, rfl⟩
  · cases h

/-- What a next state of an operation that presents bytes is. -/
theorem exec_feeds_next {i : Instr} {s t : State} (h : feedsBytes i = true) (hn : exec i s = .next t) :
    ∃ c bs s1 ev, i.context? = some c ∧ s.hasCtx c = true ∧ s.feed c bs = .ok (s1, ev) ∧
      t = s1.answer (.decoded ev (s1.ctx c).status) := by
  obtain ⟨c, bs, hc, he⟩ := exec_feeds h s.cfg
  rw [he s rfl] at hn
  split at hn
  · obtain ⟨h1, s1, ev, h2, h3⟩ := State.present_next hn
    exact ⟨c, bs, s1, ev, hc, h1, h2, h3⟩
  · cases hn

/-- What a next state of an encode request is. -/
theorem exec_request_next {i : Instr} {s t : State} {f : Frame 64} (hr : requestOf i = some f)
    (h : exec i s = .next t) : ∃ b : Built, t = s.encodeFrame f b ∧ (compresses i = false → b.calls = []) := by
  obtain ⟨b, hb, h2⟩ := exec_request hr s.cfg s.adapterLog
  rw [h2 s rfl rfl] at h
  cases h
  exact ⟨b, rfl, hb⟩

theorem exec_ctxReset_next {c : Nat} {s t : State} (h : exec (.ctxReset c) s = .next t) :
    s.hasCtx c = true ∧ t = (s.resetCtx c).answer .nothing := by
  change execCtxReset c s = _ at h
  unfold execCtxReset at h
  split at h
  · cases h; exact ⟨by assumption, rfl⟩
  · cases h

theorem exec_statusRead_next {c : Nat} {s t : State} (h : exec (.statusRead c) s = .next t) :
    s.hasCtx c = true ∧ t = s.answer (.status ((s.ctx c).view s.conn)) := by
  change execStatusRead c s = _ at h
  unfold execStatusRead at h
  split at h
  · cases h; exact ⟨by assumption, rfl⟩
  · cases h

/-- What a next state of one of the five others is. -/
theorem exec_other_next {i : Instr} {s t : State} (hf : feedsBytes i = false) (hr : requestOf i = none)
    (h : exec i s = .next t) :
    (∃ v, i = .viEnc v ∧ t = s.answer (viEncResult v)) ∨ (∃ bs, i = .viDec bs ∧ t = s.answer (viDecResult bs)) ∨
      (∃ c, i = .ctxReset c ∧ s.hasCtx c = true ∧ t = (s.resetCtx c).answer .nothing) ∨
      (i = .blockReset ∧ t = s.resetBlock.answer .nothing) ∨
      ∃ c, i = .statusRead c ∧ s.hasCtx c = true ∧ t = s.answer (.status ((s.ctx c).view s.conn)) := by
  rcases instr_shape i with h1 | ⟨f, h1⟩ | ⟨v, rfl⟩ | ⟨bs, rfl⟩ | ⟨c, rfl⟩ | rfl | ⟨c, rfl⟩
  · simp_all
  · simp_all
  · cases h; exact .inl ⟨_, rfl, rfl⟩
  · cases h; exact .inr (.inl ⟨_, rfl, rfl⟩)
  · exact .inr (.inr (.inl ⟨_, rfl, exec_ctxReset_next h⟩))
  · cases h; exact .inr (.inr (.inr (.inl ⟨rfl, rfl⟩)))
  · exact .inr (.inr (.inr (.inr ⟨_, rfl, exec_statusRead_next h⟩)))

/-- What a next state of `DEC_BYTE` is. -/
theorem exec_decByte_next {c : Nat} {b : Byte} {s t : State} (h : exec (.decByte c b) s = .next t) :
    s.hasCtx c = true ∧ ∃ r, ctxByte s.cfg Config.adapter.decompress (s.ctx c) b = .ok r ∧
      t = (s.applyArm c r).answer (.decoded (armEvents s.cfg r) ((s.applyArm c r).ctx c).status) := by
  change execDecByte c b s = _ at h
  unfold execDecByte at h
  split at h
  · rename_i hc
    split at h
    · cases h
    · rename_i s1 ev hb
      obtain ⟨r, h1, rfl, rfl⟩ := State.byteStep_ok hb
      cases h
      exact ⟨hc, r, h1, rfl⟩
  · cases h

/-- What `BLOCK_RESET` makes of the bank (R229). -/
theorem mem_resetCtxs {k : Nat} {ds : List Ctx} {d : Ctx} (h : d ∈ resetCtxs k ds) : ∃ a f n, d = Ctx.atReset a f n := by
  induction ds generalizing k with
  | nil => simp [resetCtxs] at h
  | cons x xs ih =>
    simp only [resetCtxs, List.mem_cons] at h
    rcases h with h | h
    · exact ⟨_, _, _, h⟩
    · exact ih h

@[simp] theorem resetCtxs_length (k : Nat) (ds : List Ctx) : (resetCtxs k ds).length = ds.length := by
  induction ds generalizing k with
  | nil => rfl
  | cons x xs ih => simp [resetCtxs, ih]

end Sys2Proof.Machine
end

