-- ==== Sys2Proof/Laws/Invariant.lean ====
section
/-! SUPPORT. R37 for one context: every arm of the byte step has an answer and keeps it. -/

namespace Sys2Proof.Machine

open Sys2Proof.Safety

theorem missing_lt (d : Ctx) (b : Byte) : missing d b < 8 := by
  have hb := b.isLt
  have hr := d.viRem.isLt
  unfold missing
  have h4 : b.toNat / 64 = 0 ∨ b.toNat / 64 = 1 ∨ b.toNat / 64 = 2 ∨ b.toNat / 64 = 3 := by omega
  split
  · rcases h4 with h | h | h | h <;> rw [h] <;> decide
  · omega

theorem tookByte_viRem (d : Ctx) (b : Byte) : (tookByte d b).viRem.toNat = missing d b := by
  simp only [tookByte, BitVec.toNat_ofNat]
  exact Nat.mod_eq_of_lt (missing_lt d b)

/-- R37(a) is kept by `vi_step` (R128). -/
theorem viOk_tookByte {d : Ctx} (h : viOk d = true) (b : Byte) : viOk (tookByte d b) = true := by
  have hb := b.isLt
  have hr := d.viRem.isLt
  simp only [viOk, Bool.or_eq_true, decide_eq_true_eq] at h ⊢
  by_cases hz : missing d b = 0
  · left; apply BitVec.eq_of_toNat_eq; rw [tookByte_viRem, hz]; rfl
  · right
    rw [tookByte_viRem]
    have h4 : b.toNat / 64 = 0 ∨ b.toNat / 64 = 1 ∨ b.toNat / 64 = 2 ∨ b.toNat / 64 = 3 := by omega
    by_cases h0 : d.viRem = 0
    · simp only [tookByte, gathered, h0, if_true, BitVec.toNat_ofNat]
      have h6 : b.toNat % 64 < 2 ^ 6 := Nat.mod_lt _ (by decide)
      rw [Nat.mod_eq_of_lt (by omega)]
      refine Nat.lt_of_lt_of_le h6 (Nat.pow_le_pow_right (by decide) ?_)
      simp only [missing, h0, if_true]
      rcases h4 with h | h | h | h <;> rw [h] <;> decide
    · have hpos : 0 < d.viRem.toNat := by
        rcases Nat.eq_zero_or_pos d.viRem.toNat with hh | hh
        · exact absurd (BitVec.eq_of_toNat_eq (by simpa using hh)) h0
        · exact hh
      have h := h.resolve_left h0
      simp only [missing, h0, if_false] at hz ⊢
      simp only [tookByte, gathered, h0, if_false, BitVec.toNat_ofNat]
      have e : 2 ^ (62 - 8 * (d.viRem.toNat - 1)) = 2 ^ (62 - 8 * d.viRem.toNat) * 256 := by
        rw [show 62 - 8 * (d.viRem.toNat - 1) = 62 - 8 * d.viRem.toNat + 8 by omega, pow_add]; norm_num
      exact Nat.lt_of_le_of_lt (Nat.mod_le _ _) (by omega)

/-- A type that is not reserved has a kind that is not Reserved, under any configuration (R102). -/
theorem kindOf_ne_reserved {k : Config} {t : Nat} (h : isReserved k t = false) : kindOf k t ≠ .reserved := by
  intro hk
  have := kindOf_spec k t
  rw [hk] at this
  simp_all

/-- What an arm leaves in its context when the arm is one the spec allows. -/
def armOk (k : Config) (r : Arm) : Prop :=
  match r.raised with
  | none => ctxOk k r.ctx = true ∧ r.ctx.state ≠ .fatal
  | some cause => r.ctx.pbuf.wf = true ∧ cause ≠ .valueOutOfRange ∧ r.events = []

theorem ctxOk_armCtx {k : Config} {r : Arm} (h : armOk k r) : ctxOk k (armCtx k r) = true := by
  unfold armOk at h
  unfold armCtx
  cases hr : r.raised with
  | none => rw [hr] at h; exact h.1
  | some cause =>
    rw [hr] at h
    simp [ctxOk, Ctx.stop, errorOk, h.1, h.2.1]

/-- `complete_atomic` on a context that holds a whole payload of an atomic kind. -/
theorem completeAtomic_ok {k : Config} {dec : List Byte → Option FieldList} {d : Ctx} (hwf : d.pbuf.wf = true)
    (hv : d.viRem = 0) (he : noError d = true) (hl : inBuffer k d.flen.toNat = true)
    (hnd : kindOf k d.ftype.toNat ≠ .data) (hnr : kindOf k d.ftype.toNat ≠ .reserved) :
    ∃ r, completeAtomic k dec d = .ok r ∧ armOk k r := by
  rw [completeAtomic_eq hl]
  cases hout : (parsePayload k dec d.ftype (d.pbuf.slice 0 d.flen.toNat)).outcome with
  | ok f => exact ⟨_, rfl, by simp [ctxOk, viOk, hwf, hv]; simpa [noError] using he, by simp⟩
  | err cause =>
    refine ⟨_, rfl, hwf, ?_, rfl⟩
    rcases parsePayload_err hout with h | h <;> rw [h] <;> decide
  | noParser => rcases parsePayload_noParser hout with h | h <;> contradiction

/-- From a context that meets R37, every byte step has an answer, and what it leaves meets R37. -/
theorem ctxByte_ok {k : Config} {dec : List Byte → Option FieldList} {d : Ctx} (h : ctxOk k d = true) (b : Byte) :
    ∃ r, ctxByte k dec d b = .ok r ∧ (d.state = .fatal ∧ r = .quiet d ∨ d.state ≠ .fatal ∧ armOk k r) := by
  simp only [ctxOk, Bool.and_eq_true] at h
  obtain ⟨hwf, h⟩ := h
  cases hst : d.state with
  | fatal => exact ⟨_, ctxByte_fatal hst, .inl ⟨rfl, rfl⟩⟩
  | awaitingType =>
    rw [hst] at h
    simp only [Bool.and_eq_true] at h
    obtain ⟨hv, he⟩ := h
    refine ⟨_, ctxByte_type hst, .inr ⟨by decide, ?_⟩⟩
    have hv' := viOk_tookByte hv b
    split
    · rename_i hm
      unfold armTypeDone
      split
      · exact ⟨hwf, by decide, rfl⟩
      · rename_i hr
        refine ⟨?_, by simp [Arm.quiet]⟩
        simp only [Arm.quiet, ctxOk, Bool.and_eq_true]
        exact ⟨hwf, ⟨hv', he⟩, by simpa using hr⟩
    · refine ⟨?_, by simp [Arm.quiet, tookByte, hst]⟩
      simp only [Arm.quiet, ctxOk, Bool.and_eq_true, tookByte, hst]
      exact ⟨hwf, hv', he⟩
  | awaitingLength =>
    rw [hst] at h
    simp only [Bool.and_eq_true] at h
    obtain ⟨⟨hv, he⟩, hr⟩ := h
    have hr : isReserved k d.ftype.toNat = false := by simpa using hr
    have hnr := kindOf_ne_reserved hr
    have hv' := viOk_tookByte hv b
    rw [ctxByte_length hst]
    by_cases hm : missing d b = 0
    · rw [if_neg (by simp [hm])]
      have hrem : (tookByte d b).viRem = 0 := by simp [tookByte, hm]
      split
      · rename_i hk
        refine ⟨_, rfl, .inr ⟨by decide, ?_⟩⟩
        unfold armLengthData
        split
        · refine ⟨?_, by simp [Arm.emits]⟩
          simp only [Arm.emits, ctxOk, viOk, hrem, Bool.and_eq_true]
          exact ⟨hwf, by simp, he⟩
        · rename_i h0
          refine ⟨?_, by simp [Arm.emits]⟩
          have hpos : 1 ≤ (gathered d b).toNat := by
            rcases Nat.eq_zero_or_pos (gathered d b).toNat with hh | hh
            · exact absurd (BitVec.eq_of_toNat_eq (by simpa using hh)) h0
            · exact hh
          simp only [Arm.emits, ctxOk, payloadOk, hrem, Bool.and_eq_true, decide_eq_true_eq]
          refine ⟨hwf, ⟨⟨⟨⟨trivial, hpos⟩, Nat.le_refl _⟩, ?_⟩, he⟩, hnr⟩
          simp [tookByte, hk]
      · rename_i hk
        unfold armLengthAtomic
        simp only
        split
        · rename_i hib
          split
          · obtain ⟨r, h1, h2⟩ := completeAtomic_ok (k := k) (dec := dec)
              (d := { tookByte d b with flen := gathered d b, prem := gathered d b, pcnt := 0 })
              hwf hrem he hib hk hnr
            exact ⟨r, h1, .inr ⟨by decide, h2⟩⟩
          · rename_i h0
            refine ⟨_, rfl, .inr ⟨by decide, ?_, by simp [Arm.quiet]⟩⟩
            have hpos : 1 ≤ (gathered d b).toNat := by
              rcases Nat.eq_zero_or_pos (gathered d b).toNat with hh | hh
              · exact absurd (BitVec.eq_of_toNat_eq (by simpa using hh)) h0
              · exact hh
            simp only [Arm.quiet, ctxOk, payloadOk, hrem, Bool.and_eq_true, decide_eq_true_eq]
            refine ⟨hwf, ⟨⟨⟨⟨trivial, hpos⟩, Nat.le_refl _⟩, ?_⟩, he⟩, hnr⟩
            have hk' : ¬ kindOf k (tookByte d b).ftype.toNat = .data := hk
            rw [if_neg hk', Nat.sub_self]
            simpa using hib
        · exact ⟨_, rfl, .inr ⟨by decide, hwf, by decide, rfl⟩⟩
    · rw [if_pos hm]
      refine ⟨_, rfl, .inr ⟨by decide, ?_, by simp [Arm.quiet, tookByte, hst]⟩⟩
      simp only [Arm.quiet, ctxOk, Bool.and_eq_true, tookByte, hst]
      exact ⟨hwf, ⟨hv', he⟩, by simpa using hr⟩
  | awaitingPayload =>
    rw [hst] at h
    simp only [payloadOk, Bool.and_eq_true, decide_eq_true_eq] at h
    obtain ⟨⟨⟨⟨⟨hv, hp1⟩, hpf⟩, hk3⟩, he⟩, hnr⟩ := h
    have hsub : (d.prem - 1).toNat = d.prem.toNat - 1 := by
      have hlt := d.prem.isLt
      have h1 : (1 : U62).toNat = 1 := rfl
      rw [BitVec.toNat_sub, h1]
      omega
    rw [ctxByte_payload hst]
    split
    · rename_i hk
      rw [if_pos hk] at hk3
      refine ⟨_, rfl, .inr ⟨by decide, ?_⟩⟩
      unfold armPayloadData
      simp only
      split
      · refine ⟨?_, by simp [Arm.emits]⟩
        simp only [Arm.emits, ctxOk, viOk, hv, Bool.and_eq_true]
        exact ⟨hwf, by simp, he⟩
      · rename_i h0
        refine ⟨?_, by simp [Arm.emits, hst]⟩
        have hpos : 1 ≤ (d.prem - 1).toNat := by
          rcases Nat.eq_zero_or_pos (d.prem - 1).toNat with hh | hh
          · exact absurd (BitVec.eq_of_toNat_eq (by simpa using hh)) h0
          · exact hh
        simp only [Arm.emits, ctxOk, hst, payloadOk, hv, Bool.and_eq_true, decide_eq_true_eq]
        refine ⟨hwf, ⟨⟨⟨⟨trivial, hpos⟩, by omega⟩, ?_⟩, he⟩, hnr⟩
        rw [if_pos hk]; exact hk3
    · rename_i hk
      rw [if_neg hk] at hk3
      simp only [Bool.and_eq_true, decide_eq_true_eq] at hk3
      obtain ⟨hcnt, hib⟩ := hk3
      have hib1 : inBuffer k (d.pcnt + 1) = true := by
        unfold inBuffer at hib ⊢
        cases hp : k.pbufBytes with
        | none => rfl
        | some n => rw [hp] at hib; simp only [decide_eq_true_eq] at hib ⊢; omega
      unfold armPayloadAtomic
      rw [Ctx.memWrite, if_pos hib1]
      simp only
      split
      · obtain ⟨r, h1, h2⟩ := completeAtomic_ok (k := k) (dec := dec)
          (d := { d with pbuf := d.pbuf.write d.pcnt b, pcnt := d.pcnt + 1, prem := d.prem - 1 })
          (Memory.write_wf hwf _ _) hv he hib hk hnr
        exact ⟨r, h1, .inr ⟨by decide, h2⟩⟩
      · rename_i h0
        refine ⟨_, rfl, .inr ⟨by decide, ?_, by simp [Arm.quiet, hst]⟩⟩
        have hpos : 1 ≤ (d.prem - 1).toNat := by
          rcases Nat.eq_zero_or_pos (d.prem - 1).toNat with hh | hh
          · exact absurd (BitVec.eq_of_toNat_eq (by simpa using hh)) h0
          · exact hh
        simp only [Arm.quiet, ctxOk, hst, payloadOk, hv, Bool.and_eq_true, decide_eq_true_eq]
        refine ⟨Memory.write_wf hwf _ _, ⟨⟨⟨⟨trivial, hpos⟩, by omega⟩, ?_⟩, he⟩, hnr⟩
        rw [if_neg hk]
        simp only [Bool.and_eq_true, decide_eq_true_eq]
        exact ⟨by omega, hib⟩

/-! The machine's invariant under the shared operations. -/

/-- The four parts of `inv`. -/
theorem inv_iff {s : State} :
    inv s = true ↔ (∀ d ∈ s.ctxs, ctxOk s.cfg d = true) ∧ connOk s.cfg s.conn = true ∧
      ((∃ d ∈ s.ctxs, d.state = .fatal) → s.conn.closePending = true) ∧ feedsOk s = true := by
  simp only [inv, Bool.and_eq_true, List.all_eq_true, Bool.or_eq_true, Bool.not_eq_true', List.any_eq_false,
    and_assoc, Ctx.isFatal, decide_eq_true_eq]
  refine and_congr_right fun _ => and_congr_right fun _ => and_congr_left fun _ => ⟨?_, fun h => ?_⟩
  · rintro (h | h) ⟨d, hd, hf⟩
    · exact absurd hf (h d hd)
    · exact h
  · by_cases hh : ∃ d ∈ s.ctxs, d.state = .fatal
    · exact .inr (h hh)
    · exact .inl fun d hd hf => hh ⟨d, hd, hf⟩

/-- What `feedsOk` says depends on the feeds and the number of contexts alone. -/
theorem feedsOk_congr {s t : State} (h1 : t.feeds = s.feeds) (h2 : t.ctxs.length = s.ctxs.length) :
    feedsOk t = feedsOk s := by simp only [feedsOk, State.hasCtx, h1, h2]

theorem connOk_latch {k : Config} {conn : Conn} (h : connOk k conn = true) (cause : Cause) :
    connOk k (conn.latch cause (codeOf k cause)) = true := by
  unfold Conn.latch
  split
  · exact h
  · simp [connOk]

theorem State.ctx_mem {s : State} {c : Nat} (h : s.hasCtx c = true) : s.ctx c ∈ s.ctxs := by
  have hc := (s.hasCtx_iff c).mp h
  simp [State.ctx, List.getD_eq_getElem?_getD, hc]

theorem ctxOk_atReset (k : Config) (a f n : U62) : ctxOk k (Ctx.atReset a f n) = true := by
  simp [ctxOk, Ctx.atReset, viOk, noError, Memory.wf_nil]

theorem State.applyArm_inv {s : State} {c : Nat} {r : Arm} (hi : inv s = true) (hc : s.hasCtx c = true)
    (hr : armOk s.cfg r) : inv (s.applyArm c r) = true := by
  rw [inv_iff] at hi ⊢
  obtain ⟨h1, h2, h3, h4⟩ := hi
  rw [State.applyArm_ctxs _ _ _ hc, State.applyArm_cfg, State.applyArm_conn]
  refine ⟨fun d hd => ?_, ?_, ?_, (feedsOk_congr (by simp) (by simp)).trans h4⟩
  · rcases List.mem_or_eq_of_mem_set hd with h | h
    · exact h1 d h
    · rw [h]; exact ctxOk_armCtx hr
  · cases r.raised with
    | none => exact h2
    | some cause => exact connOk_latch h2 cause
  · rintro ⟨d, hd, hf⟩
    cases hra : r.raised with
    | some cause => simp
    | none =>
      rcases List.mem_or_eq_of_mem_set hd with h | h
      · exact h3 ⟨d, h, hf⟩
      · rw [armOk, hra] at hr
        rw [h, armCtx, hra] at hf
        exact absurd hf hr.2

/-- A byte step of a machine that meets the invariant goes on and keeps it. -/
theorem State.byteStep_inv {s : State} {c : Nat} (b : Byte) (hi : inv s = true) (hc : s.hasCtx c = true) :
    ∃ s1 ev, s.byteStep c b = .ok (s1, ev) ∧ inv s1 = true ∧ s1.hasCtx c = true := by
  obtain ⟨r, h1, h2⟩ := ctxByte_ok (dec := Config.adapter.decompress) ((inv_iff.mp hi).1 _ (State.ctx_mem hc)) b
  refine ⟨_, _, State.byteStep_of_arm h1, ?_, by simpa using hc⟩
  rcases h2 with ⟨-, rfl⟩ | ⟨-, h2⟩
  · rw [State.applyArm_quiet, State.setCtx_ctx]; exact hi
  · exact State.applyArm_inv hi hc h2

/-- So does a feed. -/
theorem State.feed_inv {c : Nat} : ∀ (bs : List Byte) (s : State), inv s = true → s.hasCtx c = true →
    ∃ s1 ev, s.feed c bs = .ok (s1, ev) ∧ inv s1 = true ∧ s1.hasCtx c = true := by
  intro bs
  induction bs with
  | nil => intro s hi hc; exact ⟨s, [], rfl, hi, hc⟩
  | cons b bs ih =>
    intro s hi hc
    obtain ⟨s1, e1, h1, hi1, hc1⟩ := State.byteStep_inv b hi hc
    obtain ⟨s2, e2, h2, hi2, hc2⟩ := ih s1 hi1 hc1
    exact ⟨s2, e1 ++ e2, by rw [State.feed_cons_of_ok h1, h2], hi2, hc2⟩

end Sys2Proof.Machine
end

