-- ==== Sys2Proof/Laws/Feeds.lean ====
section
/-! SUPPORT. Feeds in progress: what opening, advancing and closing one changes, that no operation touches another's
feed, and that a feed taken turn by turn is `DEC_FEED` (R60, R155, log 12). -/

namespace Sys2Proof.Machine

open Sys2Proof.Safety

@[simp] theorem State.openFeed_cfg (s : State) (c : Nat) (bs : List Byte) : (s.openFeed c bs).cfg = s.cfg := rfl
@[simp] theorem State.openFeed_ctxs (s : State) (c : Nat) (bs : List Byte) : (s.openFeed c bs).ctxs = s.ctxs := rfl
@[simp] theorem State.openFeed_conn (s : State) (c : Nat) (bs : List Byte) : (s.openFeed c bs).conn = s.conn := rfl
@[simp] theorem State.openFeed_events (s : State) (c : Nat) (bs : List Byte) : (s.openFeed c bs).events = s.events := rfl
@[simp] theorem State.openFeed_sink (s : State) (c : Nat) (bs : List Byte) : (s.openFeed c bs).sink = s.sink := rfl
@[simp] theorem State.openFeed_released (s : State) (c : Nat) (bs : List Byte) : (s.openFeed c bs).released = s.released := rfl
@[simp] theorem State.openFeed_adapterLog (s : State) (c : Nat) (bs : List Byte) : (s.openFeed c bs).adapterLog = s.adapterLog := rfl
@[simp] theorem State.openFeed_result (s : State) (c : Nat) (bs : List Byte) : (s.openFeed c bs).result = s.result := rfl
@[simp] theorem State.openFeed_pending (s : State) (c : Nat) (bs : List Byte) : (s.openFeed c bs).pending = s.pending := rfl
@[simp] theorem State.openFeed_turns (s : State) (c : Nat) (bs : List Byte) : (s.openFeed c bs).turns = s.turns := rfl
@[simp] theorem State.openFeed_draws (s : State) (c : Nat) (bs : List Byte) : (s.openFeed c bs).draws = s.draws := rfl
@[simp] theorem State.openFeed_feeds (s : State) (c : Nat) (bs : List Byte) :
    (s.openFeed c bs).feeds = s.feeds ++ [{ ctx := c, rest := bs, events := [] }] := rfl

@[simp] theorem State.setFeed_cfg (s : State) (f : Feed) : (s.setFeed f).cfg = s.cfg := rfl
@[simp] theorem State.setFeed_ctxs (s : State) (f : Feed) : (s.setFeed f).ctxs = s.ctxs := rfl
@[simp] theorem State.setFeed_conn (s : State) (f : Feed) : (s.setFeed f).conn = s.conn := rfl
@[simp] theorem State.setFeed_events (s : State) (f : Feed) : (s.setFeed f).events = s.events := rfl
@[simp] theorem State.setFeed_sink (s : State) (f : Feed) : (s.setFeed f).sink = s.sink := rfl
@[simp] theorem State.setFeed_released (s : State) (f : Feed) : (s.setFeed f).released = s.released := rfl
@[simp] theorem State.setFeed_adapterLog (s : State) (f : Feed) : (s.setFeed f).adapterLog = s.adapterLog := rfl
@[simp] theorem State.setFeed_result (s : State) (f : Feed) : (s.setFeed f).result = s.result := rfl
@[simp] theorem State.setFeed_pending (s : State) (f : Feed) : (s.setFeed f).pending = s.pending := rfl
@[simp] theorem State.setFeed_turns (s : State) (f : Feed) : (s.setFeed f).turns = s.turns := rfl
@[simp] theorem State.setFeed_draws (s : State) (f : Feed) : (s.setFeed f).draws = s.draws := rfl
@[simp] theorem State.setFeed_feeds (s : State) (f : Feed) :
    (s.setFeed f).feeds = s.feeds.map (fun g => if g.ctx = f.ctx then f else g) := rfl

@[simp] theorem State.closeFeed_cfg (s : State) (c : Nat) : (s.closeFeed c).cfg = s.cfg := rfl
@[simp] theorem State.closeFeed_ctxs (s : State) (c : Nat) : (s.closeFeed c).ctxs = s.ctxs := rfl
@[simp] theorem State.closeFeed_conn (s : State) (c : Nat) : (s.closeFeed c).conn = s.conn := rfl
@[simp] theorem State.closeFeed_events (s : State) (c : Nat) : (s.closeFeed c).events = s.events := rfl
@[simp] theorem State.closeFeed_sink (s : State) (c : Nat) : (s.closeFeed c).sink = s.sink := rfl
@[simp] theorem State.closeFeed_released (s : State) (c : Nat) : (s.closeFeed c).released = s.released := rfl
@[simp] theorem State.closeFeed_adapterLog (s : State) (c : Nat) : (s.closeFeed c).adapterLog = s.adapterLog := rfl
@[simp] theorem State.closeFeed_result (s : State) (c : Nat) : (s.closeFeed c).result = s.result := rfl
@[simp] theorem State.closeFeed_pending (s : State) (c : Nat) : (s.closeFeed c).pending = s.pending := rfl
@[simp] theorem State.closeFeed_turns (s : State) (c : Nat) : (s.closeFeed c).turns = s.turns := rfl
@[simp] theorem State.closeFeed_draws (s : State) (c : Nat) : (s.closeFeed c).draws = s.draws := rfl
@[simp] theorem State.closeFeed_feeds (s : State) (c : Nat) :
    (s.closeFeed c).feeds = s.feeds.filter (fun g => g.ctx ≠ c) := rfl

/-! Which feed is in progress on a context. -/

/-- The feed in progress depends on the list of feeds alone. -/
theorem State.feedOn_congr {s t : State} (h : s.feeds = t.feeds) (c : Nat) : s.feedOn c = t.feedOn c := by
  simp only [State.feedOn, h]

/-- A feed in progress on `c` is one of the feeds, and its context is `c`. -/
theorem State.feedOn_mem {s : State} {c : Nat} {f : Feed} (h : s.feedOn c = some f) : f ∈ s.feeds ∧ f.ctx = c :=
  ⟨List.mem_of_find?_eq_some h, by simpa using List.find?_some h⟩

/-- No operation is in progress on `c` when no feed is for `c`. -/
theorem State.busy_eq_false_iff {s : State} {c : Nat} : s.busy c = false ↔ ∀ f ∈ s.feeds, f.ctx ≠ c := by
  simp [State.busy, State.feedOn]

/-- A feed opened behind those in progress hides none of them. -/
theorem State.feedOn_openFeed {s : State} {c : Nat} {f : Feed} (c' : Nat) (bs : List Byte) (h : s.feedOn c = some f) :
    (s.openFeed c' bs).feedOn c = some f := by
  simp only [State.feedOn, State.openFeed_feeds, List.find?_append] at h ⊢
  simp [h]

/-- Advancing the feed of another context. -/
theorem State.feedOn_setFeed_other {s : State} {c : Nat} {g : Feed} (h : g.ctx ≠ c) :
    (s.setFeed g).feedOn c = s.feedOn c := by
  simp only [State.feedOn, State.setFeed_feeds]
  induction s.feeds with
  | nil => rfl
  | cons x xs ih =>
    simp only [List.map_cons, List.find?_cons, ih]
    by_cases hx : x.ctx = g.ctx
    · simp [hx, h]
    · simp [hx]

/-- Closing the feed of another context. -/
theorem State.feedOn_closeFeed_other {s : State} {c c' : Nat} (h : c' ≠ c) :
    (s.closeFeed c').feedOn c = s.feedOn c := by
  simp only [State.feedOn, State.closeFeed_feeds, List.find?_filter]
  congr 1
  funext x
  by_cases hx : x.ctx = c
  · simp [hx, Ne.symm h]
  · simp [hx]

/-- What a turn leaves of the feeds: the other contexts' as they were. -/
theorem State.feedOn_advanceFeed_other {s : State} {c c' : Nat} (rest : List Byte) (ev : List Event) (h : c' ≠ c) :
    (s.advanceFeed c' rest ev).feedOn c = s.feedOn c := by
  unfold State.advanceFeed
  split
  · exact State.feedOn_closeFeed_other h
  · exact State.feedOn_setFeed_other h

@[simp] theorem State.advanceFeed_ctxs (s : State) (c : Nat) (rest : List Byte) (ev : List Event) :
    (s.advanceFeed c rest ev).ctxs = s.ctxs := by unfold State.advanceFeed; split <;> rfl
@[simp] theorem State.advanceFeed_conn (s : State) (c : Nat) (rest : List Byte) (ev : List Event) :
    (s.advanceFeed c rest ev).conn = s.conn := by unfold State.advanceFeed; split <;> rfl
@[simp] theorem State.advanceFeed_cfg (s : State) (c : Nat) (rest : List Byte) (ev : List Event) :
    (s.advanceFeed c rest ev).cfg = s.cfg := by unfold State.advanceFeed; split <;> rfl

/-! What a step of the schedule does. -/

/-- A feed leaves the schedule and the feeds in progress alone. -/
theorem State.feed_schedule {s s' : State} {c : Nat} {bs : List Byte} {ev : List Event}
    (h : s.feed c bs = .ok (s', ev)) : s'.feeds = s.feeds ∧ s'.turns = s.turns :=
  State.feed_induction (P := fun t => t.feeds = s.feeds ∧ t.turns = s.turns)
    (fun t t' b e hp hb => by obtain ⟨r, -, rfl, -⟩ := State.byteStep_ok hb; simpa using hp) bs s s' ev ⟨rfl, rfl⟩ h

/-- So does every operation. -/
theorem exec_schedule {i : Instr} {s t : State} (h : exec i s = .next t) : t.feeds = s.feeds ∧ t.turns = s.turns := by
  cases hf : feedsBytes i with
  | true =>
    obtain ⟨c, bs, s1, ev, -, -, h1, rfl⟩ := exec_feeds_next hf h
    exact State.feed_schedule (s' := s1) h1
  | false =>
    cases hr : requestOf i with
    | some f =>
      obtain ⟨b, rfl, -⟩ := exec_request_next hr h
      rcases State.encodeFrame_cases s f b with ⟨cause, h⟩ | ⟨t, p, -, -, h⟩ <;> rw [h] <;> exact ⟨rfl, rfl⟩
    | none =>
      rcases exec_other_next hf hr h with ⟨v, -, rfl⟩ | ⟨bs, -, rfl⟩ | ⟨c, -, -, rfl⟩ | ⟨-, rfl⟩ | ⟨c, -, -, rfl⟩ <;>
        exact ⟨rfl, rfl⟩

/-- A turn of the feed on `c` that goes on: it had no feed, or it took the feed's next byte, if any was left. -/
theorem State.resumeFeed_next {s t : State} {c : Nat} (h : s.resumeFeed c = .next t) :
    (s.feedOn c = none ∧ t = s) ∨ ∃ f, s.feedOn c = some f ∧
      ((f.rest = [] ∧ t = s.advanceFeed c [] f.events) ∨
        ∃ b bs s1 ev, f.rest = b :: bs ∧ s.byteStep c b = .ok (s1, ev) ∧ t = s1.advanceFeed c bs (f.events ++ ev)) := by
  unfold State.resumeFeed at h
  split at h
  · cases h; exact .inl ⟨by assumption, rfl⟩
  · rename_i f hf
    refine .inr ⟨f, hf, ?_⟩
    split at h
    · cases h; exact .inl ⟨by assumption, rfl⟩
    · split at h
      · cases h
      · cases h; exact .inr ⟨_, _, _, _, by assumption, by assumption, rfl⟩

/-- Everything a step can do: one case for each thing the block finds. -/
theorem step_next {s t : State} (h : step s = .next t) :
    s.configured = true ∧ (s.fetch = .idle t ∨ (∃ i s', s.fetch = .run i s' ∧ exec i s' = .next t) ∨
      (∃ c bs s', s.fetch = .start c bs s' ∧ s'.hasCtx c = true ∧ t = s'.openFeed c bs) ∨
      ∃ c s', s.fetch = .resume c s' ∧ s'.resumeFeed c = .next t) := by
  unfold step at h
  split at h
  · rename_i hcfg
    refine ⟨hcfg, ?_⟩
    split at h
    · rename_i hf; cases h; exact .inl hf
    · rename_i i s' hf; exact .inr (.inl ⟨i, s', hf, h⟩)
    · rename_i c bs s' hf
      unfold State.startFeed at h
      split at h
      · cases h; exact .inr (.inr (.inl ⟨c, bs, s', hf, by assumption, rfl⟩))
      · cases h
    · rename_i c s' hf; exact .inr (.inr (.inr ⟨c, s', hf, h⟩))
    · cases h
  · cases h

/-- The next transaction leaves the queue and nothing else. -/
theorem State.nextInstr_state {s s' : State} {i : Instr} (h : s.nextInstr = some (i, s')) :
    ∃ q, s' = { s with pending := q } := by
  unfold State.nextInstr at h
  split at h
  · cases h
  · split at h <;> cases h <;> exact ⟨_, rfl⟩

/-- An operation that is issued names no context on which a feed is in progress (R63). -/
theorem State.overlapped_none {s : State} {i : Instr} (h : s.overlapped i = none) {c : Nat} (hc : i.context? = some c) :
    s.busy c = false := by
  simpa [State.overlapped, hc] using h

/-- The bytes an instruction presents go to the context it names. -/
theorem presentedBytes_context {k : Config} {i : Instr} {c : Nat} {bs : List Byte}
    (h : presentedBytes k i = some (c, bs)) : i.context? = some c := by
  cases i <;> simp [presentedBytes, encode] at h <;> simp [Instr.context?, h]

/-- Everything issuing the next transaction can come to. -/
theorem State.issue_cases (apart : Bool) (s : State) :
    s.issue apart = .idle s ∨ (∃ i q, (∀ c, i.context? = some c → s.busy c = false) ∧
        s.issue apart = .run i { s with pending := q }) ∨
      (∃ c b bs q, s.busy c = false ∧ s.issue apart = .start c (b :: bs) { s with pending := q }) ∨
      ∃ c, s.busy c = true ∧ s.issue apart = .overlap c := by
  unfold State.issue
  cases hn : s.nextInstr with
  | none => exact .inl rfl
  | some p =>
    obtain ⟨i, s'⟩ := p
    obtain ⟨q, rfl⟩ := State.nextInstr_state hn
    cases ho : s.overlapped i with
    | some c =>
      refine .inr (.inr (.inr ⟨c, ?_, by simp [ho]⟩))
      simp only [State.overlapped, Option.filter_eq_some_iff] at ho
      exact ho.2
    | none =>
      have hfree : ∀ c, i.context? = some c → s.busy c = false := fun c hc => State.overlapped_none ho hc
      cases apart with
      | false => exact .inr (.inl ⟨i, q, hfree, by simp [ho]⟩)
      | true =>
        cases hp : presentedBytes s.cfg i with
        | none => exact .inr (.inl ⟨i, q, hfree, by simp [ho, hp]⟩)
        | some p =>
          obtain ⟨c, _ | ⟨b, bs⟩⟩ := p
          · exact .inr (.inl ⟨i, q, hfree, by simp [ho, hp]⟩)
          · exact .inr (.inr (.inl ⟨c, b, bs, q, hfree c (presentedBytes_context hp), by simp [ho, hp]⟩))

/-- Everything the block can find to do; the state it goes on with differs in the queue and the schedule alone. -/
theorem State.fetch_cases (s : State) :
    (∃ ts, s.fetch = .idle { s with turns := ts }) ∨
      (∃ i q ts, (∀ c, i.context? = some c → s.busy c = false) ∧
        s.fetch = .run i { s with pending := q, turns := ts }) ∨
      (∃ c b bs q ts, s.busy c = false ∧ s.fetch = .start c (b :: bs) { s with pending := q, turns := ts }) ∨
      (∃ c ts, s.fetch = .resume c { s with turns := ts }) ∨ ∃ c, s.busy c = true ∧ s.fetch = .overlap c := by
  have issue : ∀ (apart : Bool) (ts : List Turn), s.fetch = State.issue apart { s with turns := ts } →
      (∃ ts, s.fetch = .idle { s with turns := ts }) ∨
      (∃ i q ts, (∀ c, i.context? = some c → s.busy c = false) ∧
        s.fetch = .run i { s with pending := q, turns := ts }) ∨
      (∃ c b bs q ts, s.busy c = false ∧ s.fetch = .start c (b :: bs) { s with pending := q, turns := ts }) ∨
      (∃ c ts, s.fetch = .resume c { s with turns := ts }) ∨ ∃ c, s.busy c = true ∧ s.fetch = .overlap c := by
    intro apart ts hf
    rw [hf]
    rcases State.issue_cases apart { s with turns := ts } with h | ⟨i, q, h1, h⟩ | ⟨c, b, bs, q, h1, h⟩ | ⟨c, h1, h⟩
    · exact .inl ⟨ts, h⟩
    · exact .inr (.inl ⟨i, q, ts, h1, h⟩)
    · exact .inr (.inr (.inl ⟨c, b, bs, q, ts, h1, h⟩))
    · exact .inr (.inr (.inr (.inr ⟨c, h1, h⟩)))
  rcases ht : s.turns with _ | ⟨u, ts⟩
  · have hs : { s with turns := [] } = s := by cases s; cases ht; rfl
    rcases hfe : s.feeds with _ | ⟨f, fs⟩
    · rw [← hfe]
      exact issue false [] (by rw [hs]; simp [State.fetch, ht, hfe])
    · rw [← hfe]
      exact .inr (.inr (.inr (.inl ⟨f.ctx, [], by rw [hs]; simp [State.fetch, ht, hfe]⟩)))
  · cases u with
    | whole => exact issue false ts (by simp [State.fetch, ht])
    | start => exact issue true ts (by simp [State.fetch, ht])
    | resume c => exact .inr (.inr (.inr (.inl ⟨c, ts, by simp [State.fetch, ht]⟩)))

/-! The invariant's part of the feeds. -/

/-- What `feedsOk` says. -/
theorem feedsOk_iff {s : State} :
    feedsOk s = true ↔ (∀ f ∈ s.feeds, s.hasCtx f.ctx = true ∧ f.rest ≠ []) ∧ (s.feeds.map Feed.ctx).Nodup := by
  simp [feedsOk, List.all_eq_true]

/-- Opening a feed on a free context keeps it. -/
theorem State.openFeed_feedsOk {s : State} {c : Nat} {bs : List Byte} (h : feedsOk s = true) (hc : s.hasCtx c = true)
    (hb : s.busy c = false) (hbs : bs ≠ []) : feedsOk (s.openFeed c bs) = true := by
  rw [feedsOk_iff] at h ⊢
  obtain ⟨h1, h2⟩ := h
  rw [State.busy_eq_false_iff] at hb
  refine ⟨fun f hf => ?_, ?_⟩
  · rcases List.mem_append.mp hf with hf | hf
    · exact h1 f hf
    · rw [List.mem_singleton.mp hf]; exact ⟨hc, hbs⟩
  · simp only [State.openFeed_feeds, List.map_append, List.map_cons, List.map_nil]
    refine List.nodup_append.mpr ⟨h2, by simp, ?_⟩
    intro a ha b hb' hab
    obtain ⟨f, hf, rfl⟩ := List.mem_map.mp ha
    simp only [List.mem_singleton] at hb'
    exact hb f hf (hab.trans hb')

/-- So does a turn. -/
theorem State.advanceFeed_feedsOk {s : State} {c : Nat} (rest : List Byte) (ev : List Event) (h : feedsOk s = true)
    (hc : s.hasCtx c = true) : feedsOk (s.advanceFeed c rest ev) = true := by
  rw [feedsOk_iff] at h
  obtain ⟨h1, h2⟩ := h
  unfold State.advanceFeed
  split
  · rw [feedsOk_iff]
    exact ⟨fun f hf => h1 f (List.mem_filter.mp hf).1, (List.filter_sublist.map Feed.ctx).nodup h2⟩
  · rename_i hr
    rw [feedsOk_iff]
    refine ⟨fun f hf => ?_, ?_⟩
    · obtain ⟨g, hg, rfl⟩ := List.mem_map.mp hf
      split
      · exact ⟨hc, by simpa using hr⟩
      · exact h1 g hg
    · simp only [State.setFeed_feeds, List.map_map]
      have : (Feed.ctx ∘ fun g : Feed => if g.ctx = c then { ctx := c, rest := rest, events := ev } else g) = Feed.ctx := by
        funext g
        simp only [Function.comp]
        split <;> simp_all
      rw [this]
      exact h2

/-! A feed taken turn by turn, nothing between, is `DEC_FEED` (R60, R155). -/

/-- An outcome of a byte step with the feeds in progress set. -/
def withFeeds (fs : List Feed) : Except Fault (State × List Event) → Except Fault (State × List Event)
  | .error f => .error f
  | .ok (s, ev) => .ok ({ s with feeds := fs }, ev)

/-- No byte step reads the feeds in progress. -/
theorem State.byteStep_feeds (s : State) (c : Nat) (b : Byte) (fs : List Feed) :
    State.byteStep c b { s with feeds := fs } = withFeeds fs (s.byteStep c b) := by
  rw [State.byteStep_eq_armState, State.byteStep_eq_armState]
  change armState _ c (ctxByte s.cfg Config.adapter.decompress (s.ctx c) b) = _
  cases ctxByte s.cfg Config.adapter.decompress (s.ctx c) b with
  | error f => rfl
  | ok r =>
    simp only [armState, withFeeds]
    congr 2
    unfold State.applyArm
    cases r.raised <;> rfl

/-- Nor does a feed. -/
theorem State.feed_feeds (c : Nat) (fs : List Feed) (bs : List Byte) (s : State) :
    State.feed c bs { s with feeds := fs } = withFeeds fs (s.feed c bs) := by
  induction bs generalizing s with
  | nil => rfl
  | cons b bs ih =>
    simp only [State.feed, State.byteStep_feeds]
    cases s.byteStep c b with
    | error f => rfl
    | ok p =>
      simp only [withFeeds, ih]
      cases State.feed c bs p.1 <;> rfl

/-- That many turns of the feed on `c`, one after the other. -/
def State.takeTurns (c : Nat) : Nat → State → Host.Outcome State Fault Refusal
  | 0, s => .next s
  | n + 1, s =>
    match s.resumeFeed c with
    | .next t => State.takeTurns c n t
    | .fault f => .fault f
    | .refused r => .refused r

/-- The turns of a feed with the bytes `b :: bs` left, the only one in progress. -/
theorem State.takeTurns_eq (c : Nat) (s : State) (bs : List Byte) (b : Byte) (ev0 : List Event) :
    State.takeTurns c (bs.length + 1) { s with feeds := [{ ctx := c, rest := b :: bs, events := ev0 }] } =
      match s.feed c (b :: bs) with
      | .error e => .fault e
      | .ok (u, ev) => .next (State.answer (.decoded (ev0 ++ ev) (u.ctx c).status) { u with feeds := [] }) := by
  induction bs generalizing s b ev0 with
  | nil =>
    simp only [List.length_nil, State.takeTurns, State.resumeFeed, State.feedOn, List.find?_cons, decide_true,
      State.byteStep_feeds, State.feed]
    cases s.byteStep c b with
    | error e => rfl
    | ok p => simp [withFeeds, State.advanceFeed, State.closeFeed, State.ctx]
  | cons b2 bs ih =>
    rw [List.length_cons, State.takeTurns, State.feed]
    simp only [State.resumeFeed, State.feedOn, List.find?_cons, decide_true, State.byteStep_feeds]
    cases s.byteStep c b with
    | error e => rfl
    | ok p =>
      obtain ⟨u, e1⟩ := p
      have hadv : State.advanceFeed c (b2 :: bs) (ev0 ++ e1)
          { u with feeds := [{ ctx := c, rest := b :: b2 :: bs, events := ev0 }] } =
            { u with feeds := [{ ctx := c, rest := b2 :: bs, events := ev0 ++ e1 }] } := by
        simp [State.advanceFeed, State.setFeed]
      simp only [withFeeds, hadv, ih]
      cases State.feed c (b2 :: bs) u with
      | error e => rfl
      | ok q => simp

/-- A feed issued apart and given a turn for each of its bytes, nothing between, answers what `DEC_FEED` answers. -/
theorem State.takeTurns_openFeed (c : Nat) (s : State) (b : Byte) (bs : List Byte) (hc : s.hasCtx c = true)
    (hf : s.feeds = []) :
    (s.openFeed c (b :: bs)).takeTurns c (bs.length + 1) = exec (.decFeed c (b :: bs)) s := by
  have h := State.takeTurns_eq c s bs b []
  have ho : s.openFeed c (b :: bs) = { s with feeds := [{ ctx := c, rest := b :: bs, events := [] }] } := by
    simp [State.openFeed, hf]
  rw [ho, h]
  change _ = s.present c (b :: bs)
  rw [State.present, if_pos hc]
  cases hr : State.feed c (b :: bs) s with
  | error e => rfl
  | ok p =>
    have hu : { p.1 with feeds := [] } = p.1 := by
      have := (State.feed_schedule (s' := p.1) (ev := p.2) hr).1
      rw [hf] at this
      rw [← this]
    simp [hu]

end Sys2Proof.Machine
end

