-- ==== Sys2Proof/Laws/Frames.lean ====
section
/-! SUPPORT. What a context does with a whole VarInt, a frame's header and a frame's payload. -/

namespace Sys2Proof.Machine

open Sys2Proof.Safety

theorem toNat_ofNat_62 {v : Nat} (h : v < 2 ^ 62) : (BitVec.ofNat 62 v).toNat = v := by
  simp only [BitVec.toNat_ofNat]; exact Nat.mod_eq_of_lt h

/-- A whole VarInt in any width, from its first byte: `fin` with its value (R85, R127). -/
theorem State.feed_viEncAt {c : Nat} {st : DecState} {k : Config} {fin : Ctx → U62 → Except Fault Arm}
    (hfin : ∀ d b, d.state = st → ctxByte k Config.adapter.decompress d b = viArm fin d b)
    (s : State) (hk : s.cfg = k) (hc : s.hasCtx c = true) (hst : (s.ctx c).state = st) (hrem : (s.ctx c).viRem = 0)
    (w : Width) (v : Nat) (hv : v < 2 ^ w.valueBits) :
    s.feed c (viEncAt w v) = armState s c (fin { s.ctx c with viRem := 0, viAcc := BitVec.ofNat 62 v }
      (BitVec.ofNat 62 v)) := by
  have hdec := viDec_viEncAt w v [] hv
  rw [List.append_nil] at hdec
  have hlen := viEncAt_length w v
  cases hbs : viEncAt w v with
  | nil => rw [hbs] at hlen; have := w.bytes_pos; simp at hlen; omega
  | cons b rest =>
    rw [hbs] at hdec hlen
    simp only [viDec] at hdec
    split at hdec
    · cases hdec
    · simp only [Option.some.injEq, Prod.mk.injEq] at hdec
      obtain ⟨hval, hw⟩ := hdec
      have hrl : rest.length = w.bytes - 1 := by simp only [List.length_cons] at hlen; omega
      rw [hw, List.take_of_length_le (by omega)] at hval
      have htag := widthOfFirst_bytes b
      rw [hw] at htag
      have hmiss : missing (s.ctx c) b = rest.length := by
        rw [missing, if_pos hrem, ← htag, hrl]
      have hgat : gathered (s.ctx c) b = BitVec.ofNat 62 (b.toNat % 64) := by rw [gathered, if_pos hrem]
      cases rest with
      | nil =>
        simp only [beAccumulate] at hval
        simp only [State.feed, State.byteStep_eq_armState, hk, hfin _ _ hst, viArm, viStep_eq, hmiss,
          List.length_nil, if_true, hgat, hval, tookByte]
        simp only [armState]
        cases fin { s.ctx c with viRem := BitVec.ofNat 3 0, viAcc := _ } _ <;> simp [*]
      | cons b' rest' =>
        have hstep : s.byteStep c b = .ok (s.setCtx c (tookByte (s.ctx c) b), []) := by
          rw [State.byteStep_eq_armState, hk, hfin _ _ hst, viArm, viStep_eq, hmiss]
          simp [armState, armEvents, Arm.quiet, State.applyArm]
        have hself := State.ctx_setCtx_self s c (tookByte (s.ctx c) b) ((s.hasCtx_iff c).mp hc)
        have hw8 : w.bytes ≤ 8 := by cases w <;> decide
        rw [State.feed_cons_of_ok hstep, State.feed_vi_rest hfin (b' :: rest') _ (by simpa using hk)
          (by simpa using hc) (by rw [hself]; exact hst) (by simp)
          (by rw [hself]; simp only [tookByte, hmiss, BitVec.toNat_ofNat]
              exact Nat.mod_eq_of_lt (by rw [hrl]; omega)), hself]
        have hsmall : (BitVec.ofNat 62 (b.toNat % 64)).toNat = b.toNat % 64 :=
          toNat_ofNat_62 (by omega)
        have hacc : beAccumulate (tookByte (s.ctx c) b).viAcc.toNat (b' :: rest') = v := by
          simp only [tookByte, hgat, hsmall]; exact hval
        rw [hacc]
        simp only [tookByte, armState]
        cases fin _ _ <;> simp

/-- The type VarInt of a frame, from a frame boundary (R144, R145). -/
theorem State.feed_type {s : State} {c : Nat} (hc : s.hasCtx c = true) (hb : (s.ctx c).atBoundary = true)
    (tw : Width) (t : Nat) (ht : t < 2 ^ tw.valueBits) :
    s.feed c (viEncAt tw t) = armState s c (.ok (armTypeDone s.cfg
      { s.ctx c with viRem := 0, viAcc := BitVec.ofNat 62 t } (BitVec.ofNat 62 t))) := by
  simp only [Ctx.atBoundary, Bool.and_eq_true, decide_eq_true_eq] at hb
  exact State.feed_viEncAt (fun d b h => ctxByte_awaitingType s.cfg _ d b h) s rfl hc hb.1 hb.2 tw t ht

/-- The registers once the type VarInt has completed with a type that is not reserved (R144). -/
def typeTaken (d : Ctx) (t : Nat) : Ctx :=
  { d with viRem := 0, viAcc := BitVec.ofNat 62 t, ftype := BitVec.ofNat 62 t, state := .awaitingLength }

/-- The bytes of a frame whose type is not reserved: after the type the context awaits the length (R144). -/
theorem State.feed_frameBytes {s : State} {c : Nat} (hc : s.hasCtx c = true) (hb : (s.ctx c).atBoundary = true)
    {tw lw : Width} {t : Nat} {p : List Byte} (ht : t < 2 ^ tw.valueBits)
    (hr : isReserved s.cfg t = false) :
    s.feed c (frameBytes tw t lw p) =
      match (s.setCtx c (typeTaken (s.ctx c) t)).feed c (viEncAt lw p.length) with
      | .error f => .error f
      | .ok (s1, e1) =>
        match s1.feed c p with
        | .error f => .error f
        | .ok (s2, e2) => .ok (s2, e1 ++ e2) := by
  have ht62 : t < 2 ^ 62 := Nat.lt_of_lt_of_le ht tw.valueBits_le
  have htype : s.feed c (viEncAt tw t) = .ok (s.setCtx c (typeTaken (s.ctx c) t), []) := by
    rw [State.feed_type hc hb tw t ht]
    simp [armState, armTypeDone, toNat_ofNat_62 ht62, hr, armEvents, Arm.quiet, State.applyArm, typeTaken]
  rw [frameBytes, List.append_assoc, State.feed_append_of_ok htype, State.feed_append]
  cases (s.setCtx c (typeTaken (s.ctx c) t)).feed c (viEncAt lw p.length) with
  | error f => rfl
  | ok q =>
    obtain ⟨s1, e1⟩ := q
    simp only
    cases s1.feed c p <;> simp

/-- The length VarInt after a type that is not reserved (R147, R148). -/
theorem State.feed_length {s : State} {c : Nat} (hc : s.hasCtx c = true) {t : Nat} {d : Ctx} (ht : t < 2 ^ 62)
    (lw : Width) (n : Nat) (hn : n < 2 ^ lw.valueBits) :
    (s.setCtx c (typeTaken d t)).feed c (viEncAt lw n) = armState s c
      (if kindOf s.cfg t = .data then
        .ok (armLengthData { typeTaken d t with viRem := 0, viAcc := BitVec.ofNat 62 n } (BitVec.ofNat 62 n))
      else armLengthAtomic s.cfg Config.adapter.decompress
        { typeTaken d t with viRem := 0, viAcc := BitVec.ofNat 62 n } (BitVec.ofNat 62 n)) := by
  have hself := State.ctx_setCtx_self s c (typeTaken d t) ((s.hasCtx_iff c).mp hc)
  rw [State.feed_viEncAt (st := .awaitingLength) (fun d b h => ctxByte_awaitingLength s.cfg _ d b h)
    (s.setCtx c (typeTaken d t)) rfl (by simpa using hc) (by rw [hself]; rfl) (by rw [hself]; rfl) lw n hn, hself]
  have hft : (BitVec.ofNat 62 t).toNat = t := toNat_ofNat_62 ht
  simp only [typeTaken, hft, armState]
  split <;> rename_i heq <;> split at heq <;> simp_all

/-- The payload of a Data frame: one `DataByte` per byte, `DataEnd` with the last (R151). -/
theorem State.feed_data_payload {c : Nat} : ∀ (p : List Byte) (s : State), s.hasCtx c = true →
    (s.ctx c).state = .awaitingPayload → kindOf s.cfg (s.ctx c).ftype.toNat = .data →
    (s.ctx c).prem.toNat = p.length → p ≠ [] →
    s.feed c p = .ok ((s.setCtx c { s.ctx c with prem := 0, state := .awaitingType }).emit c
      (p.map Event.dataByte ++ [.dataEnd]), p.map Event.dataByte ++ [.dataEnd]) := by
  intro p
  induction p with
  | nil => intro s _ _ _ _ h; exact absurd rfl h
  | cons b p ih =>
    intro s hc hst hkind hprem _
    have hsub : ((s.ctx c).prem - 1).toNat = p.length := by
      have hlt := (s.ctx c).prem.isLt
      have h1 : (1 : U62).toNat = 1 := rfl
      rw [BitVec.toNat_sub, h1, hprem]
      rw [hprem] at hlt
      simp only [List.length_cons] at hlt ⊢
      omega
    have hstep : ctxByte s.cfg Config.adapter.decompress (s.ctx c) b = .ok (armPayloadData (s.ctx c) b) := by
      simp [ctxByte, hst, hkind]
    cases p with
    | nil =>
      have hz : (s.ctx c).prem - 1 = 0 := BitVec.eq_of_toNat_eq (by rw [hsub]; rfl)
      have harm : armPayloadData (s.ctx c) b = .emits { s.ctx c with prem := 0, state := .awaitingType }
          [.dataByte b, .dataEnd] := by simp only [armPayloadData, hz, if_true]
      rw [harm] at hstep
      rw [State.feed_cons_of_ok (State.byteStep_of_arm hstep)]
      simp [armEvents, Arm.emits, State.applyArm]
    | cons b' p' =>
      have hz : (s.ctx c).prem - 1 ≠ 0 := by
        intro h0; rw [h0] at hsub; simp at hsub
      have hone : s.byteStep c b = .ok ((s.setCtx c { s.ctx c with prem := (s.ctx c).prem - 1 }).emit c [.dataByte b],
          [.dataByte b]) := by
        have harm : armPayloadData (s.ctx c) b = .emits { s.ctx c with prem := (s.ctx c).prem - 1 } [.dataByte b] := by
          simp only [armPayloadData, hz, if_false]
        rw [harm] at hstep
        rw [State.byteStep_of_arm hstep]
        simp [armEvents, Arm.emits, State.applyArm]
      have hself : ((s.setCtx c { s.ctx c with prem := (s.ctx c).prem - 1 }).emit c [.dataByte b]).ctx c
          = { s.ctx c with prem := (s.ctx c).prem - 1 } :=
        State.ctx_setCtx_self s c _ ((s.hasCtx_iff c).mp hc)
      rw [State.feed_cons_of_ok hone, ih _ (by simpa [State.hasCtx] using hc) (by rw [hself]; exact hst)
        (by rw [hself]; exact hkind) (by rw [hself]; exact hsub) (by simp), hself]
      simp [State.emit, State.setCtx, List.set_set]

/-! The buffer of an atomic payload. -/

theorem stored_wf {m : Memory} (hm : m.wf = true) (i : Nat) (p : List Byte) : (stored m i p).wf = true := by
  induction p generalizing m i with
  | nil => exact hm
  | cons b p ih => exact ih (Memory.write_wf hm i b) (i + 1)

theorem stored_append (m : Memory) (i : Nat) (p : List Byte) (b : Byte) :
    stored m i (p ++ [b]) = (stored m i p).write (i + p.length) b := by
  induction p generalizing m i with
  | nil => rfl
  | cons x p ih => simp [stored, ih, Nat.add_assoc, Nat.add_comm 1]

/-- What was stored reads back; every other address reads as before (R54). -/
theorem read_stored {m : Memory} (hm : m.wf = true) (i : Nat) (p : List Byte) (j : Nat) :
    Memory.read (stored m i p) j = if h : i ≤ j ∧ j < i + p.length then p[j - i]'(by omega) else Memory.read m j := by
  induction p generalizing m i with
  | nil =>
    have h : ¬ (i ≤ j ∧ j < i + ([] : List Byte).length) := by simp
    rw [dif_neg h]; rfl
  | cons b p ih =>
    rw [stored, ih (Memory.write_wf hm i b), Memory.read_write hm]
    by_cases hj : j = i
    · subst hj
      have h1 : ¬ (j + 1 ≤ j ∧ j < j + 1 + p.length) := by omega
      have h2 : j ≤ j ∧ j < j + (b :: p).length := by simp
      rw [dif_neg h1, dif_pos h2]
      simp
    · by_cases h1 : i + 1 ≤ j ∧ j < i + 1 + p.length
      · have h2 : i ≤ j ∧ j < i + (b :: p).length := by simp only [List.length_cons]; omega
        rw [dif_pos h1, dif_pos h2]
        have h3 : (b :: p)[j - i]? = p[j - (i + 1)]? := by
          rw [show j - i = (j - (i + 1)) + 1 by omega, List.getElem?_cons_succ]
        rw [List.getElem?_eq_getElem (by omega), List.getElem?_eq_getElem (by omega)] at h3
        exact (Option.some.inj h3).symm
      · have h2 : ¬ (i ≤ j ∧ j < i + (b :: p).length) := by simp only [List.length_cons]; omega
        rw [dif_neg h1, dif_neg h2, if_neg hj]

theorem slice_stored {m : Memory} (hm : m.wf = true) (p : List Byte) :
    Memory.slice (stored m 0 p) 0 p.length = p := by
  have h : ∀ n, n ≤ p.length → Memory.slice (stored m 0 p) 0 n = p.take n := by
    intro n
    induction n with
    | zero => intro _; simp [Memory.slice]
    | succ n ih =>
      intro hn
      rw [Memory.slice_succ_right, ih (by omega), read_stored hm]
      have h1 : 0 ≤ 0 + n ∧ 0 + n < 0 + p.length := by omega
      rw [dif_pos h1]
      simp only [Nat.zero_add, Nat.sub_zero]
      exact List.take_append_getElem (by omega)
  rw [h p.length (Nat.le_refl _), List.take_length]

theorem inBuffer_mono {k : Config} {i j : Nat} (h : inBuffer k j = true) (hij : i ≤ j) : inBuffer k i = true := by
  unfold inBuffer at *
  cases hp : k.pbufBytes with
  | none => rfl
  | some n => rw [hp] at h; simp only [decide_eq_true_eq] at h ⊢; omega

/-- The payload of an atomic frame: the bytes are stored, and the last one completes the frame (R149, R150). -/
theorem State.feed_atomic_payload {c : Nat} : ∀ (p : List Byte) (s : State), s.hasCtx c = true →
    (s.ctx c).state = .awaitingPayload → kindOf s.cfg (s.ctx c).ftype.toNat ≠ .data →
    (s.ctx c).prem.toNat = p.length → p ≠ [] → inBuffer s.cfg ((s.ctx c).pcnt + p.length) = true →
    s.feed c p = armState s c (completeAtomic s.cfg Config.adapter.decompress { s.ctx c with
      prem := 0, pcnt := (s.ctx c).pcnt + p.length, pbuf := stored (s.ctx c).pbuf (s.ctx c).pcnt p }) := by
  intro p
  induction p with
  | nil => intro s _ _ _ _ h; exact absurd rfl h
  | cons b p ih =>
    intro s hc hst hkind hprem _ hbuf
    have hsub : ((s.ctx c).prem - 1).toNat = p.length := by
      have hlt := (s.ctx c).prem.isLt
      have h1 : (1 : U62).toNat = 1 := rfl
      rw [BitVec.toNat_sub, h1, hprem]
      rw [hprem] at hlt
      simp only [List.length_cons] at hlt ⊢
      omega
    have hb1 : inBuffer s.cfg ((s.ctx c).pcnt + 1) = true :=
      inBuffer_mono hbuf (by simp only [List.length_cons]; omega)
    have hstep : ctxByte s.cfg Config.adapter.decompress (s.ctx c) b
        = armPayloadAtomic s.cfg Config.adapter.decompress (s.ctx c) b := by
      simp [ctxByte, hst, hkind]
    cases p with
    | nil =>
      have hz : (s.ctx c).prem - 1 = 0 := BitVec.eq_of_toNat_eq (by rw [hsub]; rfl)
      simp only [State.feed, State.byteStep_eq_armState, hstep, armPayloadAtomic, Ctx.memWrite, hb1, if_true, hz,
        List.length_nil, Nat.zero_add, List.length_cons, stored]
      simp only [armState]
      cases completeAtomic _ _ _ <;> simp
    | cons b' p' =>
      have hz : (s.ctx c).prem - 1 ≠ 0 := by
        intro h0; rw [h0] at hsub; simp at hsub
      have hone : s.byteStep c b = .ok (s.setCtx c { s.ctx c with
          prem := (s.ctx c).prem - 1, pcnt := (s.ctx c).pcnt + 1,
          pbuf := Memory.write (s.ctx c).pbuf (s.ctx c).pcnt b }, []) := by
        rw [State.byteStep_eq_armState, hstep]
        simp only [armPayloadAtomic, Ctx.memWrite, hb1, if_true, hz, if_false]
        simp [armState, armEvents, Arm.quiet, State.applyArm]
      have hself := State.ctx_setCtx_self s c { s.ctx c with
          prem := (s.ctx c).prem - 1, pcnt := (s.ctx c).pcnt + 1,
          pbuf := Memory.write (s.ctx c).pbuf (s.ctx c).pcnt b } ((s.hasCtx_iff c).mp hc)
      have hcnt : (s.ctx c).pcnt + 1 + (b' :: p').length = (s.ctx c).pcnt + (b :: b' :: p').length := by
        simp only [List.length_cons]; omega
      rw [State.feed_cons_of_ok hone, ih _ (by simpa using hc) (by rw [hself]; exact hst)
        (by rw [hself]; exact hkind) (by rw [hself]; exact hsub) (by simp)
        (by rw [hself]; exact (hcnt ▸ hbuf : inBuffer s.cfg _ = true)), hself]
      simp only [hcnt, stored, State.setCtx_cfg]
      simp only [armState]
      cases completeAtomic _ _ _ <;> simp

/-- A whole atomic frame from a frame boundary: the header is taken, the payload buffered, and the frame completed by
its last byte (R147 to R150, R157). -/
theorem State.feed_atomic_frame {s : State} {c : Nat} (hc : s.hasCtx c = true) (hb : (s.ctx c).atBoundary = true)
    (hm : (s.ctx c).pbuf.wf = true) {tw lw : Width} {t : U62} {p : List Byte} (ht : t.toNat < 2 ^ tw.valueBits)
    (hl : p.length < 2 ^ lw.valueBits) (hr : isReserved s.cfg t.toNat = false) (hk : kindOf s.cfg t.toNat ≠ .data)
    (hbuf : inBuffer s.cfg p.length = true) :
    ∃ st, s.feed c (frameBytes tw t.toNat lw p) = armState s c
      (let r := parsePayload s.cfg Config.adapter.decompress t p
       match r.outcome with
       | .ok f => .ok { ctx := frameTaken (s.ctx c) t p, events := [.frame f], calls := r.calls, raised := none }
       | .err cause => .ok { ctx := { frameTaken (s.ctx c) t p with state := st }, events := [], calls := r.calls,
                             raised := some cause }
       | .noParser => .error (.noPayloadParser t)) := by
  have hl62 : p.length < 2 ^ 62 := Nat.lt_of_lt_of_le hl lw.valueBits_le
  have hn : (BitVec.ofNat 62 p.length).toNat = p.length := toNat_ofNat_62 hl62
  have hcomplete : ∀ d : Ctx, d.flen = BitVec.ofNat 62 p.length → d.ftype = t → d.pbuf = stored (s.ctx c).pbuf 0 p →
      ({ d with state := .awaitingType } : Ctx) = frameTaken (s.ctx c) t p →
      completeAtomic s.cfg Config.adapter.decompress d =
        match (parsePayload s.cfg Config.adapter.decompress t p).outcome with
        | .ok f => .ok { ctx := frameTaken (s.ctx c) t p, events := [.frame f],
                         calls := (parsePayload s.cfg Config.adapter.decompress t p).calls, raised := none }
        | .err cause => .ok { ctx := d, events := [], calls := (parsePayload s.cfg Config.adapter.decompress t p).calls,
                              raised := some cause }
        | .noParser => .error (.noPayloadParser t) := by
    intro d hflen hft hpb htaken
    have hread : Ctx.memRead s.cfg d d.flen.toNat = .ok p := by
      rw [hflen]
      simp only [Ctx.memRead, hn, hbuf, if_true, hpb, slice_stored hm]
    simp only [completeAtomic, hread]
    rw [htaken, hft] <;>
    cases (parsePayload s.cfg Config.adapter.decompress t p).outcome <;> rfl
  have hlen := State.feed_length (s := s) (d := s.ctx c) hc t.isLt lw p.length hl
  rw [if_neg hk] at hlen
  rw [State.feed_frameBytes hc hb ht hr, hlen]
  have htt : BitVec.ofNat 62 t.toNat = t := by simp
  cases hp : p with
  | nil =>
    subst hp
    refine ⟨.awaitingLength, ?_⟩
    have hz : BitVec.ofNat 62 ([] : List Byte).length = 0 := rfl
    have hd : armLengthAtomic s.cfg Config.adapter.decompress
        { typeTaken (s.ctx c) t.toNat with viRem := 0, viAcc := BitVec.ofNat 62 ([] : List Byte).length }
        (BitVec.ofNat 62 ([] : List Byte).length) = completeAtomic s.cfg Config.adapter.decompress
          (lengthTaken (typeTaken (s.ctx c) t.toNat) (BitVec.ofNat 62 ([] : List Byte).length)) := by
      unfold armLengthAtomic
      rw [hn, if_pos hbuf, if_pos hz]
      rfl
    rw [hd, hcomplete (lengthTaken (typeTaken (s.ctx c) t.toNat) (BitVec.ofNat 62 ([] : List Byte).length)) rfl htt rfl
      (by simp [lengthTaken, typeTaken, frameTaken, stored])]
    simp only [State.feed_nil]
    cases (parsePayload s.cfg Config.adapter.decompress t []).outcome <;>
      simp [armState, armEvents, frameTaken, lengthTaken, typeTaken, stored]
  | cons x xs =>
    rw [← hp]
    have hne : p ≠ [] := by rw [hp]; simp
    refine ⟨.awaitingPayload, ?_⟩
    have hz : BitVec.ofNat 62 p.length ≠ 0 := by
      intro h0
      have := congrArg BitVec.toNat h0
      rw [hn, hp] at this
      simp at this
    have hd : armLengthAtomic s.cfg Config.adapter.decompress
        { typeTaken (s.ctx c) t.toNat with viRem := 0, viAcc := BitVec.ofNat 62 p.length } (BitVec.ofNat 62 p.length)
        = .ok (.quiet { lengthTaken (typeTaken (s.ctx c) t.toNat) (BitVec.ofNat 62 p.length) with
            state := .awaitingPayload }) := by
      simp only [armLengthAtomic, hn, hbuf, if_true, hz, if_false, lengthTaken]
    rw [hd]
    simp only [armState, State.applyArm_quiet]
    have hself := State.ctx_setCtx_self s c { lengthTaken (typeTaken (s.ctx c) t.toNat) (BitVec.ofNat 62 p.length) with
            state := .awaitingPayload } ((s.hasCtx_iff c).mp hc)
    rw [State.feed_atomic_payload p _ (by simpa using hc) (by rw [hself])
      (by rw [hself]; simpa [lengthTaken, typeTaken] using hk) (by rw [hself]; simp only [lengthTaken]; exact hn) hne
      (by rw [hself]; simpa [lengthTaken] using hbuf), hself]
    rw [State.setCtx_cfg, hcomplete _ rfl htt (by simp [lengthTaken, typeTaken])
      (by simp [lengthTaken, typeTaken, frameTaken])]
    cases (parsePayload s.cfg Config.adapter.decompress t p).outcome <;>
      simp [armState, armEvents, Arm.quiet, frameTaken, lengthTaken, typeTaken]

/-- A whole Data frame from a frame boundary: every payload byte forwarded (R148, R151). -/
theorem State.feed_data_frame {s : State} {c : Nat} (hc : s.hasCtx c = true) (hb : (s.ctx c).atBoundary = true)
    {tw lw : Width} {t : U62} {p : List Byte} (ht : t.toNat < 2 ^ tw.valueBits) (hl : p.length < 2 ^ lw.valueBits)
    (hr : isReserved s.cfg t.toNat = false) (hk : kindOf s.cfg t.toNat = .data) :
    s.feed c (frameBytes tw t.toNat lw p) = .ok ((s.setCtx c (dataTaken (s.ctx c) t p.length)).emit c
        (.dataStart (BitVec.ofNat 62 p.length) :: p.map Event.dataByte ++ [.dataEnd]),
      .dataStart (BitVec.ofNat 62 p.length) :: p.map Event.dataByte ++ [.dataEnd]) := by
  have hl62 : p.length < 2 ^ 62 := Nat.lt_of_lt_of_le hl lw.valueBits_le
  have hn : (BitVec.ofNat 62 p.length).toNat = p.length := toNat_ofNat_62 hl62
  have htt : BitVec.ofNat 62 t.toNat = t := by simp
  have hlen := State.feed_length (s := s) (d := s.ctx c) hc t.isLt lw p.length hl
  rw [if_pos hk] at hlen
  rw [State.feed_frameBytes hc hb ht hr, hlen]
  cases hp : p with
  | nil =>
    have hz : BitVec.ofNat 62 ([] : List Byte).length = 0 := rfl
    simp only [hz, armLengthData, if_true, armState, State.applyArm_emits, State.feed_nil]
    simp [armEvents, Arm.emits, dataTaken, typeTaken, htt]
  | cons x xs =>
    rw [← hp]
    have hne : p ≠ [] := by rw [hp]; simp
    have hz : BitVec.ofNat 62 p.length ≠ 0 := by
      intro h0
      have := congrArg BitVec.toNat h0
      rw [hn, hp] at this
      simp at this
    simp only [armLengthData, hz, if_false, armState, State.applyArm_emits]
    have hself : ((s.setCtx c { typeTaken (s.ctx c) t.toNat with
          viRem := 0, viAcc := BitVec.ofNat 62 p.length, flen := BitVec.ofNat 62 p.length,
          prem := BitVec.ofNat 62 p.length, pcnt := 0, state := .awaitingPayload }).emit c
            [.dataStart (BitVec.ofNat 62 p.length)]).ctx c = { typeTaken (s.ctx c) t.toNat with
          viRem := 0, viAcc := BitVec.ofNat 62 p.length, flen := BitVec.ofNat 62 p.length,
          prem := BitVec.ofNat 62 p.length, pcnt := 0, state := .awaitingPayload } :=
      State.ctx_setCtx_self s c _ ((s.hasCtx_iff c).mp hc)
    rw [State.feed_data_payload p _ (by simpa [State.hasCtx] using hc) (by rw [hself])
      (by rw [hself]; simpa [typeTaken] using hk) (by rw [hself]; exact hn) hne, hself]
    simp [armEvents, Arm.emits, State.emit, State.setCtx, List.set_set, dataTaken, typeTaken, htt]

end Sys2Proof.Machine
end

