-- ==== Sys2Proof/Laws/Payload.lean ====
section
/-! SUPPORT. The payload parsers, as the layouts of R92, R96 and R100 and nothing else (R164 to R170). -/

namespace Sys2Proof.Machine

open Sys2Proof.Safety

theorem ofNat_toNat_62 (v : U62) : BitVec.ofNat 62 v.toNat = v := by simp

/-- A payload that is exactly one VarInt. -/
theorem parseSingle_viEncAt {w : Width} {v : U62} (h : w.fits v.toNat = true) :
    parseSingle (viEncAt w v.toNat) = some v := by
  have hd := viDec_viEncAt w v.toNat [] (fits_iff.mp h)
  rw [List.append_nil] at hd
  simp [parseSingle, hd]

/-- Any other payload. -/
theorem parseSingle_none {p : List Byte} (h : ∀ (w : Width) (v : U62), w.fits v.toNat = true → p ≠ viEncAt w v.toNat) :
    parseSingle p = none := by
  unfold parseSingle
  split
  · rfl
  · rename_i v w hd
    split
    · rename_i hw
      have hv := viDec_lt hd
      have hn : (BitVec.ofNat 62 v).toNat = v := by
        rw [BitVec.toNat_ofNat, Nat.mod_eq_of_lt (viDec_lt_62 hd)]
      have he := viEncAt_of_viDec hd
      rw [hw, List.drop_length, List.append_nil] at he
      exact absurd (by rw [hn]; exact he) (h w (BitVec.ofNat 62 v) (by rw [hn]; exact fits_iff.mpr hv))
    · rfl

/-- A payload that partitions into pairs, in any widths. -/
theorem parseEntries_entriesBytes : ∀ (es : List (Width × U62 × Width × U62)) (fuel : Nat), entriesFit es = true →
    (entriesBytes es).length ≤ fuel → parseEntries fuel (entriesBytes es) = some (entriesOf es) := by
  intro es
  induction es with
  | nil => intro fuel _ _; cases fuel <;> rfl
  | cons e es ih =>
    obtain ⟨w1, ident, w2, val⟩ := e
    intro fuel hfit hlen
    simp only [entriesFit, List.all_cons, Bool.and_eq_true] at hfit
    obtain ⟨⟨h1, h2⟩, h3⟩ := hfit
    have hp1 := w1.bytes_pos
    have hp2 := w2.bytes_pos
    simp only [entriesBytes, List.length_append, viEncAt_length] at hlen
    obtain ⟨fuel, rfl⟩ : ∃ n, fuel = n + 1 := ⟨fuel - 1, by omega⟩
    have hd1 := viDec_viEncAt w1 ident.toNat (viEncAt w2 val.toNat ++ entriesBytes es) (fits_iff.mp h1)
    have hd2 := viDec_viEncAt w2 val.toNat (entriesBytes es) (fits_iff.mp h2)
    have hr1 := drop_viEncAt w1 ident.toNat (viEncAt w2 val.toNat ++ entriesBytes es)
    have hr2 := drop_viEncAt w2 val.toNat (entriesBytes es)
    have hih := ih fuel h3 (by omega)
    simp only [entriesBytes, List.append_assoc]
    cases hb : viEncAt w1 ident.toNat ++ (viEncAt w2 val.toNat ++ entriesBytes es) with
    | nil => rw [hb] at hd1; simp [viDec] at hd1
    | cons b p =>
      rw [hb] at hd1 hr1
      simp only [parseEntries, hd1, hr1, hd2, hr2, hih, ofNat_toNat_62, entriesOf, List.map_cons]

/-- What the loop accepts partitions into pairs. -/
theorem entriesBytes_of_parseEntries : ∀ (fuel : Nat) (p : List Byte) (es : List (U62 × U62)),
    parseEntries fuel p = some es → ∃ ws, entriesFit ws = true ∧ p = entriesBytes ws ∧ es = entriesOf ws := by
  intro fuel
  induction fuel with
  | zero =>
    intro p es h
    cases p with
    | nil => simp only [parseEntries, Option.some.injEq] at h; exact ⟨[], rfl, rfl, h.symm⟩
    | cons b p => simp [parseEntries] at h
  | succ fuel ih =>
    intro p es h
    cases p with
    | nil => simp only [parseEntries, Option.some.injEq] at h; exact ⟨[], rfl, rfl, h.symm⟩
    | cons b p =>
      simp only [parseEntries] at h
      split at h
      · cases h
      · rename_i ident w1 hd1
        split at h
        · cases h
        · rename_i val w2 hd2
          split at h
          · cases h
          · rename_i es' hes
            cases h
            obtain ⟨ws, hf, hp, he⟩ := ih _ _ hes
            have hn1 : (BitVec.ofNat 62 ident).toNat = ident := by
              rw [BitVec.toNat_ofNat, Nat.mod_eq_of_lt (viDec_lt_62 hd1)]
            have hn2 : (BitVec.ofNat 62 val).toNat = val := by
              rw [BitVec.toNat_ofNat, Nat.mod_eq_of_lt (viDec_lt_62 hd2)]
            refine ⟨(w1, BitVec.ofNat 62 ident, w2, BitVec.ofNat 62 val) :: ws, ?_, ?_, ?_⟩
            · simp only [entriesFit, List.all_cons, Bool.and_eq_true, hn1, hn2]
              exact ⟨⟨fits_iff.mpr (viDec_lt hd1), fits_iff.mpr (viDec_lt hd2)⟩, hf⟩
            · rw [entriesBytes, hn1, hn2, ← hp, List.append_assoc, ← viEncAt_of_viDec hd2, ← viEncAt_of_viDec hd1]
            · simp [entriesOf, he]

/-! `parse_payload` by kind. -/

theorem parsePayload_field {k : Config} {dec : List Byte → Option FieldList} {t : U62} {p : List Byte}
    {mk : U62 → Frame 62}
    (h : (kindOf k t.toNat = .cancelPush ∧ mk = .cancelPush) ∨ (kindOf k t.toNat = .goAway ∧ mk = .goAway) ∨
      (kindOf k t.toNat = .maxPushId ∧ mk = .maxPushId)) : parsePayload k dec t p = parseField mk p := by
  rcases h with ⟨h, rfl⟩ | ⟨h, rfl⟩ | ⟨h, rfl⟩ <;> simp only [parsePayload, h]

theorem parsePayload_settings {k : Config} {dec : List Byte → Option FieldList} {t : U62} {p : List Byte}
    (h : kindOf k t.toNat = .settings) : parsePayload k dec t p = parseSettings p := by simp only [parsePayload, h]

theorem parsePayload_headers {k : Config} {dec : List Byte → Option FieldList} {t : U62} {p : List Byte}
    (h : kindOf k t.toNat = .headers) : parsePayload k dec t p = parseBlock dec .headers p := by
  simp only [parsePayload, h]

theorem parsePayload_pushPromise {k : Config} {dec : List Byte → Option FieldList} {t : U62} {p : List Byte}
    (h : kindOf k t.toNat = .pushPromise) : parsePayload k dec t p = parsePushPromise dec p := by
  simp only [parsePayload, h]

theorem parsePayload_unknown {k : Config} {dec : List Byte → Option FieldList} {t : U62} {p : List Byte}
    (h : kindOf k t.toNat = .unknown) : parsePayload k dec t p = { calls := [], outcome := .ok (.unknown t p) } := by
  simp only [parsePayload, h]

end Sys2Proof.Machine
end

