-- ==== Sys2Proof/Laws/PerInstr.lean ====
section
/-! SUPPORT. Per instruction: how many bytes of a context's stream it takes (R59, R80, R83, R145). -/

namespace Sys2Proof.Laws.WireLength

open Sys2Proof.Safety

/-- The number of bytes of a term: of a VarInt its width; of a frame its two widths and its payload; of a reserved type
its type's width; a host operation has none (R59, R110). -/
def wireLength : Instr → Option Nat
  | .varint1 _ _ => some 1
  | .varint2 _ _ => some 2
  | .varint4 _ _ => some 4
  | .varint8 _ _ => some 8
  | .data _ tw lw p | .headers _ tw lw p | .cancelPush _ tw lw p | .settings _ tw lw p => some (tw.bytes + lw.bytes + p.length)
  | .pushPromise _ tw lw p | .goAway _ tw lw p | .maxPushId _ tw lw p => some (tw.bytes + lw.bytes + p.length)
  | .unknown _ tw _ lw p => some (tw.bytes + lw.bytes + p.length)
  | .reserved2 _ tw | .reserved6 _ tw | .reserved8 _ tw | .reserved9 _ tw | .reservedLow _ tw _ => some tw.bytes
  | .viEnc _ | .viDec _ | .decByte _ _ | .decFeed _ _ => none
  | .encData _ | .encCancelPush _ | .encGoAway _ | .encMaxPushId _ => none
  | .encSettings _ | .encHeaders _ | .encPushPromise _ _ | .encUnknown _ _ => none
  | .ctxReset _ | .blockReset | .statusRead _ => none

/-- Under every configuration the encoding of an instruction has the bytes its operands say. -/
def Statement (i : Instr) : Prop :=
  ∀ k : Config, (slotBytes (encode k i)).map (fun q => q.2.length) = wireLength i

theorem frameBytes_length (tw : Width) (t : Nat) (lw : Width) (p : List Byte) :
    (frameBytes tw t lw p).length = tw.bytes + lw.bytes + p.length := by simp [frameBytes, Nat.add_assoc]

theorem varint1 (c : Nat) (v : BitVec 6) : Statement (.varint1 c v) := by
  intro k; simp [encode, slotBytes, wireLength, Width.bytes]

theorem varint2 (c : Nat) (v : BitVec 14) : Statement (.varint2 c v) := by
  intro k; simp [encode, slotBytes, wireLength, Width.bytes]

theorem varint4 (c : Nat) (v : BitVec 30) : Statement (.varint4 c v) := by
  intro k; simp [encode, slotBytes, wireLength, Width.bytes]

theorem varint8 (c : Nat) (v : BitVec 62) : Statement (.varint8 c v) := by
  intro k; simp [encode, slotBytes, wireLength, Width.bytes]

theorem data (c : Nat) (tw lw : Width) (p : List Byte) : Statement (.data c tw lw p) := by
  intro k; simp [encode, slotBytes, wireLength, frameBytes_length]

theorem headers (c : Nat) (tw lw : Width) (p : List Byte) : Statement (.headers c tw lw p) := by
  intro k; simp [encode, slotBytes, wireLength, frameBytes_length]

theorem reserved2 (c : Nat) (tw : Width) : Statement (.reserved2 c tw) := by
  intro k; simp [encode, slotBytes, wireLength]

theorem cancelPush (c : Nat) (tw lw : Width) (p : List Byte) : Statement (.cancelPush c tw lw p) := by
  intro k; simp [encode, slotBytes, wireLength, frameBytes_length]

theorem settings (c : Nat) (tw lw : Width) (p : List Byte) : Statement (.settings c tw lw p) := by
  intro k; simp [encode, slotBytes, wireLength, frameBytes_length]

theorem pushPromise (c : Nat) (tw lw : Width) (p : List Byte) : Statement (.pushPromise c tw lw p) := by
  intro k; simp [encode, slotBytes, wireLength, frameBytes_length]

theorem reserved6 (c : Nat) (tw : Width) : Statement (.reserved6 c tw) := by
  intro k; simp [encode, slotBytes, wireLength]

theorem goAway (c : Nat) (tw lw : Width) (p : List Byte) : Statement (.goAway c tw lw p) := by
  intro k; simp [encode, slotBytes, wireLength, frameBytes_length]

theorem reserved8 (c : Nat) (tw : Width) : Statement (.reserved8 c tw) := by
  intro k; simp [encode, slotBytes, wireLength]

theorem reserved9 (c : Nat) (tw : Width) : Statement (.reserved9 c tw) := by
  intro k; simp [encode, slotBytes, wireLength]

theorem maxPushId (c : Nat) (tw lw : Width) (p : List Byte) : Statement (.maxPushId c tw lw p) := by
  intro k; simp [encode, slotBytes, wireLength, frameBytes_length]

theorem reservedLow (c : Nat) (tw : Width) (t : U62) : Statement (.reservedLow c tw t) := by
  intro k; simp [encode, slotBytes, wireLength]

theorem unknown (c : Nat) (tw : Width) (t : U62) (lw : Width) (p : List Byte) : Statement (.unknown c tw t lw p) := by
  intro k; simp [encode, slotBytes, wireLength, frameBytes_length]

theorem viEnc (v : U64) : Statement (.viEnc v) := fun _ => rfl

theorem viDec (s : List Byte) : Statement (.viDec s) := fun _ => rfl

theorem decByte (c : Nat) (b : Byte) : Statement (.decByte c b) := fun _ => rfl

theorem decFeed (c : Nat) (s : List Byte) : Statement (.decFeed c s) := fun _ => rfl

theorem encData (p : List Byte) : Statement (.encData p) := fun _ => rfl

theorem encCancelPush (v : U64) : Statement (.encCancelPush v) := fun _ => rfl

theorem encGoAway (v : U64) : Statement (.encGoAway v) := fun _ => rfl

theorem encMaxPushId (v : U64) : Statement (.encMaxPushId v) := fun _ => rfl

theorem encSettings (es : List (U64 × U64)) : Statement (.encSettings es) := fun _ => rfl

theorem encHeaders (fs : FieldList) : Statement (.encHeaders fs) := fun _ => rfl

theorem encPushPromise (v : U64) (fs : FieldList) : Statement (.encPushPromise v fs) := fun _ => rfl

theorem encUnknown (t : U64) (p : List Byte) : Statement (.encUnknown t p) := fun _ => rfl

theorem ctxReset (c : Nat) : Statement (.ctxReset c) := fun _ => rfl

theorem blockReset : Statement (.blockReset) := fun _ => rfl

theorem statusRead (c : Nat) : Statement (.statusRead c) := fun _ => rfl

end Sys2Proof.Laws.WireLength
end

