-- ==== Sys2Proof/Tests/Slice0.lean ====
section
/-! SUPPORT. Tests: the vectors of 95_test_vectors.md (its ids in the comments), words written out from the patterns of
R83 and R91, a refused term for each check of well-formedness, and a witness for the hypotheses of every obligation. -/

namespace Sys2Proof.Tests

open Sys2Proof.Machine Sys2Proof.Safety

/-! Helpers. -/

/-- The vectors' configuration, with numbers for the two OPEN codes `Cvoor` and `Cadp`. -/
def cfg : Config := { Config.default with codeValueOutOfRange := 0x201, codeAdapterFailure := 0x202 }

/-- The same with `PBUF_BYTES = 4` (vectors B1 to B5). -/
def cfg4 : Config := { cfg with pbufBytes := some 4 }

/-- The same with the boundary at 0x40 (vectors F10 and F11). -/
def cfg40 : Config := { cfg with minReserved := 0x40 }

/-- `reset`. -/
def start (k : Config) : State := State.powerOn k 2

/-- The next state, if there is one. -/
def after : Host.Outcome State Fault Refusal → Option State
  | .next t => some t
  | .fault _ => none
  | .refused _ => none

/-- What the operation returned. -/
def answer (o : Host.Outcome State Fault Refusal) : Option Result := (after o).map State.result

/-- The refusal. -/
def refusal : Host.Outcome State Fault Refusal → Option Refusal
  | .refused r => some r
  | .next _ => none
  | .fault _ => none

/-- The state after `feed 0: bs` from `reset`. -/
def fed (k : Config) (bs : List Byte) : State := (after (exec (.decFeed 0 bs) (start k))).getD (start k)

/-- The registers of context 0 after a feed. -/
def reg (k : Config) (bs : List Byte) : Ctx := (fed k bs).ctx 0

/-- CONN in the vectors' form `(p, code, cause)`. -/
def connOf (s : State) : Bool × U62 × BitVec 3 := (s.conn.closePending, s.conn.closeCode, causeNumber s.conn.closeCause)

/-- The test adapter `TA.compress` of the vectors' section 1. -/
def taCompress (fs : FieldList) : List Byte :=
  fs.flatMap (fun f => BitVec.ofNat 8 f.1.length :: f.1 ++ BitVec.ofNat 8 f.2.length :: f.2)

/-- The test adapter `TA.decompress`; the fuel is the number of bytes. -/
def taRead : Nat → List Byte → Option FieldList
  | _, [] => some []
  | 0, _ :: _ => none
  | fuel + 1, n :: b =>
    match b.drop n.toNat with
    | [] => none
    | m :: b' =>
      if b'.length < m.toNat then none
      else (taRead fuel (b'.drop m.toNat)).map (fun fs => (b.take n.toNat, b'.take m.toNat) :: fs)

def taDecompress (b : List Byte) : Option FieldList := taRead b.length b

theorem runs {o : Host.Outcome State Fault Refusal} (h : (after o).isSome = true) : ∃ t, o = .next t := by
  cases o with
  | next t => exact ⟨t, rfl⟩
  | fault f => exact absurd h (by simp [after])
  | refused r => exact absurd h (by simp [after])

/-! Well-formedness: one refused term for each check, and a term at its edge that passes. -/

theorem test_wf_context : (Instr.decByte 2 0).wellFormed cfg 2 = false ∧ (Instr.decByte 1 0).wellFormed cfg 2 = true := by
  decide

theorem test_wf_type_width :
    (Instr.unknown 0 .v1 0x40 .v1 []).wellFormed cfg 2 = false ∧
      (Instr.unknown 0 .v1 0x3f .v1 []).wellFormed cfg 2 = true := by decide

theorem test_wf_length_width :
    (Instr.data 0 .v1 .v1 (List.replicate 64 0)).wellFormed cfg 2 = false ∧
      (Instr.data 0 .v1 .v1 (List.replicate 63 0)).wellFormed cfg 2 = true := by decide

theorem test_wf_reservedLow :
    (Instr.reservedLow 0 .v1 0x41).wellFormed cfg40 2 = false ∧ (Instr.reservedLow 0 .v1 0x9).wellFormed cfg40 2 = false ∧
      (Instr.reservedLow 0 .v1 0x7).wellFormed cfg40 2 = false ∧ (Instr.reservedLow 0 .v2 0x40).wellFormed cfg40 2 = true := by
  decide

theorem test_wf_unknown :
    (Instr.unknown 0 .v1 0x0 .v1 []).wellFormed cfg 2 = false ∧ (Instr.unknown 0 .v1 0x9 .v1 []).wellFormed cfg 2 = false ∧
      (Instr.unknown 0 .v1 0xa .v1 []).wellFormed cfg 2 = true := by decide

/-- A term that is not encodable is refused by name when it runs. -/
theorem test_refused_term :
    refusal (exec (.unknown 0 .v1 0x40 .v1 []) (start cfg)) = some .noSuchEncoding ∧
      refusal (exec (.data 2 .v1 .v1 []) (start cfg)) = some (.noSuchContext 2) := by decide

/-! Decoding: a word for each wire-level row, written out bit by bit. -/

/-- 00vvvvvv (R83), 37 = 100101. -/
theorem test_decode_varint1 : decode cfg (.varint 1 [0b00100101]) = .ok (.varint1 1 37, none) := by decide

/-- 01 and 14 value bits (R83), 15293 = 11101110111101. -/
theorem test_decode_varint2 : decode cfg (.varint 0 [0b01111011, 0b10111101]) = .ok (.varint2 0 15293, none) := by decide

/-- 10 and 30 value bits (R83), 494878333 = 0x1d7f3e7d. -/
theorem test_decode_varint4 :
    decode cfg (.varint 0 [0b10011101, 0b01111111, 0b00111110, 0b01111101]) = .ok (.varint4 0 494878333, none) := by
  decide

/-- 11 and 62 value bits (R83), 151288809941952652 = 0x2197c5eff14e88c; the byte after it is left. -/
theorem test_decode_varint8 :
    decode cfg (.varint 0 [0b11000010, 0b00011001, 0b01111100, 0b01011110, 0b11111111, 0b00010100, 0b11101000,
      0b10001100, 0b00000001]) = .ok (.varint8 0 151288809941952652, some (.varint 0 [0b00000001])) := by decide

/-- Type 0x0 and length 2 in V2, non-minimal (A10). -/
theorem test_decode_data :
    decode cfg (.frame 0 [0b01000000, 0b00000000, 0b01000000, 0b00000010, 0xaa, 0xbb]) =
      .ok (.data 0 .v2 .v2 [0xaa, 0xbb], none) := by decide

/-- Type 0x1, length 0 (A14). -/
theorem test_decode_headers :
    decode cfg (.frame 1 [0b00000001, 0b00000000]) = .ok (.headers 1 .v1 .v1 [], none) := by decide

/-- Type 0x3, length 2: `05 00`, one byte too many for its field, is decoded all the same (M3, R87). -/
theorem test_decode_cancelPush :
    decode cfg (.frame 0 [0b00000011, 0b00000010, 0x05, 0x00]) = .ok (.cancelPush 0 .v1 .v1 [0x05, 0x00], none) := by
  decide

/-- Type 0x4, length 4 (A15). -/
theorem test_decode_settings :
    decode cfg (.frame 0 [0b00000100, 0b00000100, 0x40, 0x01, 0x40, 0x05]) =
      .ok (.settings 0 .v1 .v1 [0x40, 0x01, 0x40, 0x05], none) := by decide

/-- Type 0x5, length 1 (A13). -/
theorem test_decode_pushPromise :
    decode cfg (.frame 0 [0b00000101, 0b00000001, 0x07]) = .ok (.pushPromise 0 .v1 .v1 [0x07], none) := by decide

/-- Type 0x7, length 1, and the next frame's bytes left (A12). -/
theorem test_decode_goAway :
    decode cfg (.frame 0 [0b00000111, 0b00000001, 0x05, 0x00, 0x02]) =
      .ok (.goAway 0 .v1 .v1 [0x05], some (.frame 0 [0x00, 0x02])) := by decide

/-- Type 0xd, length 1 (A12). -/
theorem test_decode_maxPushId :
    decode cfg (.frame 0 [0b00001101, 0b00000001, 0x09]) = .ok (.maxPushId 0 .v1 .v1 [0x09], none) := by decide

/-- The four explicit reserved types; only the type VarInt is read (F1, F4, F5, F7). -/
theorem test_decode_reserved2 :
    decode cfg (.frame 0 [0b01000000, 0b00000010]) = .ok (.reserved2 0 .v2, none) := by decide

theorem test_decode_reserved6 :
    decode cfg (.frame 0 [0b00000110, 0x00, 0x07]) = .ok (.reserved6 0 .v1, some (.frame 0 [0x00, 0x07])) := by decide

theorem test_decode_reserved8 : decode cfg (.frame 0 [0b00001000]) = .ok (.reserved8 0 .v1, none) := by decide

/-- Type 0x9 in V8 (F6). -/
theorem test_decode_reserved9 :
    decode cfg (.frame 0 [0b11000000, 0, 0, 0, 0, 0, 0, 0b00001001]) = .ok (.reserved9 0 .v8, none) := by decide

/-- 0x21 at or below the boundary 0x40 (F11), and above the boundary 0x9 (RT20). -/
theorem test_decode_reservedLow :
    decode cfg40 (.frame 0 [0b00100001]) = .ok (.reservedLow 0 .v1 0x21, none) := by decide

theorem test_decode_unknown :
    decode cfg (.frame 0 [0b00100001, 0b00001000, 1, 2, 3, 4, 5, 6, 7, 8]) =
      .ok (.unknown 0 .v1 0x21 .v1 [1, 2, 3, 4, 5, 6, 7, 8], none) := by decide

/-- Bytes that end too soon are rejected by name; a host operation is carried as itself (R87, R110). -/
theorem test_decode_incomplete :
    decode cfg (.varint 0 [0x40]) = .error .varintIncomplete ∧ decode cfg (.frame 0 []) = .error .typeIncomplete ∧
      decode cfg (.frame 0 [0x04, 0x40]) = .error .lengthIncomplete ∧
      decode cfg (.frame 0 [0x04, 0x02, 0x01]) = .error .payloadIncomplete ∧
      decode cfg (.call .blockReset) = .ok (.blockReset, none) := by decide

/-- Words as the opcode table gives them (log 16). -/
theorem test_decodeTableWord :
    decodeTableWord 8 0x25 = some (.varint1 0 37) ∧ decodeTableWord 16 0x7bbd = some (.varint2 0 15293) ∧
      decodeTableWord 32 0x9d7f3e7d = some (.varint4 0 494878333) ∧
      decodeTableWord 64 0xc2197c5eff14e88c = some (.varint8 0 151288809941952652) ∧
      decodeTableWord 64 0x4 = some (.settings 0 .v8 .v1 []) ∧ decodeTableWord 64 0x9 = some (.reserved9 0 .v8) ∧
      decodeTableWord 0 0 = none := by decide

/-- It does so too while a feed is in progress on the word's context. -/
theorem test_withFetchWord_busy :
    (after (step (State.withFetchWord { State.reset with
        feeds := [{ ctx := 0, rest := [0x05], events := [] }], turns := [.resume 0] } 8 0x25))).map
      (fun t => ((t.ctx 0).state, (t.ctx 0).ftype)) = some (.awaitingLength, 37) := by decide

/-- `step` runs a table word placed with `withFetchWord` as the first instruction after reset. -/
theorem test_withFetchWord :
    (after (step (State.reset.withFetchWord 64 0x2))).map (fun t => ((t.ctx 0).state, (t.ctx 0).ftype, t.pending)) =
      some (.fatal, 0x2, []) := by decide

/-! The host's schedule (R60, R63, R66, R155). -/

/-- Context 0 has taken the first two bytes of `07 01 05`; its third is due, and the host's next transaction is `06`. -/
def between (ts : List Turn) (c : Nat) : State :=
  { fed cfg [0x07, 0x01] with
    feeds := [{ ctx := 0, rest := [0x05], events := [] }]
    pending := [.call (.decFeed c [0x06])]
    turns := ts }

/-- Between two byte steps of the feed on context 0 a step of context 1 falls, and stops it; the feed waits (R60). -/
theorem test_feed_interleaves :
    (after (step (between [.whole] 1))).map (fun t => ((t.ctx 0).state, (t.ctx 1).state, t.feeds.map Feed.rest)) =
      some (.awaitingPayload, .fatal, [[0x05]]) := by decide

/-- Its turn is the byte step that completes GoAway(5), which the operation then returns (R155). -/
theorem test_feed_returns :
    (after (step (between [.resume 0] 1))).map (fun t => (t.result, t.feeds, t.pending)) =
      some (.decoded [.frame (.goAway 5)] .needMore, [], [.call (.decFeed 1 [0x06])]) := by decide

/-- Issued apart, a feed takes no byte yet; on a context on which a feed is in progress no operation is issued (R63). -/
theorem test_feed_start_overlap :
    (after (step (between [.start] 1))).map (fun t => ((t.ctx 1).state, t.feeds.map Feed.rest)) =
        some (.awaitingType, [[0x05], [0x06]]) ∧
      refusal (step (between [.start] 0)) = some (.overlap 0) := by decide

/-! VarInt operations. -/

/-- E4, E5, E7, E8. -/
theorem test_viEnc_edges :
    answer (exec (.viEnc 63) (start cfg)) = some (.viBytes [0x3f]) ∧
      answer (exec (.viEnc 64) (start cfg)) = some (.viBytes [0x40, 0x40]) ∧
      answer (exec (.viEnc 16383) (start cfg)) = some (.viBytes [0x7f, 0xff]) ∧
      answer (exec (.viEnc 16384) (start cfg)) = some (.viBytes [0x80, 0x00, 0x40, 0x00]) := by decide

/-- E10, E11, E13, E14. -/
theorem test_viEnc_large :
    answer (exec (.viEnc 1073741823) (start cfg)) = some (.viBytes [0xbf, 0xff, 0xff, 0xff]) ∧
      answer (exec (.viEnc 1073741824) (start cfg)) = some (.viBytes [0xc0, 0, 0, 0, 0x40, 0, 0, 0]) ∧
      answer (exec (.viEnc 4611686018427387903) (start cfg)) =
        some (.viBytes [0xff, 0xff, 0xff, 0xff, 0xff, 0xff, 0xff, 0xff]) ∧
      answer (exec (.viEnc 4611686018427387904) (start cfg)) = some .viOutOfRange := by decide

/-- X2, X4, X7, X12. -/
theorem test_viDec :
    answer (exec (.viDec [0x40, 0x25]) (start cfg)) = some (.viValue 37 2) ∧
      answer (exec (.viDec [0xc0, 0, 0, 0, 0, 0, 0, 0x25]) (start cfg)) = some (.viValue 37 8) ∧
      answer (exec (.viDec [0xc2, 0x19, 0x7c, 0x5e, 0xff, 0x14, 0xe8, 0x8c]) (start cfg)) =
        some (.viValue 151288809941952652 8) ∧
      answer (exec (.viDec [0xff, 0xff, 0xff, 0xff, 0xff, 0xff, 0xff, 0xff]) (start cfg)) =
        some (.viValue 4611686018427387903 8) := by decide

/-- X8, X9, X10, X14. -/
theorem test_viDec_short :
    answer (exec (.viDec []) (start cfg)) = some .insufficientData ∧
      answer (exec (.viDec [0x40]) (start cfg)) = some .insufficientData ∧
      answer (exec (.viDec [0xc0, 0, 0, 0]) (start cfg)) = some .insufficientData ∧
      answer (exec (.viDec [0x80, 0x00, 0x40, 0x00, 0xaa, 0xbb]) (start cfg)) = some (.viValue 16384 4) := by decide

/-- K4, after `ff` and after `8c`. -/
theorem test_viStep :
    ((reg cfg [0xc2, 0x19, 0x7c, 0x5e, 0xff]).viRem, (reg cfg [0xc2, 0x19, 0x7c, 0x5e, 0xff]).viAcc) =
        (3, 0x2197c5eff) ∧
      viStep (reg cfg [0xc2, 0x19, 0x7c, 0x5e, 0xff, 0x14, 0xe8]) 0x8c =
        ({ reg cfg [0xc2, 0x19, 0x7c, 0x5e, 0xff, 0x14, 0xe8] with viRem := 0, viAcc := 0x2197c5eff14e88c },
          some 151288809941952652) := by decide

/-- K5 at the wire level: presenting a VarInt row gives its value as a type. -/
theorem test_varint_rows :
    (after (exec (.varint4 0 16384) (start cfg))).map (fun t => ((t.ctx 0).state, (t.ctx 0).viAcc, (t.ctx 0).ftype)) =
        some (.awaitingLength, 16384, 16384) ∧
      (after (exec (.varint1 0 4) (start cfg))).map (fun t => (t.ctx 0).ftype) = some 4 ∧
      (after (exec (.varint2 0 4) (start cfg))).map (fun t => (t.ctx 0).ftype) = some 4 ∧
      (after (exec (.varint8 0 4) (start cfg))).map (fun t => (t.ctx 0).ftype) = some 4 := by decide

/-! Decoder operations. -/

/-- A4: one byte into the length VarInt. -/
theorem test_decByte :
    (after (exec (.decByte 0 0x40) (fed cfg [0x04]))).map
        (fun t => ((t.ctx 0).state, (t.ctx 0).ftype, (t.ctx 0).viRem, (t.ctx 0).viAcc, t.result)) =
      some (.awaitingLength, 4, 1, 0, .decoded [] .needMore) := by decide

/-- M3: the last byte raises, none before it. -/
theorem test_decByte_raises :
    (fed cfg [0x03, 0x02, 0x05]).events = [] ∧
      answer (exec (.decByte 0 0x00) (fed cfg [0x03, 0x02, 0x05])) =
        some (.decoded [.fatal .frameError 0x106] (.fatal (some .frameError) 0x106)) := by decide

/-- A12: three frames in one chunk. -/
theorem test_decFeed :
    answer (exec (.decFeed 0 [0x07, 0x01, 0x05, 0x00, 0x02, 0xaa, 0xbb, 0x0d, 0x01, 0x09]) (start cfg)) =
      some (.decoded [.frame (.goAway 5), .dataStart 2, .dataByte 0xaa, .dataByte 0xbb, .dataEnd, .frame (.maxPushId 9)]
        .needMore) := by decide

/-- Q6: a feed of nothing answers the status. -/
theorem test_decFeed_empty :
    answer (exec (.decFeed 0 []) (fed cfg [0x06])) = some (.decoded [] (.fatal (some .frameUnexpected) 0x105)) ∧
      answer (exec (.decFeed 0 []) (start cfg)) = some (.decoded [] .needMore) := by decide

/-- A5: a partial atomic payload. -/
theorem test_partial_payload :
    ((reg cfg [0x21, 0x08, 1, 2, 3]).state, (reg cfg [0x21, 0x08, 1, 2, 3]).flen, (reg cfg [0x21, 0x08, 1, 2, 3]).prem,
      (reg cfg [0x21, 0x08, 1, 2, 3]).pcnt, (reg cfg [0x21, 0x08, 1, 2, 3]).pbuf.slice 0 3) =
      (.awaitingPayload, 8, 5, 3, [1, 2, 3]) := by decide

/-! Frames on the wire. -/

/-- A7 and A10. -/
theorem test_data :
    answer (exec (.data 0 .v1 .v1 []) (start cfg)) = some (.decoded [.dataStart 0, .dataEnd] .needMore) ∧
      answer (exec (.data 0 .v2 .v2 [0xaa, 0xbb]) (start cfg)) =
        some (.decoded [.dataStart 2, .dataByte 0xaa, .dataByte 0xbb, .dataEnd] .needMore) := by decide

/-- B3: the bound does not apply to Data. -/
theorem test_data_unbounded :
    answer (exec (.data 0 .v1 .v1 [1, 2, 3, 4, 5]) (start cfg4)) =
      some (.decoded [.dataStart 5, .dataByte 1, .dataByte 2, .dataByte 3, .dataByte 4, .dataByte 5, .dataEnd]
        .needMore) := by decide

/-- A14 and M10, M11, with TA. -/
theorem test_headers :
    (parsePayload cfg taDecompress 0x1 []).outcome = .ok (.headers []) ∧
      (parsePayload cfg taDecompress 0x1 [0x05]) =
        { calls := [.decompress [0x05] none], outcome := .err .adapterFailure } ∧
      (parsePayload cfg taDecompress 0x1 [0x01, 0x61, 0x01]).outcome = .err .adapterFailure ∧
      (parsePayload cfg taDecompress 0x1 [0x01, 0x61, 0x01, 0x31, 0x01, 0x61, 0x01, 0x32]).outcome =
        .ok (.headers [([0x61], [0x31]), ([0x61], [0x32])]) := by decide

/-- RT4 and M1, M2. -/
theorem test_cancelPush :
    answer (exec (.cancelPush 0 .v1 .v1 [0xff, 0xff, 0xff, 0xff, 0xff, 0xff, 0xff, 0xff]) (start cfg)) =
        some (.decoded [.frame (.cancelPush 4611686018427387903)] .needMore) ∧
      answer (exec (.cancelPush 0 .v1 .v1 []) (start cfg)) =
        some (.decoded [.fatal .frameError 0x106] (.fatal (some .frameError) 0x106)) ∧
      answer (exec (.cancelPush 0 .v1 .v1 [0x40]) (start cfg)) =
        some (.decoded [.fatal .frameError 0x106] (.fatal (some .frameError) 0x106)) := by decide

/-- RT13, A15, A16. -/
theorem test_settings :
    answer (exec (.settings 0 .v1 .v1 [0x01, 0x3f, 0x06, 0x7f, 0xff, 0x07, 0xbf, 0xff, 0xff, 0xff]) (start cfg)) =
        some (.decoded [.frame (.settings [(1, 63), (6, 16383), (7, 1073741823)])] .needMore) ∧
      answer (exec (.settings 0 .v1 .v1 [0x40, 0x01, 0x40, 0x05]) (start cfg)) =
        some (.decoded [.frame (.settings [(1, 5)])] .needMore) ∧
      answer (exec (.settings 0 .v1 .v1 [0x01, 0x00, 0x01, 0x05]) (start cfg)) =
        some (.decoded [.frame (.settings [(1, 0), (1, 5)])] .needMore) ∧
      settingsLookup [(1, 0), (1, 5)] 1 = some 5 := by decide

/-- M7, M8, M9. -/
theorem test_settings_malformed :
    answer (exec (.settings 0 .v1 .v1 [0x01]) (start cfg)) =
        some (.decoded [.fatal .frameError 0x106] (.fatal (some .frameError) 0x106)) ∧
      answer (exec (.settings 0 .v1 .v1 [0x01, 0x40]) (start cfg)) =
        some (.decoded [.fatal .frameError 0x106] (.fatal (some .frameError) 0x106)) ∧
      answer (exec (.settings 0 .v1 .v1 [0x01, 0x00, 0x40]) (start cfg)) =
        some (.decoded [.fatal .frameError 0x106] (.fatal (some .frameError) 0x106)) := by decide

/-- RT15, A13, M12, with TA. -/
theorem test_pushPromise :
    (parsePayload cfg taDecompress 0x5 [0x7f, 0xff, 0x01, 0x61, 0x01, 0x31, 0x01, 0x61, 0x01, 0x32]).outcome =
        .ok (.pushPromise 16383 [([0x61], [0x31]), ([0x61], [0x32])]) ∧
      (parsePayload cfg taDecompress 0x5 [0x07]).outcome = .ok (.pushPromise 7 []) ∧
      (parsePayload cfg taDecompress 0x5 [0x07, 0x05]).outcome = .err .adapterFailure := by decide

/-- M6, M6b: no push id, and the adapter is not called. -/
theorem test_pushPromise_no_id :
    (after (exec (.pushPromise 0 .v1 .v1 []) (start cfg))).map (fun t => (t.result, t.adapterLog)) =
        some (.decoded [.fatal .frameError 0x106] (.fatal (some .frameError) 0x106), []) ∧
      (after (exec (.pushPromise 0 .v1 .v1 [0x40]) (start cfg))).map (fun t => (t.result, t.adapterLog)) =
        some (.decoded [.fatal .frameError 0x106] (.fatal (some .frameError) 0x106), []) := by decide

/-- A11 and F10. -/
theorem test_goAway :
    answer (exec (.goAway 0 .v1 .v1 [0xc0, 0, 0, 0, 0, 0, 0, 0x01]) (start cfg)) =
        some (.decoded [.frame (.goAway 1)] .needMore) ∧
      answer (exec (.goAway 0 .v1 .v1 [0x05]) (start cfg40)) = some (.decoded [.frame (.goAway 5)] .needMore) := by decide

/-- F9, M5. -/
theorem test_maxPushId :
    answer (exec (.maxPushId 0 .v1 .v1 [0x09]) (start { cfg with minReserved := 0xc })) =
        some (.decoded [.frame (.maxPushId 9)] .needMore) ∧
      answer (exec (.maxPushId 0 .v1 .v1 [0x40, 0x05, 0x00]) (start cfg)) =
        some (.decoded [.fatal .frameError 0x106] (.fatal (some .frameError) 0x106)) := by decide

/-- F1 to F6: the fatal entry and CONN. -/
theorem test_reserved :
    (after (exec (.reserved2 0 .v2) (start cfg))).map (fun t => ((t.ctx 0).state, (t.ctx 0).ftype, connOf t, t.result)) =
        some (.fatal, 2, (true, 0x105, 1), .decoded [.fatal .frameUnexpected 0x105] (.fatal (some .frameUnexpected) 0x105)) ∧
      (after (exec (.reserved6 0 .v1) (start cfg))).map (fun t => ((t.ctx 0).state, (t.ctx 0).ftype)) = some (.fatal, 6) ∧
      (after (exec (.reserved8 0 .v1) (start cfg))).map (fun t => ((t.ctx 0).state, (t.ctx 0).ftype)) = some (.fatal, 8) ∧
      (after (exec (.reserved9 0 .v8) (start cfg))).map (fun t => ((t.ctx 0).state, (t.ctx 0).ftype)) =
        some (.fatal, 9) := by decide

/-- F8, F11. -/
theorem test_reservedLow :
    answer (exec (.reservedLow 0 .v1 0xa) (start { cfg with minReserved := 0xc })) =
        some (.decoded [.fatal .frameUnexpected 0x105] (.fatal (some .frameUnexpected) 0x105)) ∧
      answer (exec (.reservedLow 0 .v1 0x21) (start cfg40)) =
        some (.decoded [.fatal .frameUnexpected 0x105] (.fatal (some .frameUnexpected) 0x105)) := by decide

/-- A9, RT20. -/
theorem test_unknown :
    answer (exec (.unknown 0 .v1 0xa .v1 []) (start cfg)) = some (.decoded [.frame (.unknown 0xa [])] .needMore) ∧
      answer (exec (.unknown 0 .v1 0x21 .v1 [1, 2, 3, 4, 5, 6, 7, 8]) (start cfg)) =
        some (.decoded [.frame (.unknown 0x21 [1, 2, 3, 4, 5, 6, 7, 8])] .needMore) := by decide

/-- B1, B2: the bound is inclusive. -/
theorem test_buffer_bound :
    (after (exec (.decFeed 0 [0x21, 0x05]) (start cfg4))).map
        (fun t => ((t.ctx 0).flen, (t.ctx 0).prem, (t.ctx 0).pcnt, (t.ctx 0).errCode)) = some (5, 5, 0, 0x106) ∧
      (after (exec (.decFeed 0 [0x21, 0x05]) (start cfg4))).map connOf = some (true, 0x106, 4) ∧
      answer (exec (.unknown 0 .v1 0x21 .v1 [1, 2, 3, 4]) (start cfg4)) =
        some (.decoded [.frame (.unknown 0x21 [1, 2, 3, 4])] .needMore) := by decide

/-! The encoder. -/

/-- N1, N2. -/
theorem test_encData :
    answer (exec (.encData []) (start cfg)) = some (.encoded [0x00, 0x00]) ∧
      (after (exec (.encData [0xde, 0xad, 0xbe, 0xef]) (start cfg))).map (fun t => (t.sink, t.released)) =
        some ([0x00, 0x04, 0xde, 0xad, 0xbe, 0xef], [.data [0xde, 0xad, 0xbe, 0xef]]) := by decide

/-- N4: 64 bytes need a length in V2. -/
theorem test_encData_length :
    answer (exec (.encData (List.replicate 64 7)) (start cfg)) =
      some (.encoded ([0x00, 0x40, 0x40] ++ List.replicate 64 7)) := by decide

/-- N6, N7. -/
theorem test_encCancelPush :
    answer (exec (.encCancelPush 63) (start cfg)) = some (.encoded [0x03, 0x01, 0x3f]) ∧
      answer (exec (.encCancelPush 4611686018427387904) (start cfg)) = some (.encodeFatal .valueOutOfRange 0x201) ∧
      (after (exec (.encCancelPush 4611686018427387904) (start cfg))).map (fun t => (t.sink, t.released)) =
        some ([], [.cancelPush 4611686018427387904]) ∧
      (after (exec (.encCancelPush 4611686018427387904) (start cfg))).map connOf = some (true, 0x201, 3) := by decide

/-- N8, N9. -/
theorem test_encGoAway :
    answer (exec (.encGoAway 0) (start cfg)) = some (.encoded [0x07, 0x01, 0x00]) ∧
      answer (exec (.encGoAway 16383) (start cfg)) = some (.encoded [0x07, 0x02, 0x7f, 0xff]) := by decide

/-- N10, N11. -/
theorem test_encMaxPushId :
    answer (exec (.encMaxPushId 1073741823) (start cfg)) = some (.encoded [0x0d, 0x04, 0xbf, 0xff, 0xff, 0xff]) ∧
      answer (exec (.encMaxPushId 4611686018427387903) (start cfg)) =
        some (.encoded [0x0d, 0x08, 0xff, 0xff, 0xff, 0xff, 0xff, 0xff, 0xff, 0xff]) := by decide

/-- N13, N14. -/
theorem test_encSettings :
    answer (exec (.encSettings [(1, 4096), (6, 16384), (7, 100), (0x21, 63)]) (start cfg)) =
        some (.encoded [0x04, 0x0d, 0x01, 0x50, 0x00, 0x06, 0x80, 0x00, 0x40, 0x00, 0x07, 0x40, 0x64, 0x21, 0x3f]) ∧
      answer (exec (.encSettings [(1, 0), (1, 5)]) (start cfg)) =
        some (.encoded [0x04, 0x04, 0x01, 0x00, 0x01, 0x05]) := by decide

/-- N12, N15. -/
theorem test_encSettings_range :
    answer (exec (.encSettings []) (start cfg)) = some (.encoded [0x04, 0x00]) ∧
      answer (exec (.encSettings [(1, 4611686018427387904)]) (start cfg)) =
        some (.encodeFatal .valueOutOfRange 0x201) := by decide

/-- N26, with TA, through the common scheme of R190. -/
theorem test_encHeaders :
    ((start cfg).encodeFrame (.headers [([0x61], [0x31]), ([0x61], [0x32])])
        (buildHeaders taCompress cfg.tHeaders [([0x61], [0x31]), ([0x61], [0x32])])).result =
      .encoded [0x01, 0x08, 0x01, 0x61, 0x01, 0x31, 0x01, 0x61, 0x01, 0x32] := by decide

/-- N27, with TA, and N28: the adapter is not called. -/
theorem test_encPushPromise :
    ((start cfg).encodeFrame (.pushPromise 7 [([0x3a, 0x70, 0x61, 0x74, 0x68], [0x2f])])
        (buildPushPromise taCompress cfg.tPushPromise 7 [([0x3a, 0x70, 0x61, 0x74, 0x68], [0x2f])])).result =
        .encoded [0x05, 0x09, 0x07, 0x05, 0x3a, 0x70, 0x61, 0x74, 0x68, 0x01, 0x2f] ∧
      (after (exec (.encPushPromise 4611686018427387904 [([0x61], [0x31])]) (start cfg))).map
        (fun t => (t.result, t.adapterLog)) = some (.encodeFatal .valueOutOfRange 0x201, []) := by decide

/-- N17, N21, N22, N24. -/
theorem test_encUnknown :
    answer (exec (.encUnknown 0x2 [0x78]) (start cfg)) = some (.encodeFatal .frameUnexpected 0x105) ∧
      answer (exec (.encUnknown 0xa [0x01]) (start cfg)) = some (.encoded [0x0a, 0x01, 0x01]) ∧
      answer (exec (.encUnknown 0x40 []) (start cfg)) = some (.encoded [0x40, 0x40, 0x00]) ∧
      answer (exec (.encUnknown 4611686018427387904 []) (start cfg)) = some (.encodeFatal .valueOutOfRange 0x201) := by
  decide

/-- N29: a known type is not checked. -/
theorem test_encUnknown_known :
    answer (exec (.encUnknown 0x0 [0x68, 0x69]) (start cfg)) = some (.encoded [0x00, 0x02, 0x68, 0x69]) := by decide

/-! Resets, status, CONN. -/

/-- Q3: the reset of a stopped context; CONN keeps its mark. -/
theorem test_ctxReset :
    (after (exec (.ctxReset 0) (fed cfg [0x06]))).map
        (fun t => ((t.ctx 0).state, (t.ctx 0).viRem, (t.ctx 0).errCause, (t.ctx 0).errCode)) =
        some (.awaitingType, 0, none, 0) ∧
      (after (exec (.ctxReset 0) (fed cfg [0x06]))).map connOf = some (true, 0x105, 1) := by decide

/-- Q4. -/
theorem test_blockReset :
    (after (exec .blockReset (fed cfg [0x06]))).map (fun t => ((t.ctx 0).isFatal, (t.ctx 1).atBoundary, connOf t)) =
      some (false, true, (false, 0, 0)) := by decide

/-- A2, by `status 0`. -/
theorem test_statusRead :
    answer (exec (.statusRead 0) (fed cfg [0x40])) =
      some (.status { state := 0, viRem := 1, viAcc := 0, ftype := 0, flen := 0, prem := 0, pcnt := 0, errCause := 0, errCode := 0, fatal := false, midFrame := true, closePending := false, closeCode := 0, closeCause := 0 }) := by
  decide

/-- Q1: the first fatal error wins. -/
theorem test_first_fatal_wins :
    (after (exec (.decFeed 1 [0x06]) (fed cfg [0x04, 0x01, 0x01]))).map
        (fun t => ((t.ctx 0).errCause, (t.ctx 1).errCause, connOf t)) =
      some (some .frameError, some .frameUnexpected, (true, 0x106, 2)) := by decide

/-- The Data bytes of a stream regrouped (R158, program P1), and cut off by a `Fatal`. -/
theorem test_framesOf :
    framesOf [.dataStart 2, .dataByte 0xaa, .dataByte 0xbb, .dataEnd, .frame (.goAway 5)] =
        [.data [0xaa, 0xbb], .goAway 5] ∧
      framesOf [.frame (.goAway 5), .fatal .frameUnexpected 0x105] = [.goAway 5] := by decide

/-! Witnesses: concrete states and operands that meet the hypotheses of each obligation, clause by clause, at the edges. -/

theorem test_witness_varIntCodecLaws :
    (2 ^ 62 : Nat) ≤ 2 ^ 62 ∧ viEnc (2 ^ 62 - 1) = viEnc 4611686018427387903 ∧ viDec [0x40, 0x25] = some (37, .v2) := by
  decide

theorem test_witness_readVarInt : viDec [0xc0, 0, 0, 0] = none ∧ viDec [0x3f, 0x00] = some (63, .v1) := by decide

theorem test_witness_viEncResult :
    ∀ p ∈ [((63 : Nat), (1 : Nat), (0 : Nat)), (64, 2, 1), (16383, 2, 1), (16384, 4, 2), (1073741823, 4, 2), (1073741824, 8, 3), (2 ^ 62, 8, 3)],
      p.2 = (if p.1 < 2 ^ 6 then (1, 0) else if p.1 < 2 ^ 14 then (2, 1) else if p.1 < 2 ^ 30 then (4, 2) else (8, 3)) := by
  decide

theorem test_witness_viDecResult :
    (2 : Nat) = 2 ^ ((0x40 : Byte).toNat / 64) ∧
      (37 : Nat) = ([0x25] : List Byte).foldl (fun a x => a * 256 + x.toNat) ((0x40 : Byte).toNat % 64) ∧
      (2 : Nat) ≤ ([0x25] : List Byte).length + 1 := by decide

theorem test_witness_varIntStep :
    (reg cfg []).viRem = 0 ∧ (reg cfg [0xff]).viRem ≠ 0 ∧ viOk (reg cfg [0xff]) = true ∧ viOk (reg cfg []) = true := by
  decide

theorem test_witness_byteSerialAgrees :
    (reg cfg []).viRem = 0 ∧ viDec [0x40] = none ∧ viDec [0x40, 0x25, 0x00] = some (37, .v2) := by decide

theorem test_witness_varIntNotComplete :
    (start cfg).hasCtx 1 = true ∧ ((start cfg).ctx 1).state = .awaitingType ∧ missing ((start cfg).ctx 1) 0x40 ≠ 0 ∧
      (fed cfg [0x04, 0x80]).hasCtx 0 = true ∧ (reg cfg [0x04, 0x80]).state = .awaitingLength ∧
      missing (reg cfg [0x04, 0x80]) 0x00 ≠ 0 := by decide

theorem test_witness_typeComplete :
    (fed cfg [0x40]).hasCtx 0 = true ∧ (reg cfg [0x40]).state = .awaitingType ∧ missing (reg cfg [0x40]) 0x0a = 0 ∧
      isReserved cfg (gathered (reg cfg [0x40]) 0x0a).toNat = false := by decide

theorem test_witness_typeReserved :
    (fed cfg [0x40]).hasCtx 0 = true ∧ (reg cfg [0x40]).state = .awaitingType ∧ missing (reg cfg [0x40]) 0x09 = 0 ∧
      isReserved cfg (gathered (reg cfg [0x40]) 0x09).toNat = true := by decide

/-- The three clauses: 5 bytes for a buffer of 4; 4 bytes; 0 bytes. -/
theorem test_witness_lengthCompleteAtomic :
    (fed cfg4 [0x21]).hasCtx 0 = true ∧ (reg cfg4 [0x21]).state = .awaitingLength ∧
      kindOf cfg4 (reg cfg4 [0x21]).ftype.toNat = .unknown ∧ missing (reg cfg4 [0x21]) 0x05 = 0 ∧
      gathered (reg cfg4 [0x21]) 0x05 = 5 ∧ gathered (reg cfg4 [0x21]) 0x04 = 4 ∧
      gathered (reg cfg4 [0x21]) 0x00 = 0 ∧ (fed cfg4 [0x21]).cfg.pbufBytes = some 4 := by decide

theorem test_witness_lengthCompleteData :
    (fed cfg4 [0x00]).hasCtx 0 = true ∧ (reg cfg4 [0x00]).state = .awaitingLength ∧
      kindOf cfg4 (reg cfg4 [0x00]).ftype.toNat = .data ∧ missing (reg cfg4 [0x00]) 0x00 = 0 ∧
      gathered (reg cfg4 [0x00]) 0x00 = 0 ∧ missing (reg cfg4 [0x00]) 0x01 = 0 ∧
      gathered (reg cfg4 [0x00]) 0x01 = 1 := by decide

theorem test_witness_atomicPayloadByte :
    (fed cfg4 [0x21, 0x04, 1, 2]).hasCtx 0 = true ∧ (reg cfg4 [0x21, 0x04, 1, 2]).state = .awaitingPayload ∧
      kindOf cfg4 (reg cfg4 [0x21, 0x04, 1, 2]).ftype.toNat ≠ .data ∧
      2 ≤ (reg cfg4 [0x21, 0x04, 1, 2]).prem.toNat ∧
      inBuffer cfg4 ((reg cfg4 [0x21, 0x04, 1, 2]).pcnt + 1) = true ∧ (reg cfg4 [0x21, 0x04, 1, 2]).pbuf.wf = true := by
  decide

theorem test_witness_atomicPayloadLastByte :
    (fed cfg4 [0x21, 0x04, 1, 2, 3]).hasCtx 0 = true ∧ (reg cfg4 [0x21, 0x04, 1, 2, 3]).state = .awaitingPayload ∧
      kindOf cfg4 (reg cfg4 [0x21, 0x04, 1, 2, 3]).ftype.toNat = .unknown ∧
      (reg cfg4 [0x21, 0x04, 1, 2, 3]).prem = 1 ∧
      (reg cfg4 [0x21, 0x04, 1, 2, 3]).flen.toNat = (reg cfg4 [0x21, 0x04, 1, 2, 3]).pcnt + 1 ∧
      inBuffer cfg4 (reg cfg4 [0x21, 0x04, 1, 2, 3]).flen.toNat = true ∧
      (reg cfg4 [0x21, 0x04, 1, 2, 3]).pbuf.wf = true := by decide

theorem test_witness_dataPayloadByte :
    (fed cfg [0x00, 0x02]).hasCtx 0 = true ∧ (reg cfg [0x00, 0x02]).state = .awaitingPayload ∧
      kindOf cfg (reg cfg [0x00, 0x02]).ftype.toNat = .data ∧ (reg cfg [0x00, 0x02]).prem = 2 ∧
      (reg cfg [0x00, 0x02, 0xaa]).state = .awaitingPayload ∧ (reg cfg [0x00, 0x02, 0xaa]).prem = 1 := by decide

theorem test_witness_fatalDiscards : (fed cfg [0x06]).hasCtx 0 = true ∧ (reg cfg [0x06]).state = .fatal := by decide

theorem test_witness_atMostTwoEvents :
    (∃ t, exec (.decByte 0 0x00) (fed cfg [0x00]) = .next t) ∧ feedsBytes (.encData []) = false ∧
      ∃ t, exec (.encData []) (start cfg) = .next t := ⟨runs (by decide), rfl, runs (by decide)⟩

theorem test_witness_feedIsByteSteps : (fed cfg [0x04]).hasCtx 1 = true ∧ inv (fed cfg [0x04]) = true := by decide

theorem test_witness_chunkingInvariance :
    (start cfg).hasCtx 0 = true ∧ (∃ t, exec (.decFeed 0 [0x04]) (start cfg) = .next t) ∧
      ∃ t, exec (.decFeed 0 [0x00]) (fed cfg [0x04]) = .next t := ⟨by decide, runs (by decide), runs (by decide)⟩

theorem test_witness_wireTermIsItsBytes :
    encode cfg (.varint2 0 16383) = .varint 0 [0x7f, 0xff] ∧ (Instr.varint2 0 16383).encodable cfg = true ∧
      encode cfg (.unknown 0 .v1 0x3f .v1 [1]) = .frame 0 [0x3f, 0x01, 0x01] ∧
      (Instr.unknown 0 .v1 0x3f .v1 [1]).encodable cfg = true := by decide

/-- RT20 with a buffer of exactly its 8 bytes. -/
theorem test_witness_roundTrip :
    ∃ t, (start { cfg with pbufBytes := some 8 }).cfg.valid = true ∧
      exec (Frame.request (.unknown 0x21 [1, 2, 3, 4, 5, 6, 7, 8])) (start { cfg with pbufBytes := some 8 }) = .next t ∧
      t.result = .encoded [0x21, 0x08, 1, 2, 3, 4, 5, 6, 7, 8] ∧
      (start { cfg with pbufBytes := some 8 }).hasCtx 0 = true ∧
      ((start { cfg with pbufBytes := some 8 }).ctx 0).atBoundary = true ∧
      ((start { cfg with pbufBytes := some 8 }).ctx 0).pbuf.wf = true ∧
      (∀ k ∈ ({ cfg with pbufBytes := some 8 } : Config).known, k.toNat ≠ 0x21) ∧
      declaredLength [0x21, 0x08, 1, 2, 3, 4, 5, 6, 7, 8] = some 8 ∧ inBuffer { cfg with pbufBytes := some 8 } 8 = true :=
  ⟨_, by decide, rfl, by decide, by decide, by decide, by decide, by simp [Config.known, cfg, Config.default], by decide,
    by decide⟩

theorem test_witness_varintRowsGiveType :
    (start cfg).hasCtx 0 = true ∧ ((start cfg).ctx 0).atBoundary = true ∧
      isReserved cfg ((9 : BitVec 6).setWidth 62).toNat = true ∧ isReserved cfg ((10 : BitVec 14).setWidth 62).toNat = false ∧
      isReserved cfg ((8 : BitVec 30).setWidth 62).toNat = true ∧
      isReserved cfg (4611686018427387903 : U62).toNat = false := by decide

theorem test_witness_dataFrame :
    cfg.valid = true ∧ (start cfg).hasCtx 0 = true ∧ ((start cfg).ctx 0).atBoundary = true ∧
      frameFits .v1 .v1 cfg.tData.toNat [] = true ∧ frameFits .v8 .v1 cfg.tData.toNat (List.replicate 63 0) = true := by
  decide

/-- Both payload clauses for each of the three kinds: a VarInt in V8 at its largest; no VarInt, and one cut short. -/
theorem test_witness_singleVarIntFrames :
    cfg.valid = true ∧ (start cfg).hasCtx 0 = true ∧ ((start cfg).ctx 0).atBoundary = true ∧
      ((start cfg).ctx 0).pbuf.wf = true ∧
      frameFits .v1 .v1 cfg.tCancelPush.toNat (viEncAt .v8 4611686018427387903) = true ∧
      frameFits .v1 .v1 cfg.tGoAway.toNat [] = true ∧ frameFits .v1 .v1 cfg.tMaxPushId.toNat [0x40] = true ∧
      Width.v8.fits (4611686018427387903 : U62).toNat = true ∧ inBuffer cfg 8 = true := by decide

theorem test_witness_singleVarIntFrames_malformed (p : List Byte) (hp : p ∈ ([[], [0x40], [0x05, 0x00]] : List (List Byte)))
    (w : Width) (v : U62) (h : w.fits v.toNat = true) : p ≠ viEncAt w v.toNat := by
  rintro rfl
  have h1 := parseSingle_viEncAt h
  have h2 : ∀ q ∈ ([[], [0x40], [0x05, 0x00]] : List (List Byte)), parseSingle q = none := by decide
  rw [h2 _ hp] at h1
  cases h1

theorem test_witness_settingsFrame :
    cfg4.valid = true ∧ (start cfg4).hasCtx 0 = true ∧ ((start cfg4).ctx 0).atBoundary = true ∧
      ((start cfg4).ctx 0).pbuf.wf = true ∧ frameFits .v1 .v1 cfg4.tSettings.toNat [0x40, 0x01, 0x40, 0x05] = true ∧
      inBuffer cfg4 4 = true ∧ entriesFit [(.v2, 1, .v2, 5)] = true ∧
      entriesBytes [(.v2, 1, .v2, 5)] = [0x40, 0x01, 0x40, 0x05] ∧ entriesFit [] = true ∧ entriesBytes [] = [] := by decide

theorem test_witness_settingsFrame_malformed (es : List (Width × U62 × Width × U62)) (h : entriesFit es = true) :
    [0x01] ≠ entriesBytes es := by
  intro he
  have h1 := parseEntries_entriesBytes es 1 h (by rw [← he]; decide)
  rw [← he] at h1
  have h2 : parseEntries 1 [0x01] = none := by decide
  rw [h2] at h1
  cases h1

theorem test_witness_headersFrame :
    cfg4.valid = true ∧ (start cfg4).hasCtx 0 = true ∧ ((start cfg4).ctx 0).atBoundary = true ∧
      ((start cfg4).ctx 0).pbuf.wf = true ∧ frameFits .v1 .v1 cfg4.tHeaders.toNat [] = true ∧
      frameFits .v1 .v2 cfg4.tHeaders.toNat [1, 2, 3, 4] = true ∧ inBuffer cfg4 4 = true := by decide

theorem test_witness_pushPromiseFrame :
    cfg4.valid = true ∧ (start cfg4).hasCtx 0 = true ∧ ((start cfg4).ctx 0).atBoundary = true ∧
      ((start cfg4).ctx 0).pbuf.wf = true ∧ frameFits .v1 .v1 cfg4.tPushPromise.toNat [0x07] = true ∧
      inBuffer cfg4 1 = true ∧ Width.v1.fits (7 : U62).toNat = true ∧ [0x07] = viEncAt .v1 (7 : U62).toNat ++ [] ∧
      frameFits .v1 .v1 cfg4.tPushPromise.toNat [] = true ∧ frameFits .v1 .v1 cfg4.tPushPromise.toNat [0x40] = true := by
  decide

theorem test_witness_pushPromiseFrame_malformed (p : List Byte) (hp : p ∈ ([[], [0x40]] : List (List Byte)))
    (w : Width) (v : U62) (block : List Byte) (h : w.fits v.toNat = true) : p ≠ viEncAt w v.toNat ++ block := by
  rintro rfl
  have h1 := viDec_viEncAt w v.toNat block (fits_iff.mp h)
  have h2 : ∀ q ∈ ([[], [0x40]] : List (List Byte)), viDec q = none := by decide
  rw [h2 _ hp] at h1
  cases h1

theorem test_witness_unknownFrame :
    (start cfg4).hasCtx 0 = true ∧ ((start cfg4).ctx 0).atBoundary = true ∧ ((start cfg4).ctx 0).pbuf.wf = true ∧
      (Instr.unknown 0 .v1 0xa .v1 [1, 2, 3, 4]).encodable cfg4 = true ∧ inBuffer cfg4 4 = true := by decide

theorem test_witness_reservedRows :
    (start cfg40).hasCtx 0 = true ∧ ((start cfg40).ctx 0).atBoundary = true ∧
      (Instr.reservedLow 0 .v2 0x40).encodable cfg40 = true := by decide

theorem test_witness_oversizedFrame :
    cfg4.valid = true ∧ (start cfg4).hasCtx 0 = true ∧ ((start cfg4).ctx 0).atBoundary = true ∧
      (start cfg4).cfg.pbufBytes = some 4 ∧
      ∀ i ∈ [Instr.headers 0 .v1 .v1 [1, 2, 3, 4, 5], .cancelPush 0 .v1 .v1 [1, 2, 3, 4, 5], .settings 0 .v1 .v1 [1, 2, 3, 4, 5], .pushPromise 0 .v1 .v1 [1, 2, 3, 4, 5], .goAway 0 .v1 .v1 [1, 2, 3, 4, 5], .maxPushId 0 .v1 .v1 [1, 2, 3, 4, 5], .unknown 0 .v1 0x21 .v1 [1, 2, 3, 4, 5]],
        i.encodable cfg4 = true ∧ (atomicFrame cfg4 i).map (fun q => (q.1, q.2.2.2)) = some (0, [1, 2, 3, 4, 5]) := by
  decide

theorem test_witness_atomicFrameStores :
    cfg4.valid = true ∧ (start cfg4).hasCtx 0 = true ∧ ((start cfg4).ctx 0).atBoundary = true ∧
      ((start cfg4).ctx 0).pbuf.wf = true ∧ inBuffer cfg4 4 = true ∧
      ∀ i ∈ [Instr.headers 0 .v1 .v1 [1, 2, 3, 4], .cancelPush 0 .v1 .v1 [1, 2, 3, 4], .settings 0 .v1 .v1 [1, 2, 3, 4], .pushPromise 0 .v1 .v1 [1, 2, 3, 4], .goAway 0 .v1 .v1 [1, 2, 3, 4], .maxPushId 0 .v1 .v1 [1, 2, 3, 4], .unknown 0 .v1 0x21 .v1 [1, 2, 3, 4]],
        i.encodable cfg4 = true ∧ (atomicFrame cfg4 i).map (fun q => (q.1, q.2.2.2)) = some (0, [1, 2, 3, 4]) := by
  decide

/-- Payload lengths on either side of `2^62`, for the branches of the requests. -/
theorem test_witness_enc_lengths :
    (List.replicate (2 ^ 62 - 1) (0 : Byte)).length < 2 ^ 62 ∧ ¬ (List.replicate (2 ^ 62) (0 : Byte)).length < 2 ^ 62 := by
  simp only [List.length_replicate]; decide

theorem test_witness_encSettings :
    [0x01, 0x40, 0x40] = ([((1 : U64), (64 : U64))]).flatMap (fun e => viEncMin e.1.toNat ++ viEncMin e.2.toNat) ∧
      (1 : U64).toNat < 2 ^ 62 ∧ (64 : U64).toNat < 2 ^ 62 ∧ ¬ (4611686018427387904 : U64).toNat < 2 ^ 62 := by decide

theorem test_witness_encReservedRejected :
    (start cfg).cfg.valid = true ∧ isReserved cfg (0x9 : U64).toNat = true ∧ (start cfg).conn.closePending = false ∧
      (fed cfg [0x06]).conn.closePending = true := by decide

theorem test_witness_releaseOnce :
    requestOf (.encGoAway 1) = some (.goAway 1) ∧ requestOf (.decFeed 0 [0x07]) = none ∧
      ∃ t, exec (.decFeed 0 [0x07]) (start cfg) = .next t := ⟨rfl, rfl, runs (by decide)⟩

theorem test_witness_ctxReset : (start cfg).hasCtx 1 = true ∧ (start cfg).hasCtx 2 = false := by decide

theorem test_witness_statusRead :
    (start cfg).hasCtx 1 = true ∧ causeNumber none = 0 ∧ causeNumber (some .frameUnexpected) = 1 ∧
      causeNumber (some .frameError) = 2 ∧ causeNumber (some .valueOutOfRange) = 3 ∧
      causeNumber (some .payloadTooLarge) = 4 ∧ causeNumber (some .adapterFailure) = 5 := by decide

/-- CONN clear and CONN marked; an operation that marks it. -/
theorem test_witness_firstFatalWins :
    (Instr.decByte 0 0x06) ≠ .blockReset ∧ (∃ t, exec (.decByte 0 0x06) (start cfg) = .next t) ∧
      (start cfg).conn.closePending = false ∧ (∃ t, exec (.decByte 1 0x06) (fed cfg [0x06]) = .next t) ∧
      (fed cfg [0x06]).conn.closePending = true :=
  ⟨by decide, runs (by decide), by decide, runs (by decide), by decide⟩

theorem test_witness_fatalIsSticky :
    (reg cfg [0x06]).state = .fatal ∧ (Instr.decFeed 0 [0x07, 0x01, 0x05]) ≠ .ctxReset 0 ∧
      (Instr.decFeed 0 [0x07, 0x01, 0x05]) ≠ .blockReset ∧
      ∃ t, exec (.decFeed 0 [0x07, 0x01, 0x05]) (fed cfg [0x06]) = .next t :=
  ⟨by decide, by decide, by decide, runs (by decide)⟩

theorem test_witness_noGating (c : Nat) : (Instr.encGoAway 1) ≠ .statusRead c := by simp

theorem test_witness_fatalIsPrecise :
    (after (exec (.decByte 0 0x00) (fed cfg [0x03]))).map (fun t => (t.ctx 0).state) = some .fatal ∧
      (reg cfg [0x03]).state ≠ .fatal := by decide

theorem test_witness_isolation :
    (Instr.decByte 0 0x06).context? ≠ some 1 ∧ (Instr.decByte 0 0x06) ≠ .blockReset ∧
      (∃ t, exec (.decByte 0 0x06) (start cfg) = .next t) ∧
      (between [.whole] 1).feedOn 0 = some { ctx := 0, rest := [0x05], events := [] } ∧
      (between [.whole] 1).fetch = .run (.decFeed 1 [0x06]) { between [] 1 with pending := [] } ∧
      ∃ t, step (between [.whole] 1) = .next t :=
  ⟨by decide, by decide, runs (by decide), by decide, by decide, runs (by decide)⟩

/-- The first index outside the bank, and each of the four breaches of R10. -/
theorem test_witness_badOperandsRefused :
    (Instr.decByte 2 0x06).context? = some 2 ∧ (start cfg).hasCtx 2 = false ∧ (Instr.decByte 2 0x06).encodable cfg = true ∧
      ¬ ({ cfg with tHeaders := 0 } : Config).known.Nodup ∧
      (0x9 ∈ ({ cfg with tData := 0x9 } : Config).known ∧ 0x9 ∈ ([0x2, 0x6, 0x8, 0x9] : List U62)) ∧
      2 ^ 62 - 1 ≤ ({ cfg with minReserved := 2 ^ 62 - 1 } : Config).minReserved ∧ (State.powerOn cfg 0).ctxs = [] ∧
      (between [.start] 0).configured = true ∧ decode cfg (.call (.decFeed 0 [0x06])) = .ok (.decFeed 0 [0x06], none) ∧
      (Instr.decFeed 0 [0x06]).context? = some 0 ∧ (between [.start] 0).busy 0 = true := by
  decide

theorem test_witness_configurationFixed : ∃ t, step (start cfg) = .next t := runs (by decide)

theorem test_witness_outputsAppendOnly :
    (∃ t, exec (.encGoAway 1) (start cfg) = .next t) ∧ feedsBytes (.encGoAway 1) = false ∧
      compresses (.encGoAway 1) = false ∧ (∃ t, exec (.decByte 0 0x06) (start cfg) = .next t) ∧
      requestOf (.decByte 0 0x06) = none := ⟨runs (by decide), rfl, rfl, runs (by decide), rfl⟩

/-- A Headers frame whose payload is complete: the step answers whatever the adapter answers. -/
theorem test_witness_decompressCallSites :
    (fed cfg [0x01]).hasCtx 0 = true ∧ ∃ t, exec (.decByte 0 0x00) (fed cfg [0x01]) = .next t := by
  have hc : (fed cfg [0x01]).hasCtx 0 = true := by decide
  obtain ⟨s1, ev, h, -, -⟩ := State.byteStep_inv 0x00 (by decide : inv (fed cfg [0x01]) = true) hc
  exact ⟨hc, s1.answer (.decoded ev (s1.ctx 0).status), by simp only [exec, execDecByte, hc, if_true, h]⟩

theorem test_witness_multiplexer : cfg.valid = true ∧ cfg40.valid = true := by decide

theorem test_witness_decodeEncode :
    cfg40.valid = true ∧ (Instr.reservedLow 0 .v2 0x40).encodable cfg40 = true ∧
      (Instr.data 1 .v8 .v1 (List.replicate 63 0)).encodable cfg40 = true := by decide

theorem test_witness_encodeDecode :
    cfg.valid = true ∧ slotBytes (.frame 0 [0x40, 0x06, 0xff]) = some (0, [0x40, 0x06, 0xff]) ∧
      decode cfg (.frame 0 [0x40, 0x06, 0xff]) = .ok (.reserved6 0 .v2, some (.frame 0 [0xff])) ∧
      slotBytes (.varint 0 [0x25]) = some (0, [0x25]) ∧
      decode cfg (.varint 0 [0x25]) = .ok (.varint1 0 37, none) := by decide

theorem test_witness_stepRunsDecoded :
    (start cfg).configured = true ∧ (start cfg).pending = [] ∧ State.reset.configured = true ∧
      decode cfg (.frame 0 [0x06, 0x00]) = .ok (.reserved6 0 .v1, some (.frame 0 [0x00])) ∧
      decode cfg (.frame 0 [0x04, 0x02]) = .error .payloadIncomplete ∧ (start cfg).busy 0 = false ∧
      (start cfg).turns = [] ∧ (start cfg).feeds = [] := by decide

/-- A turn to start, with bytes to feed and with an operation that presents none. -/
theorem test_witness_stepRunsDecoded_start :
    (between [.start] 1).configured = true ∧ (between [.start] 1).busy 1 = false ∧ (between [.start] 1).hasCtx 1 = true ∧
      decode cfg (.call (.decFeed 1 [0x06])) = .ok (.decFeed 1 [0x06], none) ∧
      presentedBytes cfg (.decFeed 1 [0x06]) = some (1, [0x06]) ∧
      presentedBytes cfg (.goAway 1 .v1 .v1 [0x05]) = some (1, [0x07, 0x01, 0x05]) ∧
      presentedBytes cfg (.statusRead 1) = none := by decide

/-- A feed's turn, given and not given. -/
theorem test_witness_stepRunsDecoded_resume :
    (between [.resume 0] 1).feedOn 0 = some { ctx := 0, rest := [0x05], events := [] } ∧
      (between [] 1).feeds.head? = some { ctx := 0, rest := [0x05], events := [] } ∧
      (after (exec (.decByte 0 0x05) (between [.resume 0] 1))).map State.result =
        some (.decoded [.frame (.goAway 5)] .needMore) := by decide

theorem test_witness_stepKeepsInvariant :
    inv { start cfg with pending := [.frame 0 [0x06, 0x00]] } = true ∧
      ∃ t, step { start cfg with pending := [.frame 0 [0x06, 0x00]] } = .next t := ⟨by decide, runs (by decide)⟩

theorem test_witness_everyOperationCompletes :
    inv (fed cfg [0x21, 0x08, 1, 2, 3]) = true ∧ inv (fed cfg [0x06]) = true ∧
      (Instr.decByte 1 0xff).wellFormed cfg 2 = true ∧ (Instr.encUnknown 0x2 []).wellFormed cfg 2 = true ∧
      inv (between [.resume 0] 1) = true ∧ (between [.resume 0] 1).configured = true ∧
      (between [.resume 0] 1).fetch = .resume 0 (between [] 1) := by decide

theorem test_witness_unspecifiedNotObservable :
    (start cfg).hasCtx 1 = true ∧ Memory.wf [(0, 1), (3, 0xff)] = true ∧ Memory.wf [] = true := by decide

end Sys2Proof.Tests
end

section
/-! What a step of the schedule does to the bank, the feeds and the configuration (R21, R25, R60, R63). -/

namespace Sys2Proof.Machine

open Sys2Proof.Safety

/-- Everything a step can do, with the state it goes on from written out: it differs in the queue and the schedule alone. -/
theorem step_cases {s t : State} (h : step s = .next t) :
    (∃ ts, t = { s with turns := ts }) ∨
      (∃ i q ts, s.fetch = .run i { s with pending := q, turns := ts } ∧
        (∀ c, i.context? = some c → s.busy c = false) ∧ exec i { s with pending := q, turns := ts } = .next t) ∨
      (∃ c b bs q ts, s.busy c = false ∧ s.hasCtx c = true ∧
        t = State.openFeed c (b :: bs) { s with pending := q, turns := ts }) ∨
      ∃ c ts, s.fetch = .resume c { s with turns := ts } ∧ State.resumeFeed c { s with turns := ts } = .next t := by
  obtain ⟨-, hstep⟩ := step_next h
  rcases s.fetch_cases with ⟨ts, hf⟩ | ⟨i, q, ts, hfree, hf⟩ | ⟨c, b, bs, q, ts, hfree, hf⟩ | ⟨c, ts, hf⟩ | ⟨c, -, hf⟩ <;>
    simp only [hf, Fetched.idle.injEq, Fetched.run.injEq, Fetched.start.injEq, Fetched.resume.injEq, reduceCtorEq,
      false_and, exists_false, or_false, false_or] at hstep
  case inl => exact .inl ⟨ts, hstep.symm⟩
  case inr.inl =>
    obtain ⟨_, _, ⟨rfl, rfl⟩, he⟩ := hstep
    exact .inr (.inl ⟨i, q, ts, hf, hfree, he⟩)
  case inr.inr.inl =>
    obtain ⟨_, _, _, ⟨rfl, rfl, rfl⟩, hc, ht⟩ := hstep
    exact .inr (.inr (.inl ⟨c, b, bs, q, ts, hfree, hc, ht⟩))
  case inr.inr.inr.inl =>
    obtain ⟨_, _, ⟨rfl, rfl⟩, he⟩ := hstep
    exact .inr (.inr (.inr ⟨c, ts, hf, he⟩))

/-! The frame of an operation and of a byte step. -/

/-- A byte step keeps the configuration, the number of contexts, the feeds and every other context. -/
theorem State.byteStep_frame {s s' : State} {c : Nat} {b : Byte} {ev : List Event}
    (h : s.byteStep c b = .ok (s', ev)) :
    s'.cfg = s.cfg ∧ s'.ctxs.length = s.ctxs.length ∧ s'.feeds = s.feeds ∧ ∀ c', c ≠ c' → s'.ctx c' = s.ctx c' := by
  obtain ⟨r, -, rfl, -⟩ := State.byteStep_ok h
  exact ⟨by simp, by simp, by simp, fun c' hc => State.applyArm_ctx_other s c c' r hc⟩

/-- A turn of a feed keeps the configuration, the number of contexts, and every other context and its feed. -/
theorem State.resumeFeed_frame {s t : State} {c : Nat} (h : s.resumeFeed c = .next t) :
    t.cfg = s.cfg ∧ t.ctxs.length = s.ctxs.length ∧
      ∀ c', c ≠ c' → t.ctx c' = s.ctx c' ∧ t.feedOn c' = s.feedOn c' := by
  rcases State.resumeFeed_next h with ⟨-, rfl⟩ | ⟨f, -, ⟨-, rfl⟩ | ⟨b, bs, s1, ev, -, hb, rfl⟩⟩
  · exact ⟨rfl, rfl, fun _ _ => ⟨rfl, rfl⟩⟩
  · exact ⟨by simp, by simp, fun c' hc => ⟨State.ctx_congr (by simp) c', State.feedOn_advanceFeed_other _ _ hc⟩⟩
  · obtain ⟨h1, h2, h3, h4⟩ := State.byteStep_frame hb
    refine ⟨by simpa using h1, by simpa using h2, fun c' hc => ⟨?_, ?_⟩⟩
    · rw [State.ctx_congr (State.advanceFeed_ctxs s1 c bs _) c', h4 c' hc]
    · rw [State.feedOn_advanceFeed_other _ _ hc, State.feedOn_congr h3]

/-- An encode request leaves the configuration and the bank alone (R190). -/
theorem State.encodeFrame_frame (s : State) (f : Frame 64) (b : Built) :
    (s.encodeFrame f b).cfg = s.cfg ∧ (s.encodeFrame f b).ctxs = s.ctxs := by
  rcases State.encodeFrame_cases s f b with ⟨cause, h⟩ | ⟨t, p, -, -, h⟩ <;> rw [h] <;> exact ⟨rfl, rfl⟩

/-- No operation changes the configuration or the number of contexts, nor, short of `BLOCK_RESET`, a context it does not
name (R21, R25). -/
theorem exec_frame {i : Instr} {s t : State} (h : exec i s = .next t) :
    t.cfg = s.cfg ∧ t.ctxs.length = s.ctxs.length ∧
      (i ≠ .blockReset → ∀ c, i.context? ≠ some c → t.ctx c = s.ctx c) := by
  cases hf : feedsBytes i with
  | true =>
    obtain ⟨c, bs, s1, ev, hc, -, h1, rfl⟩ := exec_feeds_next hf h
    obtain ⟨a1, -, -, -, -, -, a2, -, -, a3⟩ := State.feed_frame h1
    exact ⟨a1, a2, fun _ c' hn => a3 c' fun he => hn (he ▸ hc)⟩
  | false =>
    cases hr : requestOf i with
    | some f =>
      obtain ⟨b, rfl, -⟩ := exec_request_next hr h
      obtain ⟨h1, h2⟩ := State.encodeFrame_frame s f b
      exact ⟨h1, by rw [h2], fun _ c _ => State.ctx_congr h2 c⟩
    | none =>
      rcases exec_other_next hf hr h with ⟨v, -, rfl⟩ | ⟨bs, -, rfl⟩ | ⟨c, rfl, -, rfl⟩ | ⟨rfl, rfl⟩ | ⟨c, -, -, rfl⟩
      case inr.inr.inl =>
        exact ⟨rfl, by simp, fun _ c' hn => State.ctx_setCtx_other s c c' _ fun he => hn (congrArg some he)⟩
      case inr.inr.inr.inl => exact ⟨rfl, by simp, fun hb => absurd rfl hb⟩
      all_goals exact ⟨rfl, rfl, fun _ _ _ => rfl⟩

/-- Settles O48: each thing a step can do keeps the two. -/
theorem configurationFixed : Obligations.ConfigurationFixed := by
  intro s t h
  rcases step_cases h with ⟨ts, rfl⟩ | ⟨i, q, ts, -, -, he⟩ | ⟨c, b, bs, q, ts, -, -, rfl⟩ | ⟨c, ts, -, he⟩
  · exact ⟨rfl, rfl⟩
  · obtain ⟨h1, h2, -⟩ := exec_frame he
    exact ⟨h1, h2⟩
  · exact ⟨rfl, rfl⟩
  · obtain ⟨h1, h2, -⟩ := State.resumeFeed_frame he
    exact ⟨h1, h2⟩

/-! No operation reads a context it does not name (R25): it commutes with a write to that context. -/

theorem State.setCtx_comm (s : State) {c c' : Nat} (d d' : Ctx) (h : c ≠ c') :
    (s.setCtx c d).setCtx c' d' = (s.setCtx c' d').setCtx c d := by
  simp only [State.setCtx, List.set_comm d d' h]

/-- The fatal entry of a decoder step on another context. -/
theorem State.raiseFatal_setCtx_other (s : State) {c c' : Nat} (d : Ctx) (cause : Cause) (h : c ≠ c') :
    (s.setCtx c d).raiseFatal (some c') cause = (s.raiseFatal (some c') cause).setCtx c d := by
  apply State.ext_fields <;> simp [State.ctx_setCtx_other s c c' d h, List.set_comm _ _ h]

theorem State.applyArm_setCtx_other (s : State) {c c' : Nat} (d : Ctx) (r : Arm) (h : c ≠ c') :
    (s.setCtx c d).applyArm c' r = (s.applyArm c' r).setCtx c d := by
  unfold State.applyArm
  rw [State.setCtx_comm s d r.ctx h]
  cases r.raised with
  | none => rfl
  | some cause =>
    exact State.raiseFatal_setCtx_other (((s.setCtx c' r.ctx).emit c' r.events).logCalls r.calls) d cause h

theorem State.byteStep_setCtx_other (s : State) {c c' : Nat} (d : Ctx) (b : Byte) (h : c ≠ c') :
    (s.setCtx c d).byteStep c' b = (s.byteStep c' b).map (Prod.map (State.setCtx c d) id) := by
  rw [State.byteStep_eq_armState, State.byteStep_eq_armState, State.ctx_setCtx_other s c c' d h, State.setCtx_cfg]
  cases ctxByte s.cfg Config.adapter.decompress (s.ctx c') b with
  | error f => rfl
  | ok r => simp only [armState, State.applyArm_setCtx_other s d r h] <;> rfl

theorem State.feed_setCtx_other {c c' : Nat} (d : Ctx) (h : c ≠ c') (bs : List Byte) (s : State) :
    (s.setCtx c d).feed c' bs = (s.feed c' bs).map (Prod.map (State.setCtx c d) id) := by
  induction bs generalizing s with
  | nil => rfl
  | cons b bs ih =>
    simp only [State.feed, State.byteStep_setCtx_other s d b h]
    cases s.byteStep c' b with
    | error f => rfl
    | ok p =>
      simp only [Except.map, Prod.map, id, ih]
      cases p.1.feed c' bs <;> rfl

theorem State.present_setCtx_other (s : State) {c c' : Nat} (d : Ctx) (bs : List Byte) (h : c ≠ c') :
    (s.setCtx c d).present c' bs = onNext (State.setCtx c d) (s.present c' bs) := by
  unfold State.present
  rw [State.hasCtx_setCtx, State.feed_setCtx_other d h]
  cases s.hasCtx c' with
  | false => rfl
  | true =>
    cases s.feed c' bs with
    | error f => rfl
    | ok p =>
      simp only [if_true, Except.map, Prod.map, id, State.ctx_setCtx_other p.1 c c' d h]
      rfl

theorem State.encodeFrame_setCtx (s : State) (c : Nat) (d : Ctx) (f : Frame 64) (b : Built) :
    (s.setCtx c d).encodeFrame f b = (s.encodeFrame f b).setCtx c d := by
  rcases ho : b.outcome with cause | ⟨t, p⟩
  · simp only [State.encodeFrame_error ho] <;> rfl
  · by_cases hp : p.length < 2 ^ 62
    · simp only [State.encodeFrame_ok ho hp] <;> rfl
    · simp only [State.encodeFrame_long ho (Nat.le_of_not_lt hp)] <;> rfl

theorem exec_setCtx_other {i : Instr} {c : Nat} (d : Ctx) (s : State) (hc : i.context? ≠ some c) (hb : i ≠ .blockReset) :
    exec i (s.setCtx c d) = onNext (State.setCtx c d) (exec i s) := by
  have hne : ∀ c', i.context? = some c' → c ≠ c' := fun c' h he => hc (he ▸ h)
  rcases instr_shape i with h | ⟨f, h⟩ | ⟨v, rfl⟩ | ⟨bs, rfl⟩ | ⟨c', rfl⟩ | rfl | ⟨c', rfl⟩
  · obtain ⟨c', bs, hc', he⟩ := exec_feeds h s.cfg
    rw [he s rfl, he (s.setCtx c d) rfl]
    split
    · exact State.present_setCtx_other s d bs (hne c' hc')
    · rfl
  · obtain ⟨b, -, he⟩ := exec_request h s.cfg s.adapterLog
    rw [he s rfl rfl, he (s.setCtx c d) rfl rfl, State.encodeFrame_setCtx]
    rfl
  · rfl
  · rfl
  · have hcomm : (s.setCtx c d).resetCtx c' = (s.resetCtx c').setCtx c d := by
      simp only [State.resetCtx, State.setCtx_comm s d _ (hne c' rfl)] <;> rfl
    change execCtxReset c' _ = onNext _ (execCtxReset c' s)
    simp only [execCtxReset, State.hasCtx_setCtx, hcomm]
    split <;> rfl
  · exact absurd rfl hb
  · change execStatusRead c' _ = onNext _ (execStatusRead c' s)
    simp only [execStatusRead, State.hasCtx_setCtx, State.ctx_setCtx_other s c c' d (hne c' rfl)]
    split <;> rfl

/-- A step that is neither the turn of the feed on `c` nor `BLOCK_RESET` leaves the context and the feed (R60, R63). -/
theorem step_feedOn_other {c : Nat} {f : Feed} {s t : State} (hf : s.feedOn c = some f)
    (hr : ∀ u, s.fetch ≠ .resume c u) (hb : ∀ u, s.fetch ≠ .run .blockReset u) (h : step s = .next t) :
    t.ctx c = s.ctx c ∧ t.feedOn c = some f := by
  have hbusy : s.busy c = true := by simp [State.busy, hf]
  rcases step_cases h with ⟨ts, rfl⟩ | ⟨i, q, ts, hrun, hfree, he⟩ | ⟨c', b, bs, q, ts, -, -, rfl⟩ | ⟨c', ts, hres, he⟩
  · exact ⟨rfl, hf⟩
  · have hi : i ≠ .blockReset := fun hi => hb _ (hi ▸ hrun)
    have hname : i.context? ≠ some c := fun hn => by simp [hfree c hn] at hbusy
    obtain ⟨-, -, hctx⟩ := exec_frame he
    exact ⟨hctx hi c hname, (State.feedOn_congr (exec_schedule he).1 c).trans hf⟩
  · exact ⟨rfl, State.feedOn_openFeed c' (b :: bs) hf⟩
  · have hne : c' ≠ c := fun hc => hr _ (hc ▸ hres)
    obtain ⟨-, -, hother⟩ := State.resumeFeed_frame he
    obtain ⟨h1, h2⟩ := hother c hne
    exact ⟨h1, h2.trans hf⟩

/-- Settles O46: the frame of `exec`, its commuting with a write to a context it does not name, and each thing a step can
do while a feed is in progress. -/
theorem isolation : Obligations.Isolation := by
  refine ⟨fun i c s t hc hb h => ?_, fun i c d s hc hb => exec_setCtx_other d s hc hb,
    fun c f s t hf hr hb h => step_feedOn_other hf hr hb h⟩
  obtain ⟨-, -, hctx⟩ := exec_frame h
  exact hctx hb c hc

end Sys2Proof.Machine
end

section
/-! The invariant, the latch of CONN and the refusals, over every operation and every step (R24, R37, R63, R250). -/

namespace Sys2Proof.Machine

open Sys2Proof.Safety

/-! The invariant under each operation. -/

/-- The invariant's part of the feeds. -/
theorem feedsOk_of_inv {s : State} (h : inv s = true) : feedsOk s = true := by
  obtain ⟨-, -, -, hfeeds⟩ := inv_iff.mp h
  exact hfeeds

/-- `CTX_RESET` leaves old contexts and one at reset, which meets R37 and is not stopped (R228). -/
theorem State.resetCtx_inv {s : State} (c : Nat) (hi : inv s = true) : inv (s.resetCtx c) = true := by
  rw [inv_iff] at hi ⊢
  obtain ⟨hctx, hconn, hmark, hfeeds⟩ := hi
  have hmem : ∀ d ∈ (s.resetCtx c).ctxs, d ∈ s.ctxs ∨ d = Ctx.afterReset s.draws :=
    fun d hd => List.mem_or_eq_of_mem_set hd
  refine ⟨fun d hd => ?_, hconn, fun ⟨d, hd, hf⟩ => ?_, (feedsOk_congr (s.resetCtx_feeds c) (by simp)).trans hfeeds⟩
  · rcases hmem d hd with h | rfl
    · exact hctx d h
    · exact ctxOk_atReset ..
  · rcases hmem d hd with h | rfl
    · exact hmark ⟨d, h, hf⟩
    · cases hf

/-- `BLOCK_RESET` needs the feeds alone: every context is at reset and CONN is clear (R229). -/
theorem State.resetBlock_inv {s : State} (hfeeds : feedsOk s = true) : inv s.resetBlock = true := by
  refine inv_iff.mpr ⟨fun d hd => ?_, by simp [connOk, Conn.clear], fun ⟨d, hd, hf⟩ => ?_,
    (feedsOk_congr s.resetBlock_feeds (by simp)).trans hfeeds⟩ <;> obtain ⟨a, f, n, rfl⟩ := mem_resetCtxs hd
  · exact ctxOk_atReset ..
  · cases hf

/-- An encode request can only mark CONN (R193). -/
theorem State.encodeFrame_inv {s : State} (f : Frame 64) (b : Built) (hi : inv s = true) :
    inv (s.encodeFrame f b) = true := by
  rcases State.encodeFrame_cases s f b with ⟨cause, h⟩ | ⟨t, p, -, -, h⟩ <;> rw [h]
  · obtain ⟨hctx, hconn, -, hfeeds⟩ := inv_iff.mp hi
    exact inv_iff.mpr ⟨hctx, connOk_latch hconn cause, fun _ => Conn.latch_pending .., hfeeds⟩
  · exact hi

/-- Every operation keeps the invariant. -/
theorem exec_inv {i : Instr} {s t : State} (hi : inv s = true) (h : exec i s = .next t) : inv t = true := by
  cases hf : feedsBytes i with
  | true =>
    obtain ⟨c, bs, s1, ev, -, hc, hfeed, rfl⟩ := exec_feeds_next hf h
    obtain ⟨s2, ev2, hfeed2, hi2, -⟩ := State.feed_inv bs s hi hc
    rw [hfeed] at hfeed2
    cases hfeed2
    exact hi2
  | false =>
    cases hr : requestOf i with
    | some f =>
      obtain ⟨b, rfl, -⟩ := exec_request_next hr h
      exact State.encodeFrame_inv f b hi
    | none =>
      rcases exec_other_next hf hr h with ⟨v, -, rfl⟩ | ⟨bs, -, rfl⟩ | ⟨c, -, -, rfl⟩ | ⟨-, rfl⟩ | ⟨c, -, -, rfl⟩
      · exact hi
      · exact hi
      · exact State.resetCtx_inv c hi
      · exact State.resetBlock_inv (feedsOk_of_inv hi)
      · exact hi

/-! The invariant under the moves of the schedule. -/

/-- A feed that is opened or advanced changes no more than `feedsOk` sees. -/
theorem inv_of_feedsOk {s t : State} (hi : inv s = true) (h1 : t.cfg = s.cfg) (h2 : t.ctxs = s.ctxs)
    (h3 : t.conn = s.conn) (h4 : feedsOk t = true) : inv t = true := by
  rw [inv_iff] at hi ⊢
  obtain ⟨hctx, hconn, hmark, -⟩ := hi
  exact ⟨by rwa [h1, h2], by rwa [h1, h3], by rwa [h2, h3], h4⟩

theorem State.advanceFeed_inv {s : State} {c : Nat} (rest : List Byte) (ev : List Event) (hi : inv s = true)
    (hc : s.hasCtx c = true) : inv (s.advanceFeed c rest ev) = true :=
  inv_of_feedsOk hi (by simp) (by simp) (by simp) (State.advanceFeed_feedsOk rest ev (feedsOk_of_inv hi) hc)

/-- A turn of a feed keeps the invariant. -/
theorem State.resumeFeed_inv {s t : State} {c : Nat} (hi : inv s = true) (h : s.resumeFeed c = .next t) :
    inv t = true := by
  rcases State.resumeFeed_next h with ⟨-, rfl⟩ | ⟨f, hf, hturn⟩
  · exact hi
  · obtain ⟨hmem, rfl⟩ := State.feedOn_mem hf
    obtain ⟨hfeeds, -⟩ := feedsOk_iff.mp (feedsOk_of_inv hi)
    obtain ⟨hc, -⟩ := hfeeds f hmem
    rcases hturn with ⟨-, rfl⟩ | ⟨b, bs, s1, ev, -, hb, rfl⟩
    · exact State.advanceFeed_inv _ _ hi hc
    · obtain ⟨s2, ev2, hb2, hi2, hc2⟩ := State.byteStep_inv b hi hc
      rw [hb] at hb2
      cases hb2
      exact State.advanceFeed_inv _ _ hi2 hc2

/-- Settles O58: the operation, the feed that opens and the turn each keep the invariant. -/
theorem stepKeepsInvariant : Obligations.StepKeepsInvariant := by
  intro s t hi h
  rcases step_cases h with ⟨ts, rfl⟩ | ⟨i, q, ts, -, -, he⟩ | ⟨c, b, bs, q, ts, hfree, hc, rfl⟩ | ⟨c, ts, -, he⟩
  · exact hi
  · exact exec_inv (s := { s with pending := q, turns := ts }) hi he
  · exact inv_of_feedsOk hi rfl rfl rfl
      (State.openFeed_feedsOk (s := { s with pending := q, turns := ts }) (feedsOk_of_inv hi) hc hfree (by simp))
  · exact State.resumeFeed_inv (s := { s with turns := ts }) hi he

/-! The latch of CONN (R24, R250). -/

/-- How the bytes presented to `c` since `s` have left CONN: as it was, or, from a clear mark, holding the cause and the
code that stopped `c`. -/
def LatchedSince (s : State) (c : Nat) (u : State) : Prop :=
  u.conn = s.conn ∨ s.conn.closePending = false ∧ ∃ cause,
    u.conn = { closePending := true, closeCode := codeOf s.cfg cause, closeCause := some cause } ∧
      (u.ctx c).status = .fatal (some cause) (codeOf s.cfg cause)

/-- A byte step keeps `LatchedSince`: a stopped context discards the byte, and a running one can only latch (R143, R250). -/
theorem State.byteStep_latched {s u u' : State} {c : Nat} {b : Byte} {ev : List Event} (hc : u.hasCtx c = true)
    (hcfg : u.cfg = s.cfg) (hl : LatchedSince s c u) (h : u.byteStep c b = .ok (u', ev)) : LatchedSince s c u' := by
  obtain ⟨r, hr, rfl, -⟩ := State.byteStep_ok h
  by_cases hst : (u.ctx c).state = .fatal
  · rw [ctxByte_fatal hst] at hr
    cases hr
    rwa [State.applyArm_quiet, State.setCtx_ctx]
  · have hconn : u.conn = s.conn := by
      rcases hl with h | ⟨-, cause, -, h⟩
      · exact h
      · simp [Ctx.status, hst] at h
    unfold LatchedSince
    rw [State.applyArm_conn, State.applyArm_ctx_self u c r hc, hcfg, hconn]
    cases hra : r.raised with
    | none => exact .inl rfl
    | some cause =>
      cases hp : s.conn.closePending with
      | true => exact .inl (Conn.latch_of_pending _ _ _ hp)
      | false => exact .inr ⟨rfl, cause, by simp [Conn.latch, hp], by simp [armCtx, hra, Ctx.status]⟩

/-- So does a feed. -/
theorem State.feed_latched {s s' : State} {c : Nat} {bs : List Byte} {ev : List Event} (hc : s.hasCtx c = true)
    (h : s.feed c bs = .ok (s', ev)) : LatchedSince s c s' := by
  obtain ⟨-, -, hl⟩ := State.feed_induction (P := fun u => u.hasCtx c = true ∧ u.cfg = s.cfg ∧ LatchedSince s c u)
    (fun u u' b e ⟨hu, hcfg, hl⟩ hb => by
      obtain ⟨h1, h2, -⟩ := State.byteStep_frame hb
      exact ⟨by simpa only [State.hasCtx, h2] using hu, h1.trans hcfg, State.byteStep_latched hu hcfg hl hb⟩)
    bs s s' ev ⟨hc, rfl, .inl rfl⟩ h
  exact hl

/-- How an operation that goes on to `t` leaves CONN: as it was, or, from a clear mark, holding the cause and the code of
the fatal error it answers. -/
def LatchedBy (s t : State) : Prop :=
  t.conn = s.conn ∨ s.conn.closePending = false ∧ ∃ cause,
    t.conn = { closePending := true, closeCode := codeOf s.cfg cause, closeCause := some cause } ∧
      (t.result = .encodeFatal cause (codeOf s.cfg cause) ∨
        ∃ ev, t.result = .decoded ev (.fatal (some cause) (codeOf s.cfg cause)))

/-- An encode request that fails answers the cause it latches (R193, R250). -/
theorem State.encodeFrame_latched (s : State) (f : Frame 64) (b : Built) : LatchedBy s (s.encodeFrame f b) := by
  rcases State.encodeFrame_cases s f b with ⟨cause, he⟩ | ⟨u, p, -, -, he⟩ <;> rw [he]
  · cases hp : s.conn.closePending with
    | true => exact .inl (Conn.latch_of_pending _ _ _ hp)
    | false => exact .inr ⟨hp, cause, by simp [failed, marked, hp], .inl rfl⟩
  · exact .inl rfl

/-- So does every operation but `BLOCK_RESET`. -/
theorem exec_latched {i : Instr} {s t : State} (hb : i ≠ .blockReset) (h : exec i s = .next t) : LatchedBy s t := by
  cases hf : feedsBytes i with
  | true =>
    obtain ⟨c, bs, s1, ev, -, hc, hfeed, rfl⟩ := exec_feeds_next hf h
    rcases State.feed_latched hc hfeed with hk | ⟨hp, cause, hk, hst⟩
    · exact .inl hk
    · exact .inr ⟨hp, cause, hk, .inr ⟨ev, by rw [State.answer_result, hst]⟩⟩
  | false =>
    cases hr : requestOf i with
    | some f =>
      obtain ⟨b, rfl, -⟩ := exec_request_next hr h
      exact State.encodeFrame_latched s f b
    | none =>
      rcases exec_other_next hf hr h with ⟨v, -, rfl⟩ | ⟨bs, -, rfl⟩ | ⟨c, -, -, rfl⟩ | ⟨rfl, -⟩ | ⟨c, -, -, rfl⟩
      case inr.inr.inr.inl => exact absurd rfl hb
      all_goals exact .inl rfl

/-- Settles O42: from a set mark, and from a clear one. -/
theorem firstFatalWins : Obligations.FirstFatalWins := by
  intro i s t hb h
  rcases exec_latched hb h with hk | ⟨hp, hlatch⟩
  · exact ⟨fun _ => hk, fun _ => .inl hk⟩
  · exact ⟨fun ht => absurd (hp.symm.trans ht) (by decide), fun _ => .inr hlatch⟩

/-! Refusals (R10, R25, R63). -/

/-- An encodable operation on a context that does not exist is refused (R25). -/
theorem exec_noSuchContext {i : Instr} {c : Nat} {s : State} (hn : i.context? = some c) (hc : s.hasCtx c = false)
    (he : i.encodable s.cfg = true) : exec i s = .refused (.noSuchContext c) := by
  rcases instr_shape i with h | ⟨f, h⟩ | ⟨v, rfl⟩ | ⟨bs, rfl⟩ | ⟨c', rfl⟩ | rfl | ⟨c', rfl⟩
  · obtain ⟨c', bs, hn', hx⟩ := exec_feeds h s.cfg
    obtain rfl : c' = c := Option.some.inj (hn'.symm.trans hn)
    simp [hx s rfl, he, State.present, hc]
  · obtain ⟨-, h, -⟩ := requestOf_exclusive h
    simp [h] at hn
  · cases hn
  · cases hn
  · cases hn
    simp [exec, execCtxReset, hc]
  · cases hn
  · cases hn
    simp [exec, execStatusRead, hc]

/-- The constraints a configured state meets (R10). -/
theorem State.configured_iff {s : State} : s.configured = true ↔
    s.cfg.known.Nodup ∧ (∀ t ∈ s.cfg.known, t ∉ ([0x2, 0x6, 0x8, 0x9] : List U62)) ∧
      s.cfg.minReserved < 2 ^ 62 - 1 ∧ s.cfg.codeFrameUnexpected ≠ s.cfg.codeFrameError ∧ s.ctxs ≠ [] := by
  simp [State.configured, Config.valid, and_assoc, List.length_pos_iff]

/-- Issuing an operation on a context on which a feed is in progress is an overlap (R63). -/
theorem State.issue_overlap {s : State} {sl : Slot} {q : List Slot} {i : Instr} {rest : Option Slot} {c : Nat}
    (apart : Bool) (hp : s.pending = sl :: q) (hd : decode s.cfg sl = .ok (i, rest)) (hn : i.context? = some c)
    (hb : s.busy c = true) : s.issue apart = .overlap c := by
  have ho : s.overlapped i = some c := by simp [State.overlapped, hn, hb]
  simp [State.issue, State.nextInstr, hp, hd, ho]

/-- Settles O47: an index outside the bank, a configuration that breaks R10, an overlap. -/
theorem badOperandsRefused : Obligations.BadOperandsRefused := by
  refine ⟨fun i c s => exec_noSuchContext, fun s hbad => ?_, fun s ts sl q i rest c hcfg hts hp hd hn hb => ?_⟩
  · have hcfg : ¬ s.configured = true := fun hcfg => by
      obtain ⟨h1, h2, h3, -, h4⟩ := State.configured_iff.mp hcfg
      rcases hbad with h | ⟨t, ht, h⟩ | h | h
      · exact h h1
      · exact h2 t ht h
      · omega
      · exact h4 h
    rw [step, if_neg hcfg]
  · have hf : s.fetch = .overlap c := by
      rcases hts with h | h <;> simp only [State.fetch, h] <;>
        exact State.issue_overlap (s := { s with turns := ts }) _ hp hd hn hb
    rw [step, if_pos hcfg, hf]

/-! Power-on (R43, R280). -/

theorem State.powerOn_inv (k : Config) (n : Nat) : inv (State.powerOn k n) = true := by
  refine inv_iff.mpr ⟨fun d hd => ?_, rfl, fun ⟨d, hd, hf⟩ => ?_, rfl⟩ <;> obtain rfl := List.eq_of_mem_replicate hd
  · exact ctxOk_atReset ..
  · cases hf

/-- Settles O57: the registers by evaluation, the invariant at power-on for every configuration. -/
theorem resetState : Obligations.ResetState := by
  refine ⟨fun k n c hc => ⟨by simpa [State.hasCtx, State.powerOn] using hc, ⟨0, 0, 0, [], ?_, rfl⟩, rfl⟩,
    fun a f l m => ⟨rfl, rfl, rfl, rfl, rfl, rfl, rfl, rfl⟩, State.powerOn_inv, State.powerOn_inv _ _, by decide⟩
  simp [State.ctx, State.powerOn, hc, resetWith, Ctx.atReset, List.getD_eq_getElem?_getD]

end Sys2Proof.Machine
end

section
/-! What a context cannot show (R38): two contexts that differ only in values no rule reads take every byte alike. -/

namespace Sys2Proof.Machine

open Sys2Proof.Safety

/-- The two contexts agree on every register and byte of the buffer that a later step can read in their state. -/
structure Ctx.Alike (d d' : Ctx) : Prop where
  state : d'.state = d.state
  viRem : d'.viRem = d.viRem
  viAcc : d.viRem ≠ 0 → d'.viAcc = d.viAcc
  ftype : d.state = .awaitingLength ∨ d.state = .awaitingPayload → d'.ftype = d.ftype
  flen : d.state = .awaitingPayload → d'.flen = d.flen
  prem : d'.prem = d.prem
  pcnt : d'.pcnt = d.pcnt
  held : d'.pbuf.slice 0 d.pcnt = d.pbuf.slice 0 d.pcnt
  errCause : d'.errCause = d.errCause
  errCode : d'.errCode = d.errCode

/-- The two arms show the host and the adapter the same and leave contexts that are alike. -/
structure Arm.Alike (r r' : Arm) : Prop where
  events : r'.events = r.events
  calls : r'.calls = r.calls
  raised : r'.raised = r.raised
  ctx : r.ctx.Alike r'.ctx

/-- The two byte steps answer arms that are alike, or the same fault. -/
def ArmsAlike : Except Fault Arm → Except Fault Arm → Prop
  | .ok r, .ok r' => r.Alike r'
  | .error f, .error f' => f' = f
  | .ok _, .error _ | .error _, .ok _ => False

/-- The values of the unspecified registers and the buffer after a reset cannot be read (R43). -/
theorem resetWith_alike (a f n a' f' n' : U62) (m m' : Memory) :
    (resetWith a f n m).Alike (resetWith a' f' n' m') where
  state := rfl
  viRem := rfl
  viAcc h := absurd rfl h
  ftype h := by cases h <;> contradiction
  flen h := by cases h
  prem := rfl
  pcnt := rfl
  held := rfl
  errCause := rfl
  errCode := rfl

theorem Ctx.Alike.status {d d' : Ctx} (h : d.Alike d') : d'.status = d.status := by
  simp only [Ctx.status, h.state, h.errCause, h.errCode]

theorem Ctx.Alike.stop {d d' : Ctx} (h : d.Alike d') (cause : Cause) (code : U62) :
    (d.stop cause code).Alike (d'.stop cause code) :=
  { h with
    state := rfl
    ftype := nofun
    flen := nofun
    errCause := rfl
    errCode := rfl }

/-- At a frame boundary neither the type nor the length of the frame before can be read. -/
theorem Ctx.Alike.toBoundary {d d' : Ctx} (h : d.Alike d') :
    Ctx.Alike { d with state := .awaitingType } { d' with state := .awaitingType } :=
  { h with
    state := rfl
    ftype := nofun
    flen := nofun }

/-! The VarInt step. -/

theorem Ctx.Alike.missing {d d' : Ctx} (h : d.Alike d') (b : Byte) : missing d' b = missing d b := by
  simp only [Safety.missing, h.viRem]

theorem Ctx.Alike.gathered {d d' : Ctx} (h : d.Alike d') (b : Byte) : gathered d' b = gathered d b := by
  by_cases h0 : d.viRem = 0
  · simp only [Safety.gathered, h.viRem, h0, if_true]
  · simp only [Safety.gathered, h.viRem, h.viAcc h0]

theorem Ctx.Alike.tookByte {d d' : Ctx} (h : d.Alike d') (b : Byte) : (tookByte d b).Alike (tookByte d' b) :=
  { h with
    viRem := by simp only [Safety.tookByte, h.missing]
    viAcc := fun _ => h.gathered b }

/-- A length that completes replaces the count, which covers no byte of the buffer then (R147, R148). -/
theorem Ctx.Alike.lengthDone {d d' : Ctx} (h : d.Alike d') (n : U62) :
    Ctx.Alike { d with flen := n, prem := n, pcnt := 0 } { d' with flen := n, prem := n, pcnt := 0 } :=
  { h with
    flen := fun _ => rfl
    prem := rfl
    pcnt := rfl
    held := rfl }

/-- With type and length the same, any state may follow. -/
theorem Ctx.Alike.withState {d d' : Ctx} (h : d.Alike d') (ht : d'.ftype = d.ftype) (hl : d'.flen = d.flen)
    (st : DecState) : Ctx.Alike { d with state := st } { d' with state := st } :=
  { h with
    state := rfl
    ftype := fun _ => ht
    flen := fun _ => hl }

/-! The arms. -/

/-- `complete_atomic` reads the type, the length and the bytes held (R150). -/
theorem completeAtomic_alike (k : Config) (dec : List Byte → Option FieldList) {d d' : Ctx} (h : d.Alike d')
    (ht : d'.ftype = d.ftype) (hl : d'.flen = d.flen) (hcount : d.pcnt = d.flen.toNat) :
    ArmsAlike (completeAtomic k dec d) (completeAtomic k dec d') := by
  have hread : d'.memRead k d'.flen.toNat = d.memRead k d.flen.toNat := by
    simp only [Ctx.memRead, hl, ← hcount, h.held]
  have hparse : parsePayload k dec d'.ftype = parsePayload k dec d.ftype := by rw [ht]
  simp only [completeAtomic, hread, hparse]
  cases d.memRead k d.flen.toNat with
  | error f => exact rfl
  | ok p =>
    cases ho : (parsePayload k dec d.ftype p).outcome with
    | ok f => simp only [ho]; exact ⟨rfl, rfl, rfl, h.toBoundary⟩
    | err cause => simp only [ho]; exact ⟨rfl, rfl, rfl, h⟩
    | noParser => simp only [ho]; exact congrArg Fault.noPayloadParser ht

theorem armTypeDone_alike (k : Config) {d d' : Ctx} (h : d.Alike d') (t : U62) :
    (armTypeDone k d t).Alike (armTypeDone k d' t) := by
  unfold armTypeDone
  split
  · exact ⟨rfl, rfl, rfl, { h with ftype := fun _ => rfl }⟩
  · exact ⟨rfl, rfl, rfl, { h with state := rfl, ftype := fun _ => rfl, flen := nofun }⟩

theorem armLengthData_alike {d d' : Ctx} (h : d.Alike d') (ht : d'.ftype = d.ftype) (n : U62) :
    (armLengthData d n).Alike (armLengthData d' n) := by
  unfold armLengthData
  simp only
  split <;> exact ⟨rfl, rfl, rfl, (h.lengthDone n).withState ht rfl _⟩

theorem armLengthAtomic_alike (k : Config) (dec : List Byte → Option FieldList) {d d' : Ctx} (h : d.Alike d')
    (ht : d'.ftype = d.ftype) (n : U62) :
    ArmsAlike (armLengthAtomic k dec d n) (armLengthAtomic k dec d' n) := by
  have hdone := h.lengthDone n
  unfold armLengthAtomic
  simp only
  split
  · split
    · rename_i hn
      exact completeAtomic_alike k dec hdone ht rfl (by rw [hn]; rfl)
    · exact ⟨rfl, rfl, rfl, hdone.withState ht rfl _⟩
  · exact ⟨rfl, rfl, rfl, hdone⟩

theorem armPayloadData_alike {d d' : Ctx} (h : d.Alike d') (b : Byte) :
    (armPayloadData d b).Alike (armPayloadData d' b) := by
  have hnext : Ctx.Alike { d with prem := d.prem - 1 } { d' with prem := d.prem - 1 } := { h with prem := rfl }
  unfold armPayloadData
  simp only [h.prem]
  split
  · exact ⟨rfl, rfl, rfl, hnext.toBoundary⟩
  · exact ⟨rfl, rfl, rfl, hnext⟩

/-- A byte stored at the next free address of both buffers (R149). -/
theorem slice_write_congr {m m' : Memory} (hm : m.wf = true) (hm' : m'.wf = true) {n : Nat} (b : Byte)
    (h : m'.slice 0 n = m.slice 0 n) : (m'.write n b).slice 0 (n + 1) = (m.write n b).slice 0 (n + 1) := by
  rw [Memory.slice_succ_right, Memory.slice_succ_right, Memory.slice_write_above hm 0 n n b (by omega),
    Memory.slice_write_above hm' 0 n n b (by omega), Memory.read_write hm, Memory.read_write hm', h]
  simp

/-- A payload byte of an atomic kind, on contexts that meet R37(b): the last one is at the end of the declared length, so
that only bytes stored are parsed. -/
theorem armPayloadAtomic_alike (k : Config) (dec : List Byte → Option FieldList) {d d' : Ctx} (h : d.Alike d')
    (hst : d.state = .awaitingPayload) (hwf : d.pbuf.wf = true) (hwf' : d'.pbuf.wf = true)
    (hcount : d.pcnt = d.flen.toNat - d.prem.toNat) (hle : d.prem.toNat ≤ d.flen.toNat) (b : Byte) :
    ArmsAlike (armPayloadAtomic k dec d b) (armPayloadAtomic k dec d' b) := by
  have hnext : Ctx.Alike { d with pbuf := d.pbuf.write d.pcnt b, pcnt := d.pcnt + 1, prem := d.prem - 1 }
      { d' with pbuf := d'.pbuf.write d.pcnt b, pcnt := d.pcnt + 1, prem := d.prem - 1 } :=
    { h with
      prem := rfl
      pcnt := rfl
      held := slice_write_congr hwf hwf' b h.held }
  unfold armPayloadAtomic Ctx.memWrite
  simp only [h.pcnt, h.prem]
  cases inBuffer k (d.pcnt + 1) with
  | false => exact rfl
  | true =>
    simp only [if_true]
    split
    · rename_i hlast
      have h1 : d.prem.toNat = 1 := by
        have : d.prem = 1 := by simpa using sub_eq_zero.mp hlast
        rw [this]; rfl
      exact completeAtomic_alike k dec hnext (h.ftype (.inr hst)) (h.flen hst) (by simp only; omega)
    · exact ⟨rfl, rfl, rfl, hnext⟩

/-! The byte step and a feed. -/

/-- Contexts that are alike and meet R37 take a byte alike (R142). -/
theorem ctxByte_alike {k : Config} (dec : List Byte → Option FieldList) {d d' : Ctx} (h : d.Alike d')
    (hok : ctxOk k d = true) (hok' : ctxOk k d' = true) (b : Byte) :
    ArmsAlike (ctxByte k dec d b) (ctxByte k dec d' b) := by
  simp only [ctxOk, Bool.and_eq_true] at hok hok'
  obtain ⟨hwf, hregs⟩ := hok
  have htook := h.tookByte b
  cases hst : d.state with
  | fatal =>
    rw [ctxByte_fatal hst, ctxByte_fatal (h.state.trans hst)]
    exact ⟨rfl, rfl, rfl, h⟩
  | awaitingType =>
    rw [ctxByte_type hst, ctxByte_type (h.state.trans hst), h.missing, h.gathered]
    split
    · exact armTypeDone_alike k htook _
    · exact ⟨rfl, rfl, rfl, htook⟩
  | awaitingLength =>
    have ht : d'.ftype = d.ftype := h.ftype (.inl hst)
    rw [ctxByte_length hst, ctxByte_length (h.state.trans hst), h.missing, h.gathered, ht]
    split
    · exact ⟨rfl, rfl, rfl, htook⟩
    · split
      · exact armLengthData_alike htook ht _
      · exact armLengthAtomic_alike k dec htook ht _
  | awaitingPayload =>
    rw [ctxByte_payload hst, ctxByte_payload (h.state.trans hst), h.ftype (.inr hst)]
    split
    · exact armPayloadData_alike h b
    · rename_i hk
      simp only [hst, payloadOk, if_neg hk, Bool.and_eq_true, decide_eq_true_eq] at hregs
      obtain ⟨⟨⟨⟨-, hle⟩, hcount, -⟩, -⟩, -⟩ := hregs
      exact armPayloadAtomic_alike k dec h hst hwf hok'.1 hcount hle b

/-- A byte step of a context that meets R37 goes on and leaves one that does. -/
theorem ctxByte_keeps_ctxOk {k : Config} (dec : List Byte → Option FieldList) {d : Ctx} (h : ctxOk k d = true)
    (b : Byte) : ∃ r, ctxByte k dec d b = .ok r ∧ ctxOk k (armCtx k r) = true := by
  obtain ⟨r, hr, ⟨-, rfl⟩ | ⟨-, hr'⟩⟩ := ctxByte_ok (dec := dec) h b
  · exact ⟨_, hr, h⟩
  · exact ⟨r, hr, ctxOk_armCtx hr'⟩

/-- Two machines that only their context `c` tells apart, and it only by what no rule reads. -/
structure State.AlikeAt (c : Nat) (s s' : State) : Prop where
  cfg : s'.cfg = s.cfg
  conn : s'.conn = s.conn
  events : s'.events = s.events
  adapterLog : s'.adapterLog = s.adapterLog
  hasCtx : s.hasCtx c = true
  hasCtx' : s'.hasCtx c = true
  ctxOk : ctxOk s.cfg (s.ctx c) = true
  ctxOk' : Safety.ctxOk s.cfg (s'.ctx c) = true
  ctx : (s.ctx c).Alike (s'.ctx c)

theorem Arm.Alike.armCtx {r r' : Arm} (h : r.Alike r') (k : Config) : (armCtx k r).Alike (armCtx k r') := by
  simp only [Machine.armCtx, h.raised]
  cases r.raised with
  | none => exact h.ctx
  | some cause => exact h.ctx.stop cause _

/-- A byte presented to context `c` keeps such machines alike and emits the same events. -/
theorem State.AlikeAt.byteStep {c : Nat} {s s' : State} (h : s.AlikeAt c s') (b : Byte) :
    ∃ u u' ev, s.byteStep c b = .ok (u, ev) ∧ s'.byteStep c b = .ok (u', ev) ∧ u.AlikeAt c u' := by
  obtain ⟨r, hr, hok⟩ := ctxByte_keeps_ctxOk Config.adapter.decompress h.ctxOk b
  obtain ⟨r', hr', hok'⟩ := ctxByte_keeps_ctxOk Config.adapter.decompress h.ctxOk' b
  have halike := ctxByte_alike Config.adapter.decompress h.ctx h.ctxOk h.ctxOk' b
  rw [hr, hr'] at halike
  have hev : armEvents s'.cfg r' = armEvents s.cfg r := by simp only [armEvents, h.cfg, halike.raised, halike.events]
  refine ⟨_, _, _, State.byteStep_of_arm hr, hev ▸ State.byteStep_of_arm (h.cfg ▸ hr'), ?_⟩
  have hc := h.hasCtx
  have hc' := h.hasCtx'
  constructor
  case cfg => simp [h.cfg]
  case conn => simp only [State.applyArm_conn, halike.raised, h.conn, h.cfg]
  case events => simp only [State.applyArm_events, hev, h.events]
  case adapterLog => simp only [State.applyArm_adapterLog, halike.calls, h.adapterLog]
  case hasCtx => simpa using hc
  case hasCtx' => simpa using hc'
  case ctxOk => rwa [State.applyArm_ctx_self s c r hc, State.applyArm_cfg]
  case ctxOk' => rwa [State.applyArm_ctx_self s' c r' hc', State.applyArm_cfg, h.cfg]
  case ctx =>
    rw [State.applyArm_ctx_self s c r hc, State.applyArm_ctx_self s' c r' hc', h.cfg]
    exact Arm.Alike.armCtx halike s.cfg

/-- So do any bytes. -/
theorem State.AlikeAt.feed {c : Nat} (bs : List Byte) {s s' : State} (h : s.AlikeAt c s') :
    ∃ u u' ev, s.feed c bs = .ok (u, ev) ∧ s'.feed c bs = .ok (u', ev) ∧ u.AlikeAt c u' := by
  induction bs generalizing s s' with
  | nil => exact ⟨s, s', [], rfl, rfl, h⟩
  | cons b bs ih =>
    obtain ⟨s1, s1', e1, h1, h1', hs1⟩ := h.byteStep b
    obtain ⟨s2, s2', e2, h2, h2', hs2⟩ := ih hs1
    exact ⟨s2, s2', e1 ++ e2, by rw [State.feed_cons_of_ok h1, h2], by rw [State.feed_cons_of_ok h1', h2'], hs2⟩

/-- The reset state meets R37 whatever is in the unspecified registers and the buffer. -/
theorem ctxOk_resetWith (k : Config) (a f n : U62) {m : Memory} (hm : m.wf = true) :
    ctxOk k (resetWith a f n m) = true := by
  simp [ctxOk, resetWith, hm, viOk, noError]

/-- Settles O60: the two machines start alike at `c`, a feed keeps them so, and what it answers is the same. -/
theorem unspecifiedNotObservable : Obligations.UnspecifiedNotObservable := by
  intro c chunk s a f n a' f' n' m m' hc hm hm'
  have hlt := (s.hasCtx_iff c).mp hc
  have hself : ∀ d, (s.setCtx c d).ctx c = d := fun d => State.ctx_setCtx_self s c d hlt
  have halike : State.AlikeAt c (s.setCtx c (resetWith a f n m)) (s.setCtx c (resetWith a' f' n' m')) :=
    { cfg := rfl
      conn := rfl
      events := rfl
      adapterLog := rfl
      hasCtx := by simpa using hc
      hasCtx' := by simpa using hc
      ctxOk := by rw [hself]; exact ctxOk_resetWith _ a f n hm
      ctxOk' := by rw [hself]; exact ctxOk_resetWith _ a' f' n' hm'
      ctx := by rw [hself, hself]; exact resetWith_alike .. }
  obtain ⟨u, u', ev, hu, hu', hend⟩ := halike.feed chunk
  refine ⟨_, _, State.present_of_feed halike.hasCtx hu, State.present_of_feed halike.hasCtx' hu', ?_,
    hend.events.symm, hend.adapterLog.symm, hend.conn.symm⟩
  simp only [State.answer_result, hend.ctx.status]

end Sys2Proof.Machine
end

section
/-! What an operation appends to the outputs and what an atomic frame stores (R31, R50 to R54, R149, R223). -/

namespace Sys2Proof.Machine

open Sys2Proof.Safety

/-! The outputs after an operation (R52, R53, R223). -/

/-- An encode request emits no event, drops one reference, and makes the calls of its build (R190, R192). -/
theorem State.encodeFrame_outputs (s : State) (f : Frame 64) (b : Built) :
    (s.encodeFrame f b).events = s.events ∧ (∃ bs, (s.encodeFrame f b).sink = s.sink ++ bs) ∧
      (s.encodeFrame f b).released = s.released ++ [f] ∧ (s.encodeFrame f b).adapterLog = s.adapterLog ++ b.calls := by
  rcases State.encodeFrame_cases s f b with ⟨cause, h⟩ | ⟨t, p, -, -, h⟩ <;> rw [h]
  · exact ⟨rfl, ⟨[], (List.append_nil s.sink).symm⟩, rfl, rfl⟩
  · exact ⟨rfl, ⟨_, rfl⟩, rfl, rfl⟩

/-- The operations that neither present bytes nor encode reach no output. -/
theorem exec_other_outputs {i : Instr} {s t : State} (hf : feedsBytes i = false) (hr : requestOf i = none)
    (h : exec i s = .next t) :
    t.events = s.events ∧ t.sink = s.sink ∧ t.released = s.released ∧ t.adapterLog = s.adapterLog := by
  rcases exec_other_next hf hr h with ⟨v, -, rfl⟩ | ⟨bs, -, rfl⟩ | ⟨c, -, -, rfl⟩ | ⟨-, rfl⟩ | ⟨c, -, -, rfl⟩ <;>
    exact ⟨rfl, rfl, rfl, rfl⟩

/-- Settles O49: a presentation of bytes, an encode request, and the five others. -/
theorem outputsAppendOnly : Obligations.OutputsAppendOnly := by
  intro i s t h
  cases hf : feedsBytes i with
  | true =>
    obtain ⟨c, bs, s1, ev, hc, -, h1, rfl⟩ := exec_feeds_next hf h
    obtain ⟨-, hsink, hrel, -, -, -, -, hev, ⟨calls, hcalls⟩, -⟩ := State.feed_frame h1
    refine ⟨ev.map (fun e => (c, e)), [], [], calls, hev, by simpa using hsink, by simpa using hrel, hcalls, ?_,
      nofun, fun _ => ⟨rfl, rfl⟩, nofun⟩
    simp [hc]
  | false =>
    cases hr : requestOf i with
    | some f =>
      obtain ⟨b, rfl, hb⟩ := exec_request_next hr h
      obtain ⟨hev, ⟨bs, hsink⟩, hrel, hcalls⟩ := State.encodeFrame_outputs s f b
      exact ⟨[], bs, [f], b.calls, by simpa using hev, hsink, hrel, hcalls, nofun, fun _ => rfl, nofun, fun _ => hb⟩
    | none =>
      obtain ⟨hev, hsink, hrel, hcalls⟩ := exec_other_outputs hf hr h
      exact ⟨[], [], [], [], by simpa using hev, by simpa using hsink, by simpa using hrel, by simpa using hcalls,
        nofun, fun _ => rfl, fun _ => ⟨rfl, rfl⟩, fun _ _ => rfl⟩

/-! The events of a byte step (R52). -/

/-- With the `Fatal` event of a raise, an arm still has the shapes of R52. -/
theorem ArmShape.armEvents {r : Arm} (h : ArmShape r) (k : Config) :
    armEvents k r = [] ∨ (∃ e, armEvents k r = [e]) ∨ armEvents k r = [.dataStart 0, .dataEnd] ∨
      ∃ x, armEvents k r = [.dataByte x, .dataEnd] := by
  rcases h with ⟨hr, -, hev⟩ | ⟨cause, hr, hev, -⟩
  · simpa only [Machine.armEvents, hr] using hev
  · exact .inr (.inl ⟨.fatal cause (codeOf k cause), by simp only [Machine.armEvents, hr, hev, List.nil_append]⟩)

/-- Settles O16: the shapes from the arm of the byte step, none at all from a stopped context; the rest is O49's. -/
theorem atMostTwoEvents : Obligations.AtMostTwoEvents := by
  refine ⟨fun c b s t h => ?_, fun i s t hf h => ?_⟩
  · obtain ⟨-, r, hr, rfl⟩ := exec_decByte_next h
    refine ⟨armEvents s.cfg r, _, State.applyArm_events s c r, rfl, ?_⟩
    by_cases hst : (s.ctx c).state = .fatal
    · rw [ctxByte_fatal hst] at hr
      cases hr
      exact .inl rfl
    · obtain ⟨hshape, -⟩ := ctxByte_shape hst hr
      exact hshape.armEvents s.cfg
  · obtain ⟨ev, -, -, -, hev, -, -, -, -, hnone, -⟩ := outputsAppendOnly i s t h
    rw [hev, hnone hf, List.append_nil]

/-! The buffer after an atomic frame (R31, R54, R149). -/

/-- Under R10 an encodable frame of an atomic kind is the bytes of a type and a length in range, and its type has a
payload parser (R91, R153, R164). -/
theorem atomicFrame_spec {k : Config} {i : Instr} {c : Nat} {t : U62} {lw : Width} {p : List Byte}
    (h : atomicFrame k i = some (c, t, lw, p)) (hv : k.valid = true) (he : i.encodable k = true) :
    ∃ tw : Width, encode k i = .frame c (frameBytes tw t.toNat lw p) ∧ frameFits tw lw t.toNat p = true ∧
      kindOf k t.toNat ≠ .data ∧ kindOf k t.toNat ≠ .reserved := by
  obtain ⟨-, hH, hC, hS, hP, hG, hM⟩ := kindOf_known hv
  cases i <;> simp only [atomicFrame, reduceCtorEq, Option.some.injEq, Prod.mk.injEq] at h <;>
    obtain ⟨rfl, rfl, rfl, rfl⟩ := h
  case headers => exact ⟨_, rfl, he, by simp [hH]⟩
  case cancelPush => exact ⟨_, rfl, he, by simp [hC]⟩
  case settings => exact ⟨_, rfl, he, by simp [hS]⟩
  case pushPromise => exact ⟨_, rfl, he, by simp [hP]⟩
  case goAway => exact ⟨_, rfl, he, by simp [hG]⟩
  case maxPushId => exact ⟨_, rfl, he, by simp [hM]⟩
  case unknown =>
    simp only [Instr.encodable, Bool.and_eq_true, decide_eq_true_eq] at he
    obtain ⟨hfit, hU⟩ := he
    exact ⟨_, rfl, hfit, by simp [hU]⟩

/-- A whole atomic frame that fits, emitted or raising on its last byte, ends in one arm; its buffer holds the payload
and its count the length (R149, R150, W9). -/
theorem State.feed_atomic_frame_stored {s : State} {c : Nat} (hc : s.hasCtx c = true)
    (hb : (s.ctx c).atBoundary = true) (hm : (s.ctx c).pbuf.wf = true) {tw lw : Width} {t : U62} {p : List Byte}
    (hv : s.cfg.valid = true) (hfit : frameFits tw lw t.toNat p = true) (hd : kindOf s.cfg t.toNat ≠ .data)
    (hk : kindOf s.cfg t.toNat ≠ .reserved) (hbuf : inBuffer s.cfg p.length = true) :
    ∃ r, s.feed c (frameBytes tw t.toNat lw p) = armState s c (.ok r) ∧
      (armCtx s.cfg r).pbuf = stored (s.ctx c).pbuf 0 p ∧ (armCtx s.cfg r).pcnt = p.length := by
  simp only [frameFits, Bool.and_eq_true, fits_iff] at hfit
  obtain ⟨ht, hl⟩ := hfit
  have hr : isReserved s.cfg t.toNat = false := Bool.eq_false_iff.mpr fun h => hk ((kindOf_reserved_iff hv).mpr h)
  obtain ⟨st, hfeed⟩ := State.feed_atomic_frame hc hb hm ht hl hr hd hbuf
  cases ho : (parsePayload s.cfg Config.adapter.decompress t p).outcome with
  | ok f =>
    simp only [ho] at hfeed
    exact ⟨_, hfeed, rfl, rfl⟩
  | err cause =>
    simp only [ho] at hfeed
    exact ⟨_, hfeed, rfl, rfl⟩
  | noParser => exact absurd (parsePayload_noParser ho) (not_or.mpr ⟨hd, hk⟩)

/-- Settles O30: the frame's bytes come to one arm; what it stored reads back, and the rest reads as before. -/
theorem atomicFrameStores : Obligations.AtomicFrameStores := by
  intro i c t lw p s hi hv he hc hb hm hbuf
  obtain ⟨tw, henc, hfit, hd, hk⟩ := atomicFrame_spec hi hv he
  obtain ⟨r, hfeed, hpbuf, hpcnt⟩ := State.feed_atomic_frame_stored hc hb hm hv hfit hd hk hbuf
  obtain ⟨-, hexec⟩ := exec_wire (.inr henc)
  refine ⟨_, by rw [hexec s rfl, State.presentWire_eq (.inl henc) he, State.present_of_arm hc hfeed], ?_⟩
  have hself : ∀ res, ((s.applyArm c r).answer res).ctx c = armCtx s.cfg r := fun _ => State.applyArm_ctx_self s c r hc
  simp only [hself, hpbuf, hpcnt, read_stored hm]
  refine ⟨stored_wf hm 0 p, trivial, fun a ha => ?_, fun a ha => ?_, fun c' a hne => ?_⟩
  · simp [ha]
  · simp [ha]
  · exact congrArg (fun d => d.pbuf.read a) (State.applyArm_ctx_other s c c' r hne.symm)

end Sys2Proof.Machine
end

section
/-! The VarInt read from bytes, the multiplexer, and the wire level's decoder and encoder as each other's inverse (R80 to
R91, R101 to R104, R112). -/

namespace Sys2Proof

open Sys2Proof.Machine Sys2Proof.Safety

/-! Reading a VarInt (R84, R85). -/

/-- The model's accumulator is the big-endian number of R85. -/
theorem beNumber_eq_beAccumulate (bs : List Byte) : beNumber bs = beAccumulate 0 bs := by
  suffices h : ∀ acc, bs.foldl (fun a b => a * 256 + b.toNat) acc = beAccumulate acc bs from h 0
  induction bs with
  | nil => intro acc; rfl
  | cons b bs ih => intro acc; exact ih _

/-- Clearing the top two bits of a big-endian number clears them in its first byte. -/
theorem beNumber_cons_mod (b : Byte) (xs : List Byte) :
    beNumber (b :: xs) % (64 * 256 ^ xs.length) = beAccumulate (b.toNat % 64) xs := by
  have hlt := beAccumulate_lt xs
  have hsmall : b.toNat % 64 * 256 ^ xs.length + beAccumulate 0 xs < 64 * 256 ^ xs.length :=
    calc b.toNat % 64 * 256 ^ xs.length + beAccumulate 0 xs
        < (b.toNat % 64 + 1) * 256 ^ xs.length := by rw [Nat.succ_mul]; omega
      _ ≤ 64 * 256 ^ xs.length := Nat.mul_le_mul_right _ (by omega)
  have hsplit : b.toNat * 256 ^ xs.length + beAccumulate 0 xs =
      b.toNat % 64 * 256 ^ xs.length + beAccumulate 0 xs + 64 * 256 ^ xs.length * (b.toNat / 64) := by
    conv_lhs => rw [← Nat.div_add_mod b.toNat 64]
    ring
  rw [beNumber_eq_beAccumulate, beAccumulate, Nat.zero_mul, Nat.zero_add, beAccumulate_eq, hsplit,
    Nat.add_mul_mod_self_left, Nat.mod_eq_of_lt hsmall, ← beAccumulate_eq]

/-- Settles O2: the width is the one the first byte announces, the value its bytes with the tag cleared. -/
theorem readVarInt : Obligations.ReadVarInt := by
  intro b rest
  refine ⟨widthOfFirst b, widthOfFirst_bytes b, ?_⟩
  obtain ⟨n, hn⟩ : ∃ n, (widthOfFirst b).bytes = n + 1 := Nat.exists_eq_add_one.mpr (widthOfFirst b).bytes_pos
  have hrange : 2 ^ (8 * (widthOfFirst b).bytes - 2) = 64 * 256 ^ n := by
    rw [← Width.valueBits, Width.two_pow_valueBits, hn, Nat.add_sub_cancel]
  rw [viDec, hrange, hn, Nat.add_sub_cancel, List.take_succ_cons]
  split
  · rfl
  · have hlen : (rest.take n).length = n := by rw [List.length_take]; omega
    have hval := beNumber_cons_mod b (rest.take n)
    rw [hlen] at hval
    rw [hval]

/-! The multiplexer (R102, R103). -/

/-- R103's set, written out. -/
theorem isReserved_iff {k : Config} {t : Nat} : isReserved k t = true ↔
    t = 0x2 ∨ t = 0x6 ∨ t = 0x8 ∨ t = 0x9 ∨ (t ≤ k.minReserved ∧ ∀ x ∈ k.known, t ≠ x.toNat) := by
  simp only [ne_comm (a := t)]
  simp [isReserved, explicitReserved, or_assoc]

/-- The types of a RESERVED_LOW row, under any configuration (R91). -/
theorem isReservedLow_spec {k : Config} {t : Nat} (h : isReservedLow k t = true) :
    isReserved k t = true ∧ t ≠ 0x2 ∧ t ≠ 0x6 ∧ t ≠ 0x8 ∧ t ≠ 0x9 := by
  have hspec := kindOf_spec k t
  simp only [isReservedLow, Bool.and_eq_true, decide_eq_true_eq] at h
  obtain ⟨hk, hlow⟩ := h
  rw [hk] at hspec
  exact ⟨hspec, by simpa [explicitReserved] using hlow⟩

/-- Settles O51: a kind names its code by the tests made, and each code its kind because R10 keeps them apart. -/
theorem multiplexer : Obligations.Multiplexer := by
  intro k t hv
  obtain ⟨hD, hH, hC, hS, hP, hG, hM⟩ := kindOf_known hv
  have hspec := kindOf_spec k t
  have hcode : ∀ {kd : Kind} {u : Nat}, kindOf k u = kd → (kindOf k t = kd → t = u) → (kindOf k t = kd ↔ t = u) :=
    fun hu h => ⟨h, fun e => e ▸ hu⟩
  refine ⟨hcode hD ?_, hcode hH ?_, hcode hC ?_, hcode hS ?_, hcode hP ?_, hcode hG ?_, hcode hM ?_,
    kindOf_reserved_iff hv, kindOf_unknown_iff, isReserved_iff⟩ <;> intro h <;> rwa [h] at hspec

/-- Settles O52: a last entry is the last of those its identifier selects, and of no others. -/
theorem settingsLookup : Obligations.SettingsLookup := by
  refine ⟨fun ident => rfl, fun es ident ident' v => ?_⟩
  by_cases h : ident' = ident <;> simp [Machine.settingsLookup, List.filter_append, h]

/-! The rows of the wire level and their bytes (R83, R91). -/

/-- `i` is the term of context `c` that the bytes `bs` of a slot made by `mk` stand for: one VarInt, the type of a
reserved row, or a whole frame of any other kind. -/
inductive WireTerm (k : Config) (c : Nat) : Instr → (List Byte → Slot) → List Byte → Prop where
  | varint (w : Width) (v : Nat) (hv : w.fits v = true) : WireTerm k c (varintInstr c w v) (.varint c) (viEncAt w v)
  | reserved (tw : Width) (t : Nat) (ht : tw.fits t = true) (hk : kindOf k t = .reserved) :
      WireTerm k c (reservedInstr c tw t) (.frame c) (viEncAt tw t)
  | frame (tw : Width) (t : Nat) (lw : Width) (p : List Byte) (kd : Kind) (hfit : frameFits tw lw t p = true)
      (hk : kindOf k t = kd) (hne : kd ≠ .reserved) :
      WireTerm k c (frameInstr c tw t lw p kd) (.frame c) (frameBytes tw t lw p)

/-- A number in the range of a width is a 62-bit number. -/
theorem toNat_ofNat_of_fits {w : Width} {v : Nat} (h : w.fits v = true) : (BitVec.ofNat 62 v).toNat = v :=
  toNat_ofNat_62 (Nat.lt_of_lt_of_le (fits_iff.mp h) w.valueBits_le)

/-- Every width holds a number of six bits. -/
theorem fits_of_lt_64 (w : Width) {v : Nat} (h : v < 64) : w.fits v = true := by
  have hle : 64 ≤ 2 ^ w.valueBits := by cases w <;> decide
  exact fits_iff.mpr (Nat.lt_of_lt_of_le h hle)

theorem varintInstr_spec (k : Config) (c : Nat) {w : Width} {v : Nat} (hv : w.fits v = true) :
    encode k (varintInstr c w v) = .varint c (viEncAt w v) ∧ (varintInstr c w v).encodable k = true := by
  rw [fits_iff] at hv
  cases w <;> exact ⟨congrArg (fun x => Slot.varint c (viEncAt _ x)) (Nat.mod_eq_of_lt hv), rfl⟩

theorem reservedInstr_spec {k : Config} (c : Nat) {tw : Width} {t : Nat} (ht : tw.fits t = true)
    (hk : kindOf k t = .reserved) :
    encode k (reservedInstr c tw t) = .frame c (viEncAt tw t) ∧ (reservedInstr c tw t).encodable k = true := by
  unfold reservedInstr
  split_ifs with h2 h6 h8 h9
  · exact ⟨by rw [h2, encode], rfl⟩
  · exact ⟨by rw [h6, encode], rfl⟩
  · exact ⟨by rw [h8, encode], rfl⟩
  · exact ⟨by rw [h9, encode], rfl⟩
  · simp only [encode, Instr.encodable, isReservedLow, toNat_ofNat_of_fits ht]
    simp [ht, hk, explicitReserved, h2, h6, h8, h9]

theorem frameInstr_spec {k : Config} (c : Nat) {tw lw : Width} {t : Nat} {p : List Byte} {kd : Kind}
    (hfit : frameFits tw lw t p = true) (hk : kindOf k t = kd) (hne : kd ≠ .reserved) :
    encode k (frameInstr c tw t lw p kd) = .frame c (frameBytes tw t lw p) ∧
      (frameInstr c tw t lw p kd).encodable k = true := by
  have hspec := kindOf_spec k t
  rw [hk] at hspec
  cases kd
  case reserved => exact absurd rfl hne
  case unknown =>
    have ht : (BitVec.ofNat 62 t).toNat = t := by
      simp only [frameFits, Bool.and_eq_true] at hfit
      exact toNat_ofNat_of_fits hfit.1
    simp [frameInstr, encode, Instr.encodable, ht, hfit, hk]
  all_goals
    simp only at hspec
    subst hspec
    exact ⟨rfl, hfit⟩

/-- A term's encoding is its bytes, and its fields are encodable. -/
theorem WireTerm.encode_eq {k : Config} {c : Nat} {i : Instr} {mk : List Byte → Slot} {bs : List Byte}
    (h : WireTerm k c i mk bs) : encode k i = mk bs ∧ i.encodable k = true := by
  cases h with
  | varint w v hv => exact varintInstr_spec k c hv
  | reserved tw t ht hk => exact reservedInstr_spec c ht hk
  | frame tw t lw p kd hfit hk hne => exact frameInstr_spec c hfit hk hne

theorem WireTerm.slotBytes_eq {k : Config} {c : Nat} {i : Instr} {mk : List Byte → Slot} {bs : List Byte}
    (h : WireTerm k c i mk bs) (xs : List Byte) : slotBytes (mk xs) = some (c, xs) := by
  cases h <;> rfl

/-- The context a wire-level term names is the one its bytes are for. -/
theorem WireTerm.context_eq {k : Config} {c : Nat} {i : Instr} {mk : List Byte → Slot} {bs : List Byte}
    (h : WireTerm k c i mk bs) : i.context? = some c := by
  obtain ⟨henc, -⟩ := h.encode_eq
  cases h with
  | varint => exact (exec_wire (.inl henc)).1
  | reserved => exact (exec_wire (.inr henc)).1
  | frame => exact (exec_wire (.inr henc)).1

/-! The decoder on a term's bytes, whatever follows them. -/

theorem decodeVarint_viEncAt (c : Nat) {w : Width} {v : Nat} (hv : w.fits v = true) (rest : List Byte) :
    decodeVarint c (viEncAt w v ++ rest) = .ok (varintInstr c w v, rest) := by
  simp [decodeVarint, viDec_viEncAt w v rest (fits_iff.mp hv)]

theorem decodeFrame_reserved {k : Config} (c : Nat) {tw : Width} {t : Nat} (ht : tw.fits t = true)
    (hk : kindOf k t = .reserved) (rest : List Byte) :
    decodeFrame k c (viEncAt tw t ++ rest) = .ok (reservedInstr c tw t, rest) := by
  simp [decodeFrame, viDec_viEncAt tw t rest (fits_iff.mp ht), hk]

theorem decodeFrame_frameBytes {k : Config} (c : Nat) {tw lw : Width} {t : Nat} {p : List Byte}
    (hfit : frameFits tw lw t p = true) (hne : kindOf k t ≠ .reserved) (rest : List Byte) :
    decodeFrame k c (frameBytes tw t lw p ++ rest) = .ok (frameInstr c tw t lw p (kindOf k t), rest) := by
  simp only [frameFits, Bool.and_eq_true, fits_iff] at hfit
  obtain ⟨ht, hl⟩ := hfit
  have htype := viDec_viEncAt tw t (viEncAt lw p.length ++ (p ++ rest)) ht
  have hlen := viDec_viEncAt lw p.length (p ++ rest) hl
  simp [decodeFrame, decodeBody, frameBytes, htype, hlen, hne]

theorem WireTerm.decode_append {k : Config} {c : Nat} {i : Instr} {mk : List Byte → Slot} {bs : List Byte}
    (h : WireTerm k c i mk bs) (rest : List Byte) :
    decode k (mk (bs ++ rest)) = .ok (i, if rest.isEmpty then none else some (mk rest)) := by
  cases h with
  | varint w v hv => simp only [decode, decodeVarint_viEncAt c hv]
  | reserved tw t ht hk => simp only [decode, decodeFrame_reserved c ht hk]
  | frame tw t lw p kd hfit hk hne =>
    subst hk
    simp only [decode, decodeFrame_frameBytes c hfit hne]

/-! What the decoder accepts is a term and what follows it. -/

theorem decodeVarint_ok {k : Config} {c : Nat} {bytes rest : List Byte} {i : Instr}
    (h : decodeVarint c bytes = .ok (i, rest)) : ∃ bs, WireTerm k c i (.varint c) bs ∧ bytes = bs ++ rest := by
  unfold decodeVarint at h
  split at h
  · cases h
  · rename_i v w hd
    cases h
    exact ⟨viEncAt w v, .varint w v (fits_iff.mpr (viDec_lt hd)), viEncAt_of_viDec hd⟩

theorem decodeBody_ok {k : Config} {c t : Nat} {tw : Width} {body rest : List Byte} {i : Instr}
    (h : decodeBody k c tw t body = .ok (i, rest)) : ∃ (lw : Width) (p : List Byte), lw.fits p.length = true ∧
      i = frameInstr c tw t lw p (kindOf k t) ∧ body = viEncAt lw p.length ++ (p ++ rest) := by
  unfold decodeBody at h
  split at h
  · cases h
  · rename_i n lw hd
    simp only at h
    split at h
    · cases h
    · cases h
      have hn : ((body.drop lw.bytes).take n).length = n := by rw [List.length_take]; omega
      refine ⟨lw, (body.drop lw.bytes).take n, ?_, rfl, ?_⟩
      · rw [hn]
        exact fits_iff.mpr (viDec_lt hd)
      · rw [hn, List.take_append_drop]
        exact viEncAt_of_viDec hd

theorem decodeFrame_ok {k : Config} {c : Nat} {bytes rest : List Byte} {i : Instr}
    (h : decodeFrame k c bytes = .ok (i, rest)) : ∃ bs, WireTerm k c i (.frame c) bs ∧ bytes = bs ++ rest := by
  unfold decodeFrame at h
  split at h
  · cases h
  · rename_i t tw hd
    have ht := fits_iff.mpr (viDec_lt hd)
    have hbytes := viEncAt_of_viDec hd
    simp only at h
    split at h
    · rename_i hk
      cases h
      exact ⟨viEncAt tw t, .reserved tw t ht hk, hbytes⟩
    · rename_i hne
      obtain ⟨lw, p, hp, rfl, hbody⟩ := decodeBody_ok h
      refine ⟨frameBytes tw t lw p, .frame tw t lw p _ (by simp [frameFits, ht, hp]) rfl hne, ?_⟩
      rw [frameBytes, List.append_assoc, List.append_assoc, ← hbody, ← hbytes]

theorem wireTerm_of_decode {k : Config} {sl : Slot} {i : Instr} {left : Option Slot} {c : Nat} {bytes : List Byte}
    (hsl : slotBytes sl = some (c, bytes)) (h : decode k sl = .ok (i, left)) :
    ∃ mk bs more, WireTerm k c i mk bs ∧ bytes = bs ++ more ∧
      left = if more.isEmpty then none else some (mk more) := by
  cases sl with
  | varint c' bytes' =>
    cases hsl
    simp only [decode] at h
    split at h
    · cases h
    · rename_i hd
      cases h
      obtain ⟨bs, hterm, hb⟩ := decodeVarint_ok hd
      exact ⟨_, bs, _, hterm, hb, rfl⟩
  | frame c' bytes' =>
    cases hsl
    simp only [decode] at h
    split at h
    · cases h
    · rename_i hd
      cases h
      obtain ⟨bs, hterm, hb⟩ := decodeFrame_ok hd
      exact ⟨_, bs, _, hterm, hb, rfl⟩
  | call j => cases hsl

/-- Every encodable instruction is a wire-level term or a host operation, which is its own carrier (R91, R110). -/
theorem wireTerm_of_encodable {k : Config} {i : Instr} (hv : k.valid = true) (he : i.encodable k = true) :
    (∃ c mk bs, WireTerm k c i mk bs) ∨ encode k i = .call i := by
  obtain ⟨hD, hH, hC, hS, hP, hG, hM⟩ := kindOf_known hv
  have hvarint : ∀ (c : Nat) {w : Width} {v : Nat}, w.fits v = true → varintInstr c w v = i →
      ∃ c mk bs, WireTerm k c i mk bs :=
    fun c w v hf hi => ⟨c, _, _, hi ▸ WireTerm.varint w v hf⟩
  have hreserved : ∀ (c : Nat) {tw : Width} {t : Nat}, tw.fits t = true → isReserved k t = true →
      reservedInstr c tw t = i → ∃ c mk bs, WireTerm k c i mk bs :=
    fun c tw t ht hr hi => ⟨c, _, _, hi ▸ WireTerm.reserved tw t ht ((kindOf_reserved_iff hv).mpr hr)⟩
  have hframe : ∀ (c : Nat) {tw lw : Width} {t : Nat} {p : List Byte} {kd : Kind}, frameFits tw lw t p = true →
      kindOf k t = kd → kd ≠ .reserved → frameInstr c tw t lw p kd = i → ∃ c mk bs, WireTerm k c i mk bs :=
    fun c tw lw t p kd hfit hk hne hi => ⟨c, _, _, hi ▸ WireTerm.frame tw t lw p kd hfit hk hne⟩
  cases i
  case varint1 c v => exact .inl (hvarint c (w := .v1) (fits_iff.mpr v.isLt) (by simp [varintInstr]))
  case varint2 c v => exact .inl (hvarint c (w := .v2) (fits_iff.mpr v.isLt) (by simp [varintInstr]))
  case varint4 c v => exact .inl (hvarint c (w := .v4) (fits_iff.mpr v.isLt) (by simp [varintInstr]))
  case varint8 c v => exact .inl (hvarint c (w := .v8) (fits_iff.mpr v.isLt) (by simp [varintInstr]))
  case reserved2 c tw =>
    exact .inl (hreserved c (t := 0x2) (fits_of_lt_64 tw (by decide)) (by simp [isReserved_iff]) rfl)
  case reserved6 c tw =>
    exact .inl (hreserved c (t := 0x6) (fits_of_lt_64 tw (by decide)) (by simp [isReserved_iff]) rfl)
  case reserved8 c tw =>
    exact .inl (hreserved c (t := 0x8) (fits_of_lt_64 tw (by decide)) (by simp [isReserved_iff]) rfl)
  case reserved9 c tw =>
    exact .inl (hreserved c (t := 0x9) (fits_of_lt_64 tw (by decide)) (by simp [isReserved_iff]) rfl)
  case reservedLow c tw t =>
    simp only [Instr.encodable, Bool.and_eq_true] at he
    obtain ⟨ht, hlow⟩ := he
    obtain ⟨hr, h2, h6, h8, h9⟩ := isReservedLow_spec hlow
    exact .inl (hreserved c ht hr (by simp [reservedInstr, h2, h6, h8, h9]))
  case data c _ _ _ => exact .inl (hframe c he hD (by decide) rfl)
  case headers c _ _ _ => exact .inl (hframe c he hH (by decide) rfl)
  case cancelPush c _ _ _ => exact .inl (hframe c he hC (by decide) rfl)
  case settings c _ _ _ => exact .inl (hframe c he hS (by decide) rfl)
  case pushPromise c _ _ _ => exact .inl (hframe c he hP (by decide) rfl)
  case goAway c _ _ _ => exact .inl (hframe c he hG (by decide) rfl)
  case maxPushId c _ _ _ => exact .inl (hframe c he hM (by decide) rfl)
  case unknown c _ _ _ _ =>
    simp only [Instr.encodable, Bool.and_eq_true, decide_eq_true_eq] at he
    obtain ⟨hfit, hU⟩ := he
    exact .inl (hframe c hfit hU (by decide) (by simp [frameInstr]))
  all_goals exact .inr rfl

/-- Settles O53: a term's bytes decode to it with nothing after them, and a host operation carries itself. -/
theorem decodeEncode : Obligations.DecodeEncode := by
  intro k i hv he
  rcases wireTerm_of_encodable hv he with ⟨c, mk, bs, h⟩ | h
  · obtain ⟨henc, -⟩ := h.encode_eq
    simpa [henc] using h.decode_append []
  · rw [h, decode]

/-- Settles O54: what is decoded is a term whose bytes the input begins with. -/
theorem encodeDecode : Obligations.EncodeDecode := by
  intro k sl i left c bytes _ hsl hd
  obtain ⟨mk, bs, more, h, rfl, rfl⟩ := wireTerm_of_decode hsl hd
  obtain ⟨henc, he⟩ := h.encode_eq
  refine ⟨he, h.context_eq, bs, more, by rw [henc, h.slotBytes_eq], rfl, fun hnone => ?_, fun sl' hsome => ?_⟩
  · simpa using hnone
  · simp only [Option.ite_none_left_eq_some, Option.some.injEq, List.isEmpty_iff] at hsome
    obtain ⟨hmore, rfl⟩ := hsome
    exact ⟨h.slotBytes_eq more, hmore⟩

/-- Settles O55: each word by evaluating the decoder on it. -/
theorem decodedWords : Obligations.DecodedWords := by
  refine ⟨?_, ?_, ?_, ?_, ?_, ?_, ?_⟩ <;> decide

end Sys2Proof
end

section
/-! The wire-level rows from a frame boundary: a type alone, a Data frame, an atomic frame (R80 to R104, R142 to R171). -/

namespace Sys2Proof.Machine

open Sys2Proof.Safety

/-! A term as its bytes. -/

/-- An encodable wire-level term presents its bytes. -/
theorem exec_wire_eq_present {i : Instr} {s : State} {c : Nat} {bs : List Byte}
    (he : encode s.cfg i = .varint c bs ∨ encode s.cfg i = .frame c bs) (hi : i.encodable s.cfg = true) :
    exec i s = s.present c bs := by
  obtain ⟨-, hexec⟩ := exec_wire he
  rw [hexec s rfl, State.presentWire_cases he, if_pos hi]

/-- Settles O19: both sides present the same bytes. -/
theorem wireTermIsItsBytes : Obligations.WireTermIsItsBytes := by
  intro i c bs s he hi
  rw [exec_wire_eq_present he hi]
  rfl

/-! The type VarInt alone (R144, R145). -/

/-- A type VarInt presented at a frame boundary: the fatal entry for a reserved type, else the length is awaited. -/
theorem State.present_type {s : State} {c : Nat} (hc : s.hasCtx c = true) (hb : (s.ctx c).atBoundary = true)
    {w : Width} {t : U62} (ht : w.fits t.toNat = true) :
    s.present c (viEncAt w t.toNat) = .next (if isReserved s.cfg t.toNat = true
      then stopped s c { s.ctx c with viRem := 0, viAcc := t, ftype := t } .frameUnexpected []
      else decoded s c { s.ctx c with viRem := 0, viAcc := t, ftype := t, state := .awaitingLength } [] []) := by
  have hfeed := State.feed_type hc hb w t.toNat (fits_iff.mp ht)
  rw [ofNat_toNat_62] at hfeed
  rw [State.present_of_arm hc hfeed]
  cases hr : isReserved s.cfg t.toNat with
  | true =>
    have harm : armTypeDone s.cfg { s.ctx c with viRem := 0, viAcc := t } t =
        .raises { s.ctx c with viRem := 0, viAcc := t, ftype := t } .frameUnexpected := by simp [armTypeDone, hr]
    rw [harm, State.answer_raisingArm hc rfl rfl]
    rfl
  | false =>
    have harm : armTypeDone s.cfg { s.ctx c with viRem := 0, viAcc := t } t =
        .quiet { s.ctx c with viRem := 0, viAcc := t, ftype := t, state := .awaitingLength } := by simp [armTypeDone, hr]
    rw [harm, State.answer_quietArm hc rfl (by simp [Arm.quiet])]
    rfl

/-- Settles O21: each row is the bytes of its value in its width, taken as a type. -/
theorem varintRowsGiveType : Obligations.VarintRowsGiveType := by
  intro c i v s hi hc hb
  obtain ⟨w, he, hen, hv⟩ : ∃ w : Width, encode s.cfg i = .varint c (viEncAt w v.toNat) ∧
      i.encodable s.cfg = true ∧ w.fits v.toNat = true := by
    rcases hi with ⟨x, rfl, rfl⟩ | ⟨x, rfl, rfl⟩ | ⟨x, rfl, rfl⟩ | rfl
    · rw [BitVec.toNat_setWidth_of_le (by decide)]
      exact ⟨.v1, rfl, rfl, fits_iff.mpr x.isLt⟩
    · rw [BitVec.toNat_setWidth_of_le (by decide)]
      exact ⟨.v2, rfl, rfl, fits_iff.mpr x.isLt⟩
    · rw [BitVec.toNat_setWidth_of_le (by decide)]
      exact ⟨.v4, rfl, rfl, fits_iff.mpr x.isLt⟩
    · exact ⟨.v8, rfl, rfl, fits_iff.mpr v.isLt⟩
  rw [exec_wire_eq_present (.inl he) hen, State.present_type hc hb hv]

/-- Settles O28: each row is the bytes of a reserved type. -/
theorem reservedRows : Obligations.ReservedRows := by
  intro c tw i t s hi hc hb
  obtain ⟨he, hen, ht, hr⟩ : encode s.cfg i = .frame c (viEncAt tw t.toNat) ∧ i.encodable s.cfg = true ∧
      tw.fits t.toNat = true ∧ isReserved s.cfg t.toNat = true := by
    rcases hi with ⟨rfl, rfl⟩ | ⟨rfl, rfl⟩ | ⟨rfl, rfl⟩ | ⟨rfl, rfl⟩ | ⟨rfl, hen⟩
    case inr.inr.inr.inr =>
      have hlow := hen
      simp only [Instr.encodable, Bool.and_eq_true] at hlow
      obtain ⟨ht, hlow⟩ := hlow
      obtain ⟨hr, -⟩ := isReservedLow_spec hlow
      exact ⟨rfl, hen, ht, hr⟩
    all_goals exact ⟨rfl, rfl, fits_of_lt_64 tw (by decide), by simp [isReserved_iff]⟩
  rw [exec_wire_eq_present (.inr he) hen, State.present_type hc hb ht, if_pos hr]

/-! A Data frame (R148, R151, R158). -/

/-- The registers a running context leaves, and the events it emitted, answered to the host. -/
theorem State.answer_emit {s : State} {c : Nat} {d : Ctx} (ev : List Event) (hc : s.hasCtx c = true)
    (hd : d.state ≠ .fatal) :
    ((s.setCtx c d).emit c ev).answer (.decoded ev (((s.setCtx c d).emit c ev).ctx c).status) =
      decoded s c d ev [] := by
  have h := State.answer_quietArm (r := .emits d ev) hc rfl hd
  rwa [State.applyArm_emits] at h

/-- Inside an open Data frame `frames_of` gathers bytes up to the end, and keeps the frame if their number is the one
declared (R158). -/
theorem framesFrom_dataBytes (n : U62) (p held : List Byte) (es : List Event) :
    framesFrom (some (n, held)) (p.map Event.dataByte ++ .dataEnd :: es) =
      if (held ++ p).length = n.toNat then .data (held ++ p) :: framesFrom none es else framesFrom none es := by
  induction p generalizing held with
  | nil => simp [framesFrom]
  | cons b p ih => simpa [framesFrom] using ih (held ++ [b])

/-- Settles O22: the whole frame's feed, and `frames_of` of its events. -/
theorem dataFrame : Obligations.DataFrame := by
  intro c tw lw p s hv hc hb hfit
  obtain ⟨hkind, -⟩ := kindOf_known hv
  obtain ⟨-, hcodes⟩ := Config.valid_codes hv
  have hr := hcodes s.cfg.tData (by simp [Config.known])
  have hlen := hfit
  simp only [frameFits, Bool.and_eq_true, fits_iff] at hlen
  obtain ⟨ht, hl⟩ := hlen
  have hn : (BitVec.ofNat 62 p.length).toNat = p.length := toNat_ofNat_62 (Nat.lt_of_lt_of_le hl lw.valueBits_le)
  constructor
  · rw [exec_wire_eq_present (i := .data c tw lw p) (.inr rfl) hfit,
      State.present_of_feed hc (State.feed_data_frame hc hb ht hl hr hkind),
      State.answer_emit _ hc (by simp [dataTaken])]
  · have h := framesFrom_dataBytes (BitVec.ofNat 62 p.length) p [] []
    simpa [framesOf, framesFrom, hn] using h

/-! An atomic frame (R147 to R150, R164). -/

/-- `i` is a frame of type `t` and payload `p` that context `c`, at a frame boundary, takes whole: a type that is neither
Data nor reserved, and a payload within the buffer. -/
structure TakesWhole (s : State) (i : Instr) (c : Nat) (tw lw : Width) (t : U62) (p : List Byte) : Prop where
  hasCtx : s.hasCtx c = true
  boundary : (s.ctx c).atBoundary = true
  canonical : (s.ctx c).pbuf.wf = true
  bytes : encode s.cfg i = .frame c (frameBytes tw t.toNat lw p)
  encodable : i.encodable s.cfg = true
  fits : frameFits tw lw t.toNat p = true
  notData : kindOf s.cfg t.toNat ≠ .data
  notReserved : isReserved s.cfg t.toNat = false
  room : inBuffer s.cfg p.length = true

/-- What the parse of the payload makes of the frame: it is emitted, or the cause raised with its last byte (R150). -/
theorem TakesWhole.runs {s : State} {i : Instr} {c : Nat} {tw lw : Width} {t : U62} {p : List Byte}
    (h : TakesWhole s i c tw lw t p) {r : Parsed} (hr : parsePayload s.cfg Config.adapter.decompress t p = r) :
    (∀ f, r.outcome = .ok f → exec i s = .next (decoded s c (frameTaken (s.ctx c) t p) [.frame f] r.calls)) ∧
      ∀ cause, r.outcome = .err cause → exec i s = .next (stopped s c (frameTaken (s.ctx c) t p) cause r.calls) := by
  have hfit := h.fits
  simp only [frameFits, Bool.and_eq_true, fits_iff] at hfit
  obtain ⟨ht, hl⟩ := hfit
  obtain ⟨st, hfeed⟩ :=
    State.feed_atomic_frame h.hasCtx h.boundary h.canonical ht hl h.notReserved h.notData h.room
  rw [exec_wire_eq_present (.inr h.bytes) h.encodable]
  refine ⟨fun f ho => ?_, fun cause ho => ?_⟩ <;> simp only [hr, ho] at hfeed
  · rw [State.present_of_arm h.hasCtx hfeed, State.answer_quietArm h.hasCtx rfl (by simp [frameTaken])]
  · rw [State.present_of_arm h.hasCtx hfeed, State.answer_raisingArm h.hasCtx rfl rfl]
    rfl

/-- A frame of a known kind but Data is taken whole under R10. -/
theorem TakesWhole.of_known {s : State} {i : Instr} {c : Nat} {tw lw : Width} {t : U62} {p : List Byte} {kd : Kind}
    (hv : s.cfg.valid = true) (hc : s.hasCtx c = true) (hb : (s.ctx c).atBoundary = true)
    (hm : (s.ctx c).pbuf.wf = true) (hi : i = frameInstr c tw t.toNat lw p kd) (hfit : frameFits tw lw t.toNat p = true)
    (hk : kindOf s.cfg t.toNat = kd) (hd : kd ≠ .data) (hr : kd ≠ .reserved) (hbuf : inBuffer s.cfg p.length = true) :
    TakesWhole s i c tw lw t p := by
  obtain ⟨hbytes, hen⟩ := frameInstr_spec c hfit hk hr
  subst hi hk
  exact ⟨hc, hb, hm, hbytes, hen, hfit, hd, Bool.eq_false_iff.mpr fun h => hr ((kindOf_reserved_iff hv).mpr h), hbuf⟩

/-- Settles O27: the parse of an unknown type is the frame itself. -/
theorem unknownFrame : Obligations.UnknownFrame := by
  intro c tw lw t p s hc hb hm hen hbuf
  have hfields := hen
  simp only [Instr.encodable, Bool.and_eq_true, decide_eq_true_eq] at hfields
  obtain ⟨hfit, hk⟩ := hfields
  obtain ⟨hr, -⟩ := kindOf_unknown_iff.mp hk
  have h : TakesWhole s (.unknown c tw t lw p) c tw lw t p := ⟨hc, hb, hm, rfl, hen, hfit, by simp [hk], hr, hbuf⟩
  obtain ⟨hok, -⟩ := h.runs (parsePayload_unknown hk)
  exact hok _ rfl

/-- Settles O23: the parse of the payload as exactly one VarInt. -/
theorem singleVarIntFrames : Obligations.SingleVarIntFrames := by
  intro c i mk t tw lw p s hi hv hc hb hm hfit hbuf
  obtain ⟨-, -, hC, -, -, hG, hM⟩ := kindOf_known hv
  obtain ⟨h, hparse⟩ : TakesWhole s i c tw lw t p ∧
      parsePayload s.cfg Config.adapter.decompress t p = parseField mk p := by
    rcases hi with ⟨rfl, rfl, rfl⟩ | ⟨rfl, rfl, rfl⟩ | ⟨rfl, rfl, rfl⟩
    · exact ⟨.of_known hv hc hb hm rfl hfit hC (by decide) (by decide) hbuf, parsePayload_field (.inl ⟨hC, rfl⟩)⟩
    · exact ⟨.of_known hv hc hb hm rfl hfit hG (by decide) (by decide) hbuf,
        parsePayload_field (.inr (.inl ⟨hG, rfl⟩))⟩
    · exact ⟨.of_known hv hc hb hm rfl hfit hM (by decide) (by decide) hbuf,
        parsePayload_field (.inr (.inr ⟨hM, rfl⟩))⟩
  obtain ⟨hok, herr⟩ := h.runs hparse
  refine ⟨fun w v hw hp => hok _ ?_, fun hnone => herr _ ?_⟩
  · simp only [parseField, hp, parseSingle_viEncAt hw]
  · simp only [parseField, parseSingle_none hnone]

/-- Settles O24: the parse of the payload as entries, which is total on those and fails on anything else. -/
theorem settingsFrame : Obligations.SettingsFrame := by
  intro c tw lw p s hv hc hb hm hfit hbuf
  obtain ⟨-, -, -, hk, -⟩ := kindOf_known hv
  have h : TakesWhole s (.settings c tw lw p) c tw lw s.cfg.tSettings p :=
    .of_known hv hc hb hm rfl hfit hk (by decide) (by decide) hbuf
  obtain ⟨hok, herr⟩ := h.runs (parsePayload_settings hk)
  refine ⟨fun es hes hp => hok _ ?_, fun hnone => herr _ ?_⟩
  · simp only [parseSettings, hp, parseEntries_entriesBytes es _ hes (Nat.le_refl _)]
  · cases hparse : parseEntries p.length p with
    | none => simp only [parseSettings, hparse]
    | some es =>
      obtain ⟨ws, hws, hp, -⟩ := entriesBytes_of_parseEntries _ _ _ hparse
      exact absurd hp (hnone ws hws)

/-- A frame whose parse hands `block` to the adapter: its answer is the frame or `AdapterFailure` (R169, R170). -/
theorem TakesWhole.runs_block {s : State} {i : Instr} {c : Nat} {tw lw : Width} {t : U62} {p : List Byte}
    (h : TakesWhole s i c tw lw t p) {mk : FieldList → Frame 62} {block : List Byte}
    (hr : parsePayload s.cfg Config.adapter.decompress t p = parseBlock Config.adapter.decompress mk block) :
    exec i s = .next (match Config.adapter.decompress block with
      | some fields => decoded s c (frameTaken (s.ctx c) t p) [.frame (mk fields)] [.decompress block (some fields)]
      | none => stopped s c (frameTaken (s.ctx c) t p) .adapterFailure [.decompress block none]) := by
  obtain ⟨hok, herr⟩ := h.runs hr
  cases ha : Config.adapter.decompress block with
  | some fields => simpa [parseBlock, ha] using hok (mk fields) (by simp [parseBlock, ha])
  | none => simpa [parseBlock, ha] using herr .adapterFailure (by simp [parseBlock, ha])

/-- Settles O25: the block is the payload. -/
theorem headersFrame : Obligations.HeadersFrame := by
  intro c tw lw p s hv hc hb hm hfit hbuf
  obtain ⟨-, hk, -⟩ := kindOf_known hv
  have h : TakesWhole s (.headers c tw lw p) c tw lw s.cfg.tHeaders p :=
    .of_known hv hc hb hm rfl hfit hk (by decide) (by decide) hbuf
  exact h.runs_block (parsePayload_headers hk)

/-- Settles O26: the block is what follows the push id; with no push id the parse ends before the adapter. -/
theorem pushPromiseFrame : Obligations.PushPromiseFrame := by
  intro c tw lw p s hv hc hb hm hfit hbuf
  obtain ⟨-, -, -, -, hk, -⟩ := kindOf_known hv
  have h : TakesWhole s (.pushPromise c tw lw p) c tw lw s.cfg.tPushPromise p :=
    .of_known hv hc hb hm rfl hfit hk (by decide) (by decide) hbuf
  refine ⟨fun w v block hw hp => h.runs_block ((parsePayload_pushPromise hk).trans ?_), fun hnone => ?_⟩
  · simp only [parsePushPromise, hp, viDec_viEncAt w v.toNat block (fits_iff.mp hw), drop_viEncAt, ofNat_toNat_62]
  · have hd : viDec p = none := by
      by_contra hne
      obtain ⟨⟨v, w⟩, hd⟩ := Option.ne_none_iff_exists'.mp hne
      have hw := fits_iff.mpr (viDec_lt hd)
      have hn := toNat_ofNat_of_fits hw
      exact hnone w (BitVec.ofNat 62 v) _ (hn.symm ▸ hw) (hn.symm ▸ viEncAt_of_viDec hd)
    have hparse : parsePushPromise Config.adapter.decompress p = { calls := [], outcome := .err .frameError } := by
      simp only [parsePushPromise, hd]
    obtain ⟨-, herr⟩ := h.runs ((parsePayload_pushPromise hk).trans hparse)
    exact herr _ rfl

end Sys2Proof.Machine
end

section
/-! The VarInt codec: the encoder's laws and bytes, the decoder's answer, the byte-serial step (R120 to R130). -/

namespace Sys2Proof

open Sys2Proof.Machine Sys2Proof.Safety

/-! Minimal encoding and its decoding (R121, R122, R124). -/

/-- The minimal width is no wider than any width that holds the value (R121). -/
theorem viWidth_bytes_le {w : Width} {v : Nat} (h : v < 2 ^ w.valueBits) : (viWidth v).bytes ≤ w.bytes := by
  unfold viWidth
  cases w with
  | v1 => have h : v < 2 ^ 6 := h; rw [if_pos h]
  | v2 => have h : v < 2 ^ 14 := h; split_ifs <;> decide
  | v4 => have h : v < 2 ^ 30 := h; split_ifs <;> decide
  | v8 => split_ifs <;> decide

/-- The width decoded is the one the first byte announces (R84). -/
theorem widthOfFirst_of_viDec {b : Byte} {rest : List Byte} {v : Nat} {w : Width}
    (h : viDec (b :: rest) = some (v, w)) : widthOfFirst b = w := by
  simp only [viDec, Option.ite_none_left_eq_some, Option.some.injEq, Prod.mk.injEq] at h
  obtain ⟨-, -, hw⟩ := h
  exact hw

/-- `vi_dec` of fewer bytes than the first byte announces (R124). -/
theorem viDec_of_short {b : Byte} {rest : List Byte} (h : rest.length + 1 < (widthOfFirst b).bytes) :
    viDec (b :: rest) = none := by rw [viDec, if_pos h]

/-- `vi_dec` of at least the bytes the first byte announces (R124). -/
theorem viDec_of_long {b : Byte} {rest : List Byte} (h : ¬ rest.length + 1 < (widthOfFirst b).bytes) :
    viDec (b :: rest) =
      some (beAccumulate (b.toNat % 64) (rest.take ((widthOfFirst b).bytes - 1)), widthOfFirst b) := by
  rw [viDec, if_neg h]

/-- Minimal encoding is injective, since it can be decoded (R122). -/
theorem viEncMin_injective {v u : Nat} (hv : v < 2 ^ 62) (hu : u < 2 ^ 62) (h : viEncMin v = viEncMin u) : v = u := by
  have hdec := viDec_viEncMin v [] hv
  rw [h, viDec_viEncMin u [] hu, Option.some.injEq, Prod.mk.injEq] at hdec
  exact hdec.1.symm

/-- Settles O1: `vi_dec` undoes `vi_enc` and reads the width off the first byte, so the other laws follow from it. -/
theorem varIntCodecLaws : Obligations.VarIntCodecLaws := by
  refine ⟨fun v hv => viEnc_of_le hv, fun v u hv hu h => ?_, fun v hv => ?_⟩
  · rw [viEnc_of_lt hv, viEnc_of_lt hu, Option.some.injEq] at h
    exact viEncMin_injective hv hu h
  · obtain ⟨b, rest, hbs⟩ : ∃ b rest, viEncMin v = b :: rest := ⟨_, _, viEncAt_eq_cons _ _⟩
    have hdec : ∀ s, viDec (b :: rest ++ s) = some (v, viWidth v) := fun s => hbs ▸ viDec_viEncMin v s hv
    refine ⟨b, rest, by rw [viEnc_of_lt hv, hbs], ?_, ?_, hdec, fun s w h => viWidth_bytes_le (viDec_lt h)⟩
    · rw [← viEncMin_length, hbs, List.length_cons]
    · rw [← widthOfFirst_bytes, widthOfFirst_of_viDec (hdec [])]

/-! What `VI_ENC` and `VI_DEC` answer (R120, R124). -/

theorem exec_viEnc (v : U64) (s : State) : exec (.viEnc v) s = .next (s.answer (Machine.viEncResult v)) := rfl

theorem exec_viDec (bs : List Byte) (s : State) : exec (.viDec bs) s = .next (s.answer (Machine.viDecResult bs)) := rfl

/-- The bytes of a number by position, most significant first. -/
theorem beBytes_eq_map (n x : Nat) :
    beBytes n x = (List.range n).map fun i => BitVec.ofNat 8 (x / 256 ^ (n - 1 - i)) := by
  induction n with
  | zero => rfl
  | succ n ih =>
    rw [beBytes, ih, List.range_succ_eq_map, List.map_cons, List.map_map]
    simp [Function.comp_def, Nat.sub_sub, Nat.add_comm]

/-- The minimal width and its tag by the ranges of R121. -/
theorem viWidth_bytes_tag (v : Nat) : ((viWidth v).bytes, (viWidth v).tag) =
    if v < 2 ^ 6 then (1, 0) else if v < 2 ^ 14 then (2, 1) else if v < 2 ^ 30 then (4, 2) else (8, 3) := by
  unfold viWidth
  split_ifs <;> rfl

/-- Settles O3: the ranges name the minimal width and its tag, and the bytes are `vi_enc`'s by position. -/
theorem viEncResult : Obligations.ViEncResult := by
  intro v s w tag hw
  rw [← viWidth_bytes_tag, Prod.mk.injEq] at hw
  obtain ⟨rfl, rfl⟩ := hw
  rw [exec_viEnc]
  by_cases hv : v.toNat < 2 ^ 62
  · rw [if_pos hv, Machine.viEncResult, viEnc_of_lt hv, viEncMin, viEncAt, beBytes_eq_map]
    rfl
  · rw [if_neg hv, Machine.viEncResult, viEnc_of_le (Nat.le_of_not_lt hv)]
    rfl

theorem beAccumulate_eq_foldl (acc : Nat) (bs : List Byte) :
    beAccumulate acc bs = bs.foldl (fun a x => a * 256 + x.toNat) acc := by
  induction bs generalizing acc with
  | nil => rfl
  | cons b bs ih => rw [beAccumulate, ih, List.foldl_cons]

/-- Settles O4: the width is the one the first byte announces, and a decoded value is below `2^62`. -/
theorem viDecResult : Obligations.ViDecResult := by
  refine ⟨fun s => rfl, fun b rest s w v hw hv => ?_⟩
  subst hw
  rw [← widthOfFirst_bytes, ← beAccumulate_eq_foldl] at hv
  rw [← widthOfFirst_bytes]
  subst hv
  rw [exec_viDec]
  by_cases hlen : rest.length + 1 < (widthOfFirst b).bytes
  · rw [if_pos hlen, Machine.viDecResult, viDec_of_short hlen]
    exact ⟨rfl, fun h => absurd hlen (Nat.not_lt.mpr h)⟩
  · rw [if_neg hlen, Machine.viDecResult, viDec_of_long hlen]
    exact ⟨rfl, fun _ => viDec_lt_62 (viDec_of_long hlen)⟩

/-! The byte-serial step (R127, R128). -/

theorem viStep_fst (d : Ctx) (b : Byte) : (viStep d b).1 = tookByte d b := by rw [viStep_eq]

/-- Under R37(a) a continuation byte leaves 62 bits minus those of the bytes still due (R128). -/
theorem viAcc_mul_add_lt {d : Ctx} (hrem : d.viRem ≠ 0) (h : viOk d = true) (b : Byte) :
    d.viAcc.toNat * 256 + b.toNat < 2 ^ (62 - 8 * (d.viRem.toNat - 1)) := by
  have hacc : d.viAcc.toNat < 2 ^ (62 - 8 * d.viRem.toNat) := by
    simp only [viOk, Bool.or_eq_true, decide_eq_true_eq] at h
    exact h.resolve_left hrem
  have hpos : d.viRem.toNat ≠ 0 := fun h0 => hrem (BitVec.eq_of_toNat_eq h0)
  have hlt := d.viRem.isLt
  have hb := b.isLt
  have hpow : 2 ^ (62 - 8 * (d.viRem.toNat - 1)) = 2 ^ (62 - 8 * d.viRem.toNat) * 2 ^ 8 := by
    rw [← pow_add]
    congr 1
    omega
  omega

/-- Settles O5: the byte is taken, without overflow, and R37(a) is kept. -/
theorem varIntStep : Obligations.VarIntStep := by
  intro d b
  refine ⟨fun hrem => ?_, fun hrem hok => ⟨viAcc_mul_add_lt hrem hok b, ?_⟩, rfl, fun hok => ?_⟩
  · rw [viStep_fst, tookByte, missing, gathered, if_pos hrem, if_pos hrem]
  · rw [viStep_fst, tookByte, missing, gathered, if_neg hrem, if_neg hrem]
  · rw [viStep_fst]
    exact viOk_tookByte hok b

/-! A sequence fed byte by byte (R130). -/

/-- Reducing the accumulator to 62 bits does not change the low 62 bits accumulated. -/
theorem ofNat_beAccumulate_ofNat (x : Nat) (bs : List Byte) :
    BitVec.ofNat 62 (beAccumulate (BitVec.ofNat 62 x).toNat bs) = BitVec.ofNat 62 (beAccumulate x bs) := by
  rw [beAccumulate_eq, beAccumulate_eq x]
  simp only [BitVec.ofNat_add, BitVec.ofNat_mul, BitVec.ofNat_toNat, BitVec.setWidth_eq]

theorem missing_eq_widthOfFirst {d : Ctx} (h : d.viRem = 0) (b : Byte) : missing d b = (widthOfFirst b).bytes - 1 := by
  rw [missing, if_pos h, widthOfFirst_bytes]

theorem tookByte_viRem_ne_zero {d : Ctx} {b : Byte} (h : missing d b ≠ 0) : (tookByte d b).viRem ≠ 0 := by
  intro h0
  rw [← tookByte_viRem, h0] at h
  exact h rfl

/-- Each byte taken leaves one byte fewer due (R127). -/
theorem missing_tookByte {d : Ctx} {b : Byte} (h : missing d b ≠ 0) (b' : Byte) :
    missing (tookByte d b) b' = missing d b - 1 := by
  rw [missing, if_neg (tookByte_viRem_ne_zero h), tookByte_viRem]

theorem gathered_tookByte {d : Ctx} {b : Byte} (h : missing d b ≠ 0) (b' : Byte) :
    gathered (tookByte d b) b' = BitVec.ofNat 62 ((gathered d b).toNat * 256 + b'.toNat) := by
  rw [gathered, if_neg (tookByte_viRem_ne_zero h)]
  rfl

theorem viTrace_cons (d : Ctx) (b : Byte) (bs : List Byte) : viTrace d (b :: bs) =
    (if missing d b = 0 then some (gathered d b) else none) :: viTrace (tookByte d b) bs := by
  rw [viTrace, viStep_eq]

/-- Fewer bytes than are due after the first: every one is `Pending`. -/
theorem viTrace_pending {d : Ctx} {b : Byte} {bs : List Byte} (h : bs.length < missing d b) :
    viTrace d (b :: bs) = List.replicate (bs.length + 1) none := by
  have hne : missing d b ≠ 0 := by omega
  induction bs generalizing d b with
  | nil => rw [viTrace_cons, if_neg hne]; rfl
  | cons b' bs ih =>
    rw [List.length_cons] at h
    have hmiss := missing_tookByte hne b'
    rw [viTrace_cons, if_neg hne, ih (by omega) (by omega)]
    rfl

/-- Exactly the bytes due after the first: the last one is `Done` with all that was gathered. -/
theorem viTrace_done {d : Ctx} {b : Byte} {bs : List Byte} (h : bs.length = missing d b) :
    viTrace d (b :: bs) = List.replicate bs.length none ++
      [some (BitVec.ofNat 62 (beAccumulate (gathered d b).toNat bs))] := by
  induction bs generalizing d b with
  | nil =>
    rw [viTrace_cons, if_pos (show missing d b = 0 from h.symm), beAccumulate, BitVec.ofNat_toNat, BitVec.setWidth_eq]
    rfl
  | cons b' bs ih =>
    rw [List.length_cons] at h
    have hne : missing d b ≠ 0 := by omega
    rw [viTrace_cons, if_neg hne, ih (by rw [missing_tookByte hne]; omega), gathered_tookByte hne,
      ofNat_beAccumulate_ofNat]
    rfl

/-- Settles O6: the first byte announces the width to both, and both accumulate the rest the same way. -/
theorem byteSerialAgrees : Obligations.ByteSerialAgrees := by
  intro d bs hrem
  cases bs with
  | nil => rfl
  | cons b rest =>
    have hmiss := missing_eq_widthOfFirst hrem b
    have hpos := (widthOfFirst b).bytes_pos
    by_cases hlen : rest.length + 1 < (widthOfFirst b).bytes
    · rw [viDec_of_short hlen]
      exact viTrace_pending (by omega)
    · have htake : (rest.take ((widthOfFirst b).bytes - 1)).length = (widthOfFirst b).bytes - 1 := by
        rw [List.length_take]; omega
      have hdone := viTrace_done (htake.trans hmiss.symm)
      rw [gathered, if_pos hrem, ofNat_beAccumulate_ofNat, htake] at hdone
      rw [viDec_of_long hlen]
      simpa only [List.take_cons hpos] using hdone

end Sys2Proof
end

section
/-! `DEC_BYTE` arm by arm, in the terms of the rules: the VarInt bytes, the length, the payload, the stop (R143 to
R152). -/

namespace Sys2Proof.Machine

open Sys2Proof.Safety

/-! `DEC_BYTE` from its arm. -/

theorem exec_decByte_of_quietArm {s : State} {c : Nat} {b : Byte} {r : Arm} (hc : s.hasCtx c = true)
    (h : ctxByte s.cfg Config.adapter.decompress (s.ctx c) b = .ok r) (hr : r.raised = none)
    (hs : r.ctx.state ≠ .fatal) : exec (.decByte c b) s = .next (decoded s c r.ctx r.events r.calls) := by
  rw [← State.answer_quietArm hc hr hs]
  exact execDecByte_of_arm hc h

theorem exec_decByte_of_raisingArm {s : State} {c : Nat} {b : Byte} {r : Arm} {cause : Cause} (hc : s.hasCtx c = true)
    (h : ctxByte s.cfg Config.adapter.decompress (s.ctx c) b = .ok r) (hr : r.raised = some cause)
    (hev : r.events = []) : exec (.decByte c b) s = .next (stopped s c r.ctx cause r.calls) := by
  rw [← State.answer_raisingArm hc hr hev]
  exact execDecByte_of_arm hc h

/-- A step that completes a payload within the buffer, of a type that has a parser (R150). -/
theorem exec_decByte_completes {s : State} {c : Nat} {b : Byte} {d : Ctx} {p : List Byte} (hc : s.hasCtx c = true)
    (h : ctxByte s.cfg Config.adapter.decompress (s.ctx c) b = completeAtomic s.cfg Config.adapter.decompress d)
    (hroom : inBuffer s.cfg d.flen.toNat = true) (hd : kindOf s.cfg d.ftype.toNat ≠ .data)
    (hr : kindOf s.cfg d.ftype.toNat ≠ .reserved) (hp : d.pbuf.slice 0 d.flen.toNat = p) :
    completes s c d (parsePayload s.cfg Config.adapter.decompress d.ftype p) (exec (.decByte c b) s) := by
  rw [completeAtomic_eq hroom, hp] at h
  cases ho : (parsePayload s.cfg Config.adapter.decompress d.ftype p).outcome with
  | ok f =>
    simp only [completes, ho] at h ⊢
    exact exec_decByte_of_quietArm hc h rfl (by simp)
  | err cause =>
    simp only [completes, ho] at h ⊢
    exact exec_decByte_of_raisingArm hc h rfl rfl
  | noParser => exact absurd (parsePayload_noParser ho) (not_or.mpr ⟨hd, hr⟩)

/-! The VarInt of a type or a length (R143 to R148). -/

/-- Settles O7: both states wait, with the byte taken. -/
theorem varIntNotComplete : Obligations.VarIntNotComplete := by
  intro c b s hc hst hm
  have harm : ctxByte s.cfg Config.adapter.decompress (s.ctx c) b = .ok (.quiet (tookByte (s.ctx c) b)) := by
    rcases hst with hst | hst
    · rw [ctxByte_type hst, if_neg hm]
    · rw [ctxByte_length hst, if_pos hm]
  exact exec_decByte_of_quietArm hc harm rfl (by rcases hst with hst | hst <;> simp [Arm.quiet, tookByte, hst])

/-- Settles O8: the arm of a type that is not reserved. -/
theorem typeComplete : Obligations.TypeComplete := by
  intro c b s hc hst hm hr
  have harm : ctxByte s.cfg Config.adapter.decompress (s.ctx c) b = .ok (.quiet { tookByte (s.ctx c) b with
      ftype := gathered (s.ctx c) b, state := .awaitingLength }) := by
    rw [ctxByte_type hst, if_pos hm, armTypeDone, if_neg (by simp [hr])]
  exact exec_decByte_of_quietArm hc harm rfl (by simp [Arm.quiet])

/-- Settles O9: the arm of a reserved type. -/
theorem typeReserved : Obligations.TypeReserved := by
  intro c b s hc hst hm hr
  have harm : ctxByte s.cfg Config.adapter.decompress (s.ctx c) b = .ok (.raises { tookByte (s.ctx c) b with
      ftype := gathered (s.ctx c) b } .frameUnexpected) := by
    rw [ctxByte_type hst, if_pos hm, armTypeDone, if_pos hr]
  exact exec_decByte_of_raisingArm hc harm rfl rfl

/-- The registers a completed length leaves, from the byte that completed it. -/
theorem lengthTaken_gathered {d : Ctx} {b : Byte} (hm : missing d b = 0) :
    { tookByte d b with flen := gathered d b, prem := gathered d b, pcnt := 0 } = lengthTaken d (gathered d b) := by
  rw [tookByte, hm]
  rfl

/-- The arm of a length that completes, of an atomic kind (R147). -/
theorem ctxByte_lengthAtomic {k : Config} {dec : List Byte → Option FieldList} {d : Ctx} {b : Byte}
    (hst : d.state = .awaitingLength) (hd : kindOf k d.ftype.toNat ≠ .data) (hm : missing d b = 0) :
    ctxByte k dec d b = if inBuffer k (gathered d b).toNat = true then
        if gathered d b = 0 then completeAtomic k dec (lengthTaken d (gathered d b))
        else .ok (.quiet { lengthTaken d (gathered d b) with state := .awaitingPayload })
      else .ok (.raises (lengthTaken d (gathered d b)) .payloadTooLarge) := by
  rw [ctxByte_length hst, if_neg (not_not.mpr hm), if_neg hd, ← lengthTaken_gathered hm]
  rfl

/-- The addresses below `i` exist when `i` is at most PBUF_BYTES (R54). -/
theorem inBuffer_iff {k : Config} {i : Nat} : inBuffer k i = true ↔ ∀ size, k.pbufBytes = some size → i ≤ size := by
  unfold inBuffer
  cases k.pbufBytes <;> simp

/-- Settles O10: the arm's test against the buffer, then its test for 0. -/
theorem lengthCompleteAtomic : Obligations.LengthCompleteAtomic := by
  rintro c b s _ hc hst hd hr hm rfl
  have harm := ctxByte_lengthAtomic (dec := Config.adapter.decompress) hst hd hm
  refine ⟨fun size hsize hlong => ?_, fun hroom hn => ?_, fun hn => ?_⟩
  · have hroom : ¬ inBuffer s.cfg (gathered (s.ctx c) b).toNat = true :=
      fun h => Nat.not_le_of_lt hlong (inBuffer_iff.mp h size hsize)
    rw [if_neg hroom] at harm
    exact exec_decByte_of_raisingArm hc harm rfl rfl
  · rw [if_pos (inBuffer_iff.mpr hroom), if_neg hn] at harm
    exact exec_decByte_of_quietArm hc harm rfl (by simp [Arm.quiet])
  · have hroom : inBuffer s.cfg (gathered (s.ctx c) b).toNat = true := by
      rw [hn]
      exact inBuffer_iff.mpr fun size _ => Nat.zero_le size
    rw [if_pos hroom, if_pos hn] at harm
    exact exec_decByte_completes hc harm hroom hd hr (by rw [hn]; rfl)

/-- Settles O11: the arm's test for 0, and no other. -/
theorem lengthCompleteData : Obligations.LengthCompleteData := by
  rintro c b s _ hc hst hd hm rfl
  have harm : ctxByte s.cfg Config.adapter.decompress (s.ctx c) b =
      .ok (armLengthData (tookByte (s.ctx c) b) (gathered (s.ctx c) b)) := by
    rw [ctxByte_length hst, if_neg (not_not.mpr hm), if_pos hd]
  simp only [armLengthData] at harm
  rw [← lengthTaken_gathered hm]
  split_ifs with hn
  · rw [if_pos hn] at harm
    exact exec_decByte_of_quietArm hc harm rfl (by simp [Arm.emits])
  · rw [if_neg hn] at harm
    exact exec_decByte_of_quietArm hc harm rfl (by simp [Arm.emits])

/-! A payload byte (R149 to R151). -/

/-- The registers after a byte of an atomic payload is stored (R149). -/
def byteStored (d : Ctx) (b : Byte) : Ctx :=
  { d with pbuf := d.pbuf.write d.pcnt b, pcnt := d.pcnt + 1, prem := d.prem - 1 }

/-- The arm of a payload byte of an atomic kind, within the buffer (R149). -/
theorem ctxByte_payloadAtomic {k : Config} {dec : List Byte → Option FieldList} {d : Ctx} {b : Byte}
    (hst : d.state = .awaitingPayload) (hd : kindOf k d.ftype.toNat ≠ .data) (hroom : inBuffer k (d.pcnt + 1) = true) :
    ctxByte k dec d b =
      if d.prem = 1 then completeAtomic k dec (byteStored d b) else .ok (.quiet (byteStored d b)) := by
  simp only [ctxByte_payload hst, if_neg hd, armPayloadAtomic, Ctx.memWrite, if_pos hroom, sub_eq_zero] <;> rfl

/-- What the buffer reads after a byte is stored at `i`: that byte there, elsewhere as before, in canonical form
(R54). -/
theorem Memory.write_reads {m : Memory} (hm : m.wf = true) (i : Nat) (b : Byte) :
    (m.write i b).wf = true ∧ (m.write i b).read i = b ∧ ∀ a, a ≠ i → (m.write i b).read a = m.read a := by
  refine ⟨Memory.write_wf hm i b, ?_, fun a ha => ?_⟩
  · rw [Memory.read_write hm, if_pos rfl]
  · rw [Memory.read_write hm, if_neg ha]

/-- Settles O12: a byte that is not the last due is stored, and nothing else happens. -/
theorem atomicPayloadByte : Obligations.AtomicPayloadByte := by
  intro c b s hc hst hd hprem hroom hwf
  have hlast : (s.ctx c).prem ≠ 1 := fun h => by simp [h] at hprem
  have harm := ctxByte_payloadAtomic (dec := Config.adapter.decompress) (b := b) hst hd hroom
  rw [if_neg hlast] at harm
  obtain ⟨h1, h2, h3⟩ := Memory.write_reads hwf (s.ctx c).pcnt b
  exact ⟨_, h1, h2, h3, exec_decByte_of_quietArm hc harm rfl (by simp [Arm.quiet, byteStored, hst])⟩

/-- Settles O13: the byte stored ends the payload held, and the step completes it. -/
theorem atomicPayloadLastByte : Obligations.AtomicPayloadLastByte := by
  intro c b s hc hst hd hr hprem hflen hroom hwf
  have harm := ctxByte_payloadAtomic (dec := Config.adapter.decompress) (b := b) hst hd (hflen ▸ hroom)
  rw [if_pos hprem, byteStored, hprem] at harm
  obtain ⟨h1, h2, h3⟩ := Memory.write_reads hwf (s.ctx c).pcnt b
  refine ⟨_, h1, h2, h3, exec_decByte_completes hc harm hroom hd hr ?_⟩
  rw [hflen, Memory.slice_succ_right, Nat.zero_add, h2, Memory.slice_write_above hwf 0 _ _ b (by omega)]

/-- Settles O14: the arm's test for the last byte due. -/
theorem dataPayloadByte : Obligations.DataPayloadByte := by
  intro c b s hc hst hd
  have harm : ctxByte s.cfg Config.adapter.decompress (s.ctx c) b = .ok (armPayloadData (s.ctx c) b) := by
    rw [ctxByte_payload hst, if_pos hd]
  simp only [armPayloadData, sub_eq_zero] at harm
  split_ifs with hlast
  · rw [if_pos hlast, hlast] at harm
    exact exec_decByte_of_quietArm hc harm rfl (by simp [Arm.emits])
  · rw [if_neg hlast] at harm
    exact exec_decByte_of_quietArm hc harm rfl (by simp [Arm.emits, hst])

/-! A stopped context (R152). -/

/-- A stopped context takes any bytes without a trace. -/
theorem State.feed_fatal {s : State} {c : Nat} (hst : (s.ctx c).state = .fatal) (bs : List Byte) :
    s.feed c bs = .ok (s, []) := by
  have hbyte : ∀ b, s.byteStep c b = .ok (s, []) := fun b => by
    rw [State.byteStep_of_arm (ctxByte_fatal hst), State.applyArm_quiet, State.setCtx_ctx]
    rfl
  induction bs with
  | nil => rfl
  | cons b bs ih => rw [State.feed_cons_of_ok (hbyte b), ih] <;> rfl

/-- Settles O15: one byte and a chunk alike. -/
theorem fatalDiscards : Obligations.FatalDiscards := by
  intro c b chunk s hc hst
  have hpresent : ∀ bs, s.present c bs = .next { s with
      result := .decoded [] (.fatal (s.ctx c).errCause (s.ctx c).errCode) } := fun bs => by
    rw [State.present_of_feed hc (State.feed_fatal hst bs), Ctx.status, if_pos hst]
    rfl
  exact ⟨(execDecByte_eq_present c b s).trans (hpresent [b]), hpresent chunk⟩

/-- An atomic frame too long for the buffer comes to the arm of its length; its payload is discarded (R147, R152). -/
theorem State.feed_oversized {s : State} {c : Nat} (hc : s.hasCtx c = true) (hb : (s.ctx c).atBoundary = true)
    {tw lw : Width} {t : U62} {p : List Byte} (hfit : frameFits tw lw t.toNat p = true)
    (hr : isReserved s.cfg t.toNat = false) (hd : kindOf s.cfg t.toNat ≠ .data)
    (hroom : ¬ inBuffer s.cfg p.length = true) :
    s.feed c (frameBytes tw t.toNat lw p) = armState s c (.ok (.raises
      (lengthTaken (typeTaken (s.ctx c) t.toNat) (BitVec.ofNat 62 p.length)) .payloadTooLarge)) := by
  simp only [frameFits, Bool.and_eq_true, fits_iff] at hfit
  obtain ⟨ht, hl⟩ := hfit
  have hn : (BitVec.ofNat 62 p.length).toNat = p.length := toNat_ofNat_62 (Nat.lt_of_lt_of_le hl lw.valueBits_le)
  have harm : armLengthAtomic s.cfg Config.adapter.decompress
      { typeTaken (s.ctx c) t.toNat with viRem := 0, viAcc := BitVec.ofNat 62 p.length } (BitVec.ofNat 62 p.length) =
        .ok (.raises (lengthTaken (typeTaken (s.ctx c) t.toNat) (BitVec.ofNat 62 p.length)) .payloadTooLarge) := by
    rw [armLengthAtomic, hn, if_neg hroom]
    rfl
  rw [State.feed_frameBytes hc hb ht hr, State.feed_length hc t.isLt lw p.length hl, if_neg hd, harm]
  have hstop : ∀ d, ((s.applyArm c (.raises d .payloadTooLarge)).ctx c).state = .fatal := fun d => by
    rw [State.applyArm_ctx_self s c _ hc]
    rfl
  simp only [armState, State.feed_fatal (hstop _), List.append_nil]

/-- Settles O29: the arm of the length raises, and the answer is its fatal entry. -/
theorem oversizedFrame : Obligations.OversizedFrame := by
  intro i c t lw p s size hi hv he hc hb hsize hlong
  obtain ⟨tw, henc, hfit, hd, hk⟩ := atomicFrame_spec hi hv he
  have hr : isReserved s.cfg t.toNat = false := Bool.eq_false_iff.mpr fun h => hk ((kindOf_reserved_iff hv).mpr h)
  have hroom : ¬ inBuffer s.cfg p.length = true := fun h => Nat.not_le_of_lt hlong (inBuffer_iff.mp h size hsize)
  rw [exec_wire_eq_present (.inr henc) he, State.present_of_arm hc (State.feed_oversized hc hb hfit hr hd hroom),
    State.answer_raisingArm hc rfl rfl]
  simp [stopped, Arm.raises, lengthTaken, typeTaken]

end Sys2Proof.Machine
end

section
/-! Feeds as presentations of their bytes: the chunking cannot be seen, and a feed is its byte steps (R155, R156). -/

namespace Sys2Proof.Machine

open Sys2Proof.Safety

theorem exec_decFeed (c : Nat) (bs : List Byte) (s : State) : exec (.decFeed c bs) s = s.present c bs := rfl

theorem State.present_of_fault {s : State} {c : Nat} {bs : List Byte} {f : Fault} (hc : s.hasCtx c = true)
    (h : s.feed c bs = .error f) : s.present c bs = .fault f := by simp [State.present, hc, h]

/-- No feed changes which contexts exist. -/
theorem State.feed_hasCtx {s s1 : State} {c : Nat} {bs : List Byte} {ev : List Event} (h : s.feed c bs = .ok (s1, ev))
    (c' : Nat) : s1.hasCtx c' = s.hasCtx c' := by
  obtain ⟨-, -, -, -, -, -, hlen, -⟩ := State.feed_frame h
  rw [State.hasCtx, State.hasCtx, hlen]

/-- Settles O18: feeding a concatenation is feeding its parts, and the result between them is not read. -/
theorem chunkingInvariance : Obligations.ChunkingInvariance := by
  intro c xs ys s hc
  simp only [exec_decFeed]
  have happend := State.feed_append s c xs ys
  cases hx : s.feed c xs with
  | error f =>
    rw [hx] at happend
    simp only [State.present_of_fault hc hx, State.present_of_fault hc happend]
  | ok q =>
    obtain ⟨s1, e1⟩ := q
    have hanswer := State.feed_answer c (.decoded e1 (s1.ctx c).status) ys s1
    have hc1 : (s1.answer (.decoded e1 (s1.ctx c).status)).hasCtx c = true := (State.feed_hasCtx hx c).trans hc
    simp only [hx] at happend
    rw [State.present_of_feed hc hx]
    cases hy : s1.feed c ys with
    | error f =>
      rw [hy] at happend hanswer
      simp only [State.present_of_fault hc1 hanswer, State.present_of_fault hc happend]
    | ok q =>
      obtain ⟨s2, e2⟩ := q
      rw [hy] at happend hanswer
      simp only [State.present_of_feed hc1 hanswer, State.present_of_feed hc happend]
      exact ⟨e1, _, e2, _, rfl, rfl, rfl⟩

/-- From a state of the invariant a feed goes on and keeps it (R300). -/
theorem exec_decFeed_completes {s : State} {c : Nat} (hc : s.hasCtx c = true) (hi : inv s = true) (bs : List Byte) :
    ∃ t, exec (.decFeed c bs) s = .next t ∧ inv t = true ∧ t.hasCtx c = true := by
  obtain ⟨s1, ev, hfeed, hi1, hc1⟩ := State.feed_inv bs s hi hc
  exact ⟨_, State.present_of_feed hc hfeed, hi1, hc1⟩

/-- Settles O17: `DEC_BYTE` is the feed of one byte, so a feed of `b :: bs` is the two chunks `[b]` and `bs`. -/
theorem feedIsByteSteps : Obligations.FeedIsByteSteps := by
  refine ⟨fun c s hc => State.present_of_feed hc (State.feed_nil s c), fun c b bs s hc hi => ?_⟩
  obtain ⟨s1, hbyte, hi1, hc1⟩ := exec_decFeed_completes hc hi [b]
  obtain ⟨s2, hrest, -, -⟩ := exec_decFeed_completes hc1 hi1 bs
  have hchunks := chunkingInvariance c [b] bs s hc
  simp only [hbyte, hrest] at hchunks
  obtain ⟨e1, st1, e2, st2, h1, h2, hboth⟩ := hchunks
  exact ⟨s1, s2, e1, st1, e2, st2, (execDecByte_eq_present c b s).trans hbyte, h1, hrest, h2, hboth⟩

end Sys2Proof.Machine
end

section
/-! The round trip: the decoder reads the encoder's bytes back as the frame they were written for (R159, R190 to
R202). -/

namespace Sys2Proof.Machine

open Sys2Proof.Safety

/-! What a request builds (R190). -/

/-- `build(f)` by kind; `comp` is the adapter's `compress` at this point of its history (R194 to R202). -/
def Frame.built (k : Config) (comp : FieldList → List Byte) : Frame 64 → Built
  | .cancelPush v => buildField k.tCancelPush v
  | .data p => .plain (.ok (k.tData, p))
  | .goAway v => buildField k.tGoAway v
  | .maxPushId v => buildField k.tMaxPushId v
  | .settings es => buildSettings k.tSettings es
  | .headers fs => buildHeaders comp k.tHeaders fs
  | .pushPromise v fs => buildPushPromise comp k.tPushPromise v fs
  | .unknown t p => buildUnknown k t p

/-- Every request is the common scheme over its frame's build. -/
theorem exec_frameRequest (f : Frame 64) (s : State) :
    exec f.request s = .next (s.encodeFrame f (f.built s.cfg s.compress)) := by
  cases f <;> rfl

/-- A request that answers bytes wrote its build in minimal widths (R190, R204). -/
theorem built_of_encoded {f : Frame 64} {s t : State} {bs : List Byte} (h : exec f.request s = .next t)
    (hres : t.result = .encoded bs) : ∃ (ty : U62) (p : List Byte), (f.built s.cfg s.compress).outcome = .ok (ty, p) ∧
      p.length < 2 ^ 62 ∧ bs = frameBytes (viWidth ty.toNat) ty.toNat (viWidth p.length) p := by
  rw [exec_frameRequest] at h
  cases h
  rcases State.encodeFrame_cases s f (f.built s.cfg s.compress) with ⟨cause, he⟩ | ⟨ty, p, hb, hp, he⟩ <;>
    rw [he] at hres <;> cases hres
  exact ⟨ty, p, hb, hp, rfl⟩

/-- The length a frame declares is its payload's (R80). -/
theorem declaredLength_frameBytes {tw lw : Width} {t : Nat} {p : List Byte} (hfit : frameFits tw lw t p = true) :
    declaredLength (frameBytes tw t lw p) = some p.length := by
  simp only [frameFits, Bool.and_eq_true, fits_iff] at hfit
  obtain ⟨ht, hl⟩ := hfit
  rw [declaredLength, frameBytes, List.append_assoc, viDec_viEncAt tw t _ ht]
  simp [viDec_viEncAt lw p.length p hl]

/-- Minimal widths hold a type and the length of a payload that can be encoded (R121). -/
theorem frameFits_minimal (ty : U62) {p : List Byte} (hp : p.length < 2 ^ 62) :
    frameFits (viWidth ty.toNat) (viWidth p.length) ty.toNat p = true := by
  simp [frameFits, fits_iff, viWidth_fits ty.isLt, viWidth_fits hp]

/-! A 64-bit field in range survives 62 bits (C11). -/

/-- The field as the decoder's registers hold it. -/
theorem toNat_narrow {v : U64} (h : v.toNat < 2 ^ 62) : (v.setWidth 62).toNat = v.toNat := by
  rw [BitVec.toNat_setWidth, Nat.mod_eq_of_lt h]

theorem widen_narrow {v : U64} (h : v.toNat < 2 ^ 62) : (v.setWidth 62).setWidth 64 = v := by
  apply BitVec.eq_of_toNat_eq
  rw [BitVec.toNat_setWidth_of_le (by decide), toNat_narrow h]

/-- A field the encoder takes is in range, and its bytes are a VarInt of the narrowed field (R191). -/
theorem encField_ok {v : U64} {p : List Byte} (h : encField v = .ok p) : v.toNat < 2 ^ 62 ∧
    p = viEncAt (viWidth v.toNat) (v.setWidth 62).toNat ∧ (viWidth v.toNat).fits (v.setWidth 62).toNat = true := by
  by_cases hv : v.toNat < 2 ^ 62
  · rw [encField_of_lt hv] at h
    cases h
    rw [toNat_narrow hv]
    exact ⟨hv, rfl, fits_iff.mpr (viWidth_fits hv)⟩
  · rw [encField_of_le (Nat.le_of_not_lt hv)] at h
    cases h

/-! Each payload parser undoes its builder. -/

/-- A parse that answers `f` as the encoder's host presents it. -/
def ParsesTo (r : Parsed) (f : Frame 64) : Prop := ∃ g : Frame 62, r.outcome = .ok g ∧ g.widen = f

/-- One VarInt field (R164, R195 to R197). -/
theorem parseField_buildField (mk : U62 → Frame 62) (mk' : U64 → Frame 64)
    (hmk : ∀ x, (mk x).widen = mk' (x.setWidth 64)) {tc t : U62} {v : U64} {p : List Byte}
    (h : (buildField tc v).outcome = .ok (t, p)) : t = tc ∧ ParsesTo (parseField mk p) (mk' v) := by
  cases hb : encField v with
  | error c => simp [buildField, Built.plain, hb] at h
  | ok q =>
    obtain ⟨hv, rfl, hfit⟩ := encField_ok hb
    simp only [buildField, Built.plain, hb, Except.ok.injEq, Prod.mk.injEq] at h
    obtain ⟨rfl, rfl⟩ := h
    exact ⟨rfl, mk (v.setWidth 62), by simp only [parseField, parseSingle_viEncAt hfit], by rw [hmk, widen_narrow hv]⟩

/-- A Settings entry with the widths the encoder writes it in. -/
def minimalEntry (e : U64 × U64) : Width × U62 × Width × U62 :=
  (viWidth e.1.toNat, e.1.setWidth 62, viWidth e.2.toNat, e.2.setWidth 62)

/-- The Settings payload is its entries in minimal widths, all of them in range (R198). -/
theorem settingsBytes_eq_entriesBytes {es : List (U64 × U64)} {p : List Byte} (h : settingsBytes es = .ok p) :
    p = entriesBytes (es.map minimalEntry) ∧ entriesFit (es.map minimalEntry) = true ∧
      ∀ e ∈ es, e.1.toNat < 2 ^ 62 ∧ e.2.toNat < 2 ^ 62 := by
  induction es generalizing p with
  | nil => cases h; exact ⟨rfl, rfl, nofun⟩
  | cons e es ih =>
    simp only [settingsBytes] at h
    split at h <;> try cases h
    rename_i a ha
    split at h <;> try cases h
    rename_i b hb
    split at h <;> cases h
    rename_i q hq
    obtain ⟨h1, rfl, hfit1⟩ := encField_ok ha
    obtain ⟨h2, rfl, hfit2⟩ := encField_ok hb
    obtain ⟨rfl, hfit, hrange⟩ := ih hq
    refine ⟨rfl, ?_, List.forall_mem_cons.mpr ⟨⟨h1, h2⟩, hrange⟩⟩
    simp only [entriesFit, List.map_cons, List.all_cons, minimalEntry, hfit1, hfit2] at hfit ⊢
    exact hfit

theorem parseSettings_settingsBytes {es : List (U64 × U64)} {p : List Byte} (h : settingsBytes es = .ok p) :
    ParsesTo (parseSettings p) (.settings es) := by
  obtain ⟨rfl, hfit, hrange⟩ := settingsBytes_eq_entriesBytes h
  refine ⟨.settings (entriesOf (es.map minimalEntry)), ?_, ?_⟩
  · simp only [parseSettings, parseEntries_entriesBytes _ _ hfit (Nat.le_refl _)]
  · simp only [Frame.widen, entriesOf, List.map_map, Frame.settings.injEq]
    refine (List.map_congr_left fun e he => ?_).trans (List.map_id es)
    obtain ⟨h1, h2⟩ := hrange e he
    exact Prod.ext (widen_narrow h1) (widen_narrow h2)

section
variable {dec : List Byte → Option FieldList} {comp : FieldList → List Byte} (hadapter : ∀ fs, dec (comp fs) = some fs)
include hadapter

/-- A header block the adapter wrote (R221). -/
theorem parseBlock_compress (mk : FieldList → Frame 62) (fs : FieldList) {f : Frame 64} (hf : (mk fs).widen = f) :
    ParsesTo (parseBlock dec mk (comp fs)) f :=
  ⟨mk fs, by simp only [parseBlock, hadapter], hf⟩

theorem parsePushPromise_buildPushPromise {tc t : U62} {v : U64} {fs : FieldList} {p : List Byte}
    (h : (buildPushPromise comp tc v fs).outcome = .ok (t, p)) :
    t = tc ∧ ParsesTo (parsePushPromise dec p) (.pushPromise v fs) := by
  cases hb : encField v with
  | error c => simp [buildPushPromise, Built.plain, hb] at h
  | ok q =>
    obtain ⟨hv, rfl, hfit⟩ := encField_ok hb
    simp only [buildPushPromise, hb, Except.ok.injEq, Prod.mk.injEq] at h
    obtain ⟨rfl, rfl⟩ := h
    refine ⟨rfl, ?_⟩
    simp only [parsePushPromise, viDec_viEncAt _ _ _ (fits_iff.mp hfit), drop_viEncAt, ofNat_toNat_62]
    exact parseBlock_compress hadapter _ fs (by rw [Frame.widen, widen_narrow hv])

/-- What the encoder built for a frame of an atomic kind, the decoder's parser reads back (R164, R190). -/
theorem parsePayload_built {k : Config} (hv : k.valid = true) {f : Frame 64} {t : U62} {p : List Byte}
    (h : (f.built k comp).outcome = .ok (t, p)) (hd : ∀ p, f ≠ .data p)
    (hu : ∀ ty p, f = .unknown ty p → ∀ x ∈ k.known, x.toNat ≠ ty.toNat) : ParsesTo (parsePayload k dec t p) f := by
  obtain ⟨-, hH, hC, hS, hP, hG, hM⟩ := kindOf_known hv
  cases f with
  | data p => exact absurd rfl (hd p)
  | cancelPush v =>
    obtain ⟨rfl, hparse⟩ := parseField_buildField .cancelPush .cancelPush (fun _ => rfl) h
    rwa [parsePayload_field (.inl ⟨hC, rfl⟩)]
  | goAway v =>
    obtain ⟨rfl, hparse⟩ := parseField_buildField .goAway .goAway (fun _ => rfl) h
    rwa [parsePayload_field (.inr (.inl ⟨hG, rfl⟩))]
  | maxPushId v =>
    obtain ⟨rfl, hparse⟩ := parseField_buildField .maxPushId .maxPushId (fun _ => rfl) h
    rwa [parsePayload_field (.inr (.inr ⟨hM, rfl⟩))]
  | settings es =>
    cases hb : settingsBytes es with
    | error c => simp [Frame.built, buildSettings, Built.plain, hb] at h
    | ok q =>
      simp only [Frame.built, buildSettings, Built.plain, hb, Except.ok.injEq, Prod.mk.injEq] at h
      obtain ⟨rfl, rfl⟩ := h
      rw [parsePayload_settings hS]
      exact parseSettings_settingsBytes hb
  | headers fs =>
    cases h
    rw [parsePayload_headers hH]
    exact parseBlock_compress hadapter _ fs rfl
  | pushPromise v fs =>
    obtain ⟨rfl, hparse⟩ := parsePushPromise_buildPushPromise hadapter h
    rwa [parsePayload_pushPromise hP]
  | unknown ty q =>
    simp only [Frame.built, buildUnknown, Built.plain] at h
    split_ifs at h with hlong hres
    cases h
    have hty : ty.toNat < 2 ^ 62 := Nat.lt_of_not_le hlong
    have hk : kindOf k (ty.setWidth 62).toNat = .unknown := by
      rw [toNat_narrow hty]
      exact kindOf_unknown_iff.mpr ⟨Bool.eq_false_iff.mpr hres, fun x hx => (hu ty p rfl x hx).symm⟩
    rw [parsePayload_unknown hk]
    exact ⟨_, rfl, by rw [Frame.widen, widen_narrow hty]⟩

end

/-- A payload that parses is of an atomic kind (R153, R164). -/
theorem ParsesTo.atomic {k : Config} {dec : List Byte → Option FieldList} {t : U62} {p : List Byte} {f : Frame 64}
    (h : ParsesTo (parsePayload k dec t p) f) : kindOf k t.toNat ≠ .data ∧ kindOf k t.toNat ≠ .reserved := by
  obtain ⟨g, hg, -⟩ := h
  constructor <;> intro hk <;> simp [parsePayload, hk] at hg

/-! The decoder on the encoder's bytes. -/

/-- The registers a decoder step leaves in its context. -/
theorem decoded_ctx {s : State} {c : Nat} (hc : s.hasCtx c = true) (d : Ctx) (ev : List Event)
    (calls : List AdapterCall) : (decoded s c d ev calls).ctx c = d :=
  State.ctx_setCtx_self s c d ((s.hasCtx_iff c).mp hc)

/-- A feed answers the one frame `f` and leaves its context at a frame boundary. -/
def ReadsBack (c : Nat) (bs : List Byte) (u : State) (f : Frame 64) : Prop :=
  ∃ (u' : State) (g : Frame 62) (ev : List Event), exec (.decFeed c bs) u = .next u' ∧ g.widen = f ∧
    u'.result = .decoded ev .needMore ∧ framesOf ev = [g] ∧ (u'.ctx c).atBoundary = true

/-- A wire-level term and the feed of its bytes answer alike, so what a row leaves is what the feed leaves. -/
theorem ReadsBack.of_decoded {c : Nat} {bs : List Byte} {u : State} {f : Frame 64} {g : Frame 62} {i : Instr} {d : Ctx}
    {ev : List Event} {calls : List AdapterCall} (he : encode u.cfg i = .frame c bs) (hi : i.encodable u.cfg = true)
    (hc : u.hasCtx c = true) (h : exec i u = .next (decoded u c d ev calls)) (hg : g.widen = f)
    (hev : framesOf ev = [g]) (hd : d.atBoundary = true) : ReadsBack c bs u f := by
  rw [wireTermIsItsBytes i c bs u (.inr he) hi] at h
  exact ⟨_, g, ev, h, hg, rfl, hev, by rwa [decoded_ctx hc]⟩

/-- A Data frame's bytes (R148, R151, R158). -/
theorem readsBack_data {c : Nat} {tw lw : Width} {p : List Byte} {u : State} (hv : u.cfg.valid = true)
    (hc : u.hasCtx c = true) (hb : (u.ctx c).atBoundary = true)
    (hfit : frameFits tw lw u.cfg.tData.toNat p = true) :
    ReadsBack c (frameBytes tw u.cfg.tData.toNat lw p) u (.data p) := by
  obtain ⟨hexec, hframes⟩ := dataFrame c tw lw p u hv hc hb hfit
  exact .of_decoded (i := .data c tw lw p) rfl hfit hc hexec rfl hframes rfl

/-- The bytes of a frame of an atomic kind whose payload parses (R150). -/
theorem readsBack_atomic {c : Nat} {tw lw : Width} {t : U62} {p : List Byte} {u : State} {f : Frame 64}
    (hv : u.cfg.valid = true) (hc : u.hasCtx c = true) (hb : (u.ctx c).atBoundary = true)
    (hm : (u.ctx c).pbuf.wf = true) (hfit : frameFits tw lw t.toNat p = true) (hbuf : inBuffer u.cfg p.length = true)
    (hparse : ParsesTo (parsePayload u.cfg Config.adapter.decompress t p) f) :
    ReadsBack c (frameBytes tw t.toNat lw p) u f := by
  obtain ⟨hd, hr⟩ := hparse.atomic
  obtain ⟨g, hg, hwiden⟩ := hparse
  have h : TakesWhole u _ c tw lw t p := .of_known hv hc hb hm rfl hfit rfl hd hr hbuf
  obtain ⟨hok, -⟩ := h.runs rfl
  exact .of_decoded h.bytes h.encodable hc (hok g hg) hwiden rfl rfl

/-- Settles O20: the bytes are the frame's build in minimal widths, and the parser of its kind undoes the build. -/
theorem roundTrip : Obligations.RoundTrip := by
  intro f s t u bs c hv hexec hres hcfg hc hb hm hunknown hroom
  obtain ⟨ty, p, hbuilt, hp, rfl⟩ := built_of_encoded hexec hres
  have hfit := frameFits_minimal ty hp
  rw [← hcfg] at hv hunknown hroom hbuilt
  by_cases hdata : ∃ q, f = .data q
  · obtain ⟨q, rfl⟩ := hdata
    cases hbuilt
    exact readsBack_data hv hc hb hfit
  · have hd : ∀ q, f ≠ .data q := fun q hq => hdata ⟨q, hq⟩
    exact readsBack_atomic hv hc hb hm hfit (hroom hd _ (declaredLength_frameBytes hfit))
      (parsePayload_built (Config.adapter.contract s.adapterLog) hv hbuilt hd hunknown)

end Sys2Proof.Machine
end

section
/-! The encode requests kind by kind: what each builds, what it writes or why it fails, and that each releases its frame
once (R190 to R207). -/

namespace Sys2Proof.Machine

open Sys2Proof.Safety

/-! The common scheme once the build has answered (R190, R191). -/

/-- A request answers what the common scheme makes of its frame's build. -/
theorem exec_request_of_built {f : Frame 64} {b : Built} {s t : State} (hb : f.built s.cfg s.compress = b)
    (h : s.encodeFrame f b = t) : exec f.request s = .next t := by
  rw [exec_frameRequest, hb, h]

/-- A build with a payload fails on the payload's length alone. -/
theorem State.encodeFrame_of_built {s : State} {f : Frame 64} {b : Built} {t : U62} {p : List Byte}
    (h : b.outcome = .ok (t, p)) :
    s.encodeFrame f b = if p.length < 2 ^ 62
      then wrote s f (viEncMin t.toNat ++ viEncMin p.length ++ p) b.calls
      else failed s f .valueOutOfRange b.calls := by
  split_ifs with hp
  · exact State.encodeFrame_ok h hp
  · exact State.encodeFrame_long h (Nat.le_of_not_lt hp)

/-- The payload of one VarInt field is a minimal VarInt, never too long to declare (R86). -/
theorem viEncMin_length_lt (v : Nat) : (viEncMin v).length < 2 ^ 62 := by
  rw [viEncMin_length]
  cases viWidth v <;> decide

/-! What each builder answers (R195 to R202). -/

theorem buildField_of_lt (t : U62) {v : U64} (h : v.toNat < 2 ^ 62) :
    buildField t v = .plain (.ok (t, viEncMin v.toNat)) := by rw [buildField, encField_of_lt h]

theorem buildField_of_le (t : U62) {v : U64} (h : 2 ^ 62 ≤ v.toNat) :
    buildField t v = .plain (.error .valueOutOfRange) := by rw [buildField, encField_of_le h]

theorem buildSettings_of_range (t : U62) {es : List (U64 × U64)}
    (h : ∀ e ∈ es, e.1.toNat < 2 ^ 62 ∧ e.2.toNat < 2 ^ 62) :
    buildSettings t es = .plain (.ok (t, es.flatMap fun e => viEncMin e.1.toNat ++ viEncMin e.2.toNat)) := by
  rw [buildSettings, settingsBytes_ok h]

theorem buildSettings_of_not_range (t : U62) {es : List (U64 × U64)}
    (h : ¬ ∀ e ∈ es, e.1.toNat < 2 ^ 62 ∧ e.2.toNat < 2 ^ 62) :
    buildSettings t es = .plain (.error .valueOutOfRange) := by
  have hout : ∃ e ∈ es, 2 ^ 62 ≤ e.1.toNat ∨ 2 ^ 62 ≤ e.2.toNat := by
    simpa only [not_forall, exists_prop, not_and_or, Nat.not_lt] using h
  rw [buildSettings, settingsBytes_error hout]

theorem buildPushPromise_of_lt (comp : FieldList → List Byte) (t : U62) {v : U64} (fs : FieldList)
    (h : v.toNat < 2 ^ 62) : buildPushPromise comp t v fs =
      { calls := [.compress fs (comp fs)], outcome := .ok (t, viEncMin v.toNat ++ comp fs) } := by
  rw [buildPushPromise, encField_of_lt h]

theorem buildPushPromise_of_le (comp : FieldList → List Byte) (t : U62) {v : U64} (fs : FieldList)
    (h : 2 ^ 62 ≤ v.toNat) : buildPushPromise comp t v fs = .plain (.error .valueOutOfRange) := by
  rw [buildPushPromise, encField_of_le h]

theorem buildUnknown_of_le (k : Config) {t : U64} (p : List Byte) (h : 2 ^ 62 ≤ t.toNat) :
    buildUnknown k t p = .plain (.error .valueOutOfRange) := by rw [buildUnknown, if_pos h]

theorem buildUnknown_of_reserved {k : Config} {t : U64} (p : List Byte) (h : t.toNat < 2 ^ 62)
    (hres : isReserved k t.toNat = true) : buildUnknown k t p = .plain (.error .frameUnexpected) := by
  rw [buildUnknown, if_neg (Nat.not_le_of_lt h), if_pos hres]

theorem buildUnknown_of_lt {k : Config} {t : U64} (p : List Byte) (h : t.toNat < 2 ^ 62)
    (hres : ¬ isReserved k t.toNat = true) : buildUnknown k t p = .plain (.ok (t.setWidth 62, p)) := by
  rw [buildUnknown, if_neg (Nat.not_le_of_lt h), if_neg hres]

/-- The block is one that `compress` may answer, for it answers it now (R222). -/
theorem State.compressMay_compress (s : State) (fs : FieldList) : Config.adapter.compressMay fs (s.compress fs) :=
  ⟨s.adapterLog, rfl⟩

/-! The requests. -/

/-- Settles O31: the build is the raw bytes, so only their number can fail the request. -/
theorem encData : Obligations.EncData := by
  intro p s
  exact exec_request_of_built (f := .data p) rfl (State.encodeFrame_of_built rfl)

/-- A request for a frame of one VarInt field (R195 to R197). -/
theorem exec_of_buildField {f : Frame 64} {t : U62} {v : U64} {s : State}
    (hb : f.built s.cfg s.compress = buildField t v) : exec f.request s = .next (if v.toNat < 2 ^ 62
      then wrote s f (viEncMin t.toNat ++ viEncMin (viWidth v.toNat).bytes ++ viEncMin v.toNat) []
      else failed s f .valueOutOfRange []) := by
  split_ifs with hv
  · rw [← viEncMin_length]
    exact exec_request_of_built (hb.trans (buildField_of_lt t hv)) (State.encodeFrame_ok rfl (viEncMin_length_lt _))
  · exact exec_request_of_built (hb.trans (buildField_of_le t (Nat.le_of_not_lt hv))) (State.encodeFrame_error rfl)

/-- Settles O32: the three kinds build the same one field, each under its own type. -/
theorem encVarIntField : Obligations.EncVarIntField := by
  rintro v i f t s (⟨rfl, rfl, rfl⟩ | ⟨rfl, rfl, rfl⟩ | ⟨rfl, rfl, rfl⟩)
  · exact exec_of_buildField (f := .cancelPush v) rfl
  · exact exec_of_buildField (f := .goAway v) rfl
  · exact exec_of_buildField (f := .maxPushId v) rfl

/-- Settles O33: the build fails exactly when some number is out of range, and else only its length can. -/
theorem encSettings : Obligations.EncSettings := by
  rintro es p s rfl
  by_cases hes : ∀ e ∈ es, e.1.toNat < 2 ^ 62 ∧ e.2.toNat < 2 ^ 62
  · simp only [and_iff_right hes]
    exact exec_request_of_built (f := .settings es) (buildSettings_of_range _ hes) (State.encodeFrame_of_built rfl)
  · rw [if_neg fun h => hes h.1]
    exact exec_request_of_built (f := .settings es) (buildSettings_of_not_range _ hes) (State.encodeFrame_error rfl)

/-- Settles O34: the block is what the adapter answers at this point of its history. -/
theorem encHeaders : Obligations.EncHeaders := by
  intro fs s
  exact ⟨s.compress fs, s.compressMay_compress fs,
    exec_request_of_built (f := .headers fs) rfl (State.encodeFrame_of_built rfl)⟩

/-- Settles O35: a push id out of range fails the build before the adapter is called. -/
theorem encPushPromise : Obligations.EncPushPromise := by
  intro v fs s
  refine ⟨s.compress fs, s.compressMay_compress fs, ?_⟩
  by_cases hv : 2 ^ 62 ≤ v.toNat
  · rw [if_pos hv]
    exact exec_request_of_built (f := .pushPromise v fs) (buildPushPromise_of_le _ _ fs hv)
      (State.encodeFrame_error rfl)
  · rw [if_neg hv]
    exact exec_request_of_built (f := .pushPromise v fs) (buildPushPromise_of_lt _ _ fs (Nat.lt_of_not_le hv))
      (State.encodeFrame_of_built rfl)

/-- Settles O36: the two tests of the build in their order, then the test of the payload's length. -/
theorem encUnknown : Obligations.EncUnknown := by
  intro t p s
  by_cases hlong : 2 ^ 62 ≤ t.toNat
  · rw [if_pos hlong]
    exact exec_request_of_built (f := .unknown t p) (buildUnknown_of_le _ p hlong) (State.encodeFrame_error rfl)
  rw [if_neg hlong]
  have ht := Nat.lt_of_not_le hlong
  by_cases hres : isReserved s.cfg t.toNat = true
  · rw [if_pos hres]
    exact exec_request_of_built (f := .unknown t p) (buildUnknown_of_reserved p ht hres) (State.encodeFrame_error rfl)
  · rw [if_neg hres, ← toNat_narrow ht]
    exact exec_request_of_built (f := .unknown t p) (buildUnknown_of_lt p ht hres) (State.encodeFrame_of_built rfl)

/-! Failure (R192, R193, R207, R250). -/

/-- Every reserved value is below `2^62` (R10, R103). -/
theorem isReserved_lt {k : Config} {t : Nat} (hv : k.valid = true) (h : isReserved k t = true) : t < 2 ^ 62 := by
  simp only [Config.valid, Bool.and_eq_true, decide_eq_true_eq] at hv
  obtain ⟨⟨-, hmin⟩, -⟩ := hv
  rcases isReserved_iff.mp h with rfl | rfl | rfl | rfl | ⟨hle, -⟩
  all_goals omega

theorem marked_closePending (k : Config) (conn : Conn) (cause : Cause) : (marked k conn cause).closePending = true :=
  Conn.latch_pending conn cause (codeOf k cause)

/-- The first fatal error wins (R24). -/
theorem marked_of_pending {k : Config} {conn : Conn} {cause : Cause} (h : conn.closePending = true) :
    marked k conn cause = conn := if_pos h

theorem marked_of_not_pending {k : Config} {conn : Conn} {cause : Cause} (h : conn.closePending = false) :
    marked k conn cause = { closePending := true, closeCode := codeOf k cause, closeCause := some cause } :=
  if_neg (Bool.eq_false_iff.mp h)

/-- Settles O37: a reserved type passes the range test, so the request fails with `FrameUnexpected`. -/
theorem encReservedRejected : Obligations.EncReservedRejected := by
  intro t p s hv hres
  have hexec : exec (.encUnknown t p) s = .next (failed s (.unknown t p) .frameUnexpected []) := by
    rw [encUnknown t p s, if_neg (Nat.not_le_of_lt (isReserved_lt hv hres)), if_pos hres]
  exact ⟨_, hexec, rfl, rfl, rfl, marked_closePending .., fun h => congrArg Conn.closeCode (marked_of_not_pending h),
    marked_of_pending⟩

/-- Settles O38: a request ends as the common scheme does, and `OutputsAppendOnly` speaks of the other operations. -/
theorem releaseOnce : Obligations.ReleaseOnce := by
  refine ⟨fun i f s hr => ?_, fun i s u hr h => ?_⟩
  · obtain ⟨b, -, hexec⟩ := exec_request hr s.cfg s.adapterLog
    refine ⟨s.encodeFrame f b, hexec s rfl rfl, ?_⟩
    rcases State.encodeFrame_cases s f b with ⟨cause, h⟩ | ⟨t, p, -, hp, h⟩ <;> rw [h]
    · exact ⟨rfl, rfl, rfl, rfl, .inl ⟨cause, rfl, rfl, rfl⟩⟩
    · exact ⟨rfl, rfl, rfl, rfl, .inr ⟨t.toNat, p, t.isLt, hp, rfl, rfl, rfl⟩⟩
  · obtain ⟨ev, bs, rel, calls, -, hsink, hrel, -, -, -, hnone, -⟩ := outputsAppendOnly i s u h
    obtain ⟨rfl, rfl⟩ := hnone hr
    exact ⟨by rw [hrel, List.append_nil], by rw [hsink, List.append_nil]⟩

end Sys2Proof.Machine
end

section
/-! The resets and the status read, the adapter calls of a byte step, and the step as the run of what it decodes (R60,
R66, R223, R226 to R230, R268). -/

namespace Sys2Proof.Machine

open Sys2Proof.Safety

/-! The two resets and the status read (R228 to R230). -/

/-- The reset state, with an empty buffer among the values the spec leaves free (R43). -/
theorem atReset_eq_resetWith (a f n : U62) : Ctx.atReset a f n = resetWith a f n [] := rfl

/-- Settles O39: the three unspecified registers are the next three free values. -/
theorem ctxReset : Obligations.CtxReset := by
  intro c s hc
  refine ⟨Config.freeReg s.draws, Config.freeReg (s.draws + 1), Config.freeReg (s.draws + 2), [], s.draws + 3, rfl, ?_⟩
  change execCtxReset c s = _
  rw [execCtxReset, if_pos hc]
  rfl

/-- Settles O40: the bank keeps its length, and every context in it is at reset. -/
theorem blockReset : Obligations.BlockReset := by
  intro s
  refine ⟨resetCtxs s.draws s.ctxs, s.draws + 3 * s.ctxs.length, resetCtxs_length _ _, fun d hd => ?_, rfl⟩
  obtain ⟨a, f, n, rfl⟩ := mem_resetCtxs hd
  exact ⟨a, f, n, [], rfl, atReset_eq_resetWith a f n⟩

/-- The numbers of R34 are one for each value a cause register can hold. -/
theorem eq_causeNumber {number : Option Cause → BitVec 3} (h0 : number none = 0)
    (h1 : number (some .frameUnexpected) = 1) (h2 : number (some .frameError) = 2)
    (h3 : number (some .valueOutOfRange) = 3) (h4 : number (some .payloadTooLarge) = 4)
    (h5 : number (some .adapterFailure) = 5) : number = causeNumber := by
  funext cause
  rcases cause with _ | cause
  · exact h0
  · cases cause
    case frameUnexpected => exact h1
    case frameError => exact h2
    case valueOutOfRange => exact h3
    case payloadTooLarge => exact h4
    case adapterFailure => exact h5

/-- In a frame is neither stopped nor at a frame boundary (R35). -/
theorem Ctx.midFrame_eq (d : Ctx) :
    d.midFrame = decide (d.state ≠ .fatal ∧ ¬ (d.state = .awaitingType ∧ d.viRem = 0)) := by
  simp [Ctx.midFrame, imp_iff_not_or]

/-- Settles O41: the view register by register; the numbers of the causes are R34's. -/
theorem statusRead : Obligations.StatusRead := by
  intro c s number hc h0 h1 h2 h3 h4 h5
  obtain rfl := eq_causeNumber h0 h1 h2 h3 h4 h5
  change execStatusRead c s = _
  rw [execStatusRead, if_pos hc, Ctx.view, Ctx.midFrame_eq]
  rfl

/-! The adapter calls of a byte step (R223). -/

/-- In whatever state, the byte step's arm calls the adapter as R223 says: a stopped context not at all. -/
theorem ctxByte_callShape {k : Config} {dec : List Byte → Option FieldList} {d : Ctx} {b : Byte} {r : Arm}
    (h : ctxByte k dec d b = .ok r) : CallShape k dec r := by
  by_cases hst : d.state = .fatal
  · rw [ctxByte_fatal hst] at h
    cases h
    exact .inl rfl
  · exact (ctxByte_shape hst h).2

/-- The fatal entry keeps what an arm left of the frame: type, length and payload (R250, W9). -/
theorem armCtx_frame (k : Config) (r : Arm) :
    (armCtx k r).ftype = r.ctx.ftype ∧ (armCtx k r).flen = r.ctx.flen ∧ (armCtx k r).pbuf = r.ctx.pbuf := by
  unfold armCtx
  cases r.raised <;> exact ⟨rfl, rfl, rfl⟩

/-- A context whose arm raised is stopped; any other stands where its arm left it (R250). -/
theorem armCtx_state_of_ended (k : Config) {r : Arm} (h : r.ctx.state = .awaitingType ∨ r.raised ≠ none) :
    (armCtx k r).state = .awaitingType ∨ (armCtx k r).state = .fatal := by
  unfold armCtx
  cases hr : r.raised with
  | none => exact .inl (h.resolve_right (absurd hr))
  | some cause => exact .inr rfl

/-- Settles O50: the arm's one call, read off the registers the byte step leaves. -/
theorem decompressCallSites : Obligations.DecompressCallSites := by
  intro c b s t hc h
  obtain ⟨-, r, hr, rfl⟩ := exec_decByte_next h
  have hself : ∀ res, ((s.applyArm c r).answer res).ctx c = armCtx s.cfg r := fun _ => State.applyArm_ctx_self s c r hc
  obtain ⟨htype, hlen, hbuf⟩ := armCtx_frame s.cfg r
  rw [State.answer_adapterLog, State.applyArm_adapterLog, hself, htype, hlen, hbuf]
  rcases ctxByte_callShape hr with hcalls | ⟨first, block, hcalls, hpayload, hkind, hended⟩ <;> rw [hcalls]
  · exact .inl (List.append_nil _)
  · exact .inr ⟨first, block, rfl, hpayload, hkind, armCtx_state_of_ended s.cfg hended⟩

/-! Issuing the next transaction (R226, R268). -/

/-- With nothing pending the block is idle (R268). -/
theorem State.issue_idle {s : State} (apart : Bool) (hp : s.pending = []) : s.issue apart = .idle s := by
  simp only [State.issue, State.nextInstr, hp]

/-- The front transaction's first instruction leaves the queue, and the rest of the transaction stays at the front. -/
theorem State.nextInstr_of_decode {s : State} {sl : Slot} {q : List Slot} {i : Instr} {rest : Option Slot}
    (hp : s.pending = sl :: q) (hd : decode s.cfg sl = .ok (i, rest)) :
    s.nextInstr = some (i, { s with pending := rest.toList ++ q }) := by
  simp only [State.nextInstr, hp, hd]
  cases rest <;> rfl

/-- Only bytes of a stream can be cut short (log 15). -/
theorem slotBytes_of_decode_error {k : Config} {sl : Slot} {e : DecodeError} (h : decode k sl = .error e) :
    ∃ c bytes, slotBytes sl = some (c, bytes) ∧ shortInstr sl = .decFeed c bytes := by
  cases sl with
  | varint c bytes => exact ⟨c, bytes, rfl, rfl⟩
  | frame c bytes => exact ⟨c, bytes, rfl, rfl⟩
  | call i => cases h

/-- A transaction cut short is fed as it has arrived (R160, log 15). -/
theorem State.nextInstr_of_decode_error {s : State} {sl : Slot} {q : List Slot} {e : DecodeError}
    (hp : s.pending = sl :: q) (hd : decode s.cfg sl = .error e) :
    s.nextInstr = some (shortInstr sl, { s with pending := q }) := by
  simp only [State.nextInstr, hp, hd]

/-- An operation on a free context overlaps nothing (R63). -/
theorem State.overlapped_of_free {s : State} {i : Instr} (h : ∀ c, i.context? = some c → s.busy c = false) :
    s.overlapped i = none := by
  simpa [State.overlapped, Option.filter_eq_none_iff] using h

/-- An operation issued to run to its return, or one that presents no byte, runs (R60). -/
theorem State.issue_run {s s' : State} {i : Instr} {apart : Bool} (hn : s.nextInstr = some (i, s'))
    (hfree : ∀ c, i.context? = some c → s.busy c = false)
    (h : apart = true → ∀ c b bs, presentedBytes s.cfg i ≠ some (c, b :: bs)) : s.issue apart = .run i s' := by
  simp only [State.issue, hn, State.overlapped_of_free hfree]
  cases apart with
  | false => rfl
  | true =>
    rcases hb : presentedBytes s.cfg i with _ | ⟨c, _ | ⟨b, bs⟩⟩
    · rfl
    · rfl
    · exact absurd hb (h rfl c b bs)

/-- An operation issued apart that presents bytes waits for their turns (R60, log 12). -/
theorem State.issue_start {s s' : State} {i : Instr} {c : Nat} {b : Byte} {bs : List Byte}
    (hn : s.nextInstr = some (i, s')) (hfree : ∀ c, i.context? = some c → s.busy c = false)
    (hb : presentedBytes s.cfg i = some (c, b :: bs)) : s.issue true = .start c (b :: bs) s' := by
  simp only [State.issue, hn, State.overlapped_of_free hfree, hb, if_true]

/-! Whose turn it is (R60, R66, log 12). -/

/-- Where the host gives no turn, none leaves the schedule. -/
theorem State.with_turns_of_eq {s : State} {ts : List Turn} (h : s.turns = ts) : { s with turns := ts } = s := by
  subst h
  rfl

/-- A turn to run whole, or no turn with no feed in progress, issues the next transaction to run to its return. -/
theorem State.fetch_whole {s : State} {ts : List Turn}
    (h : s.turns = .whole :: ts ∨ s.turns = [] ∧ ts = [] ∧ s.feeds = []) :
    s.fetch = State.issue false { s with turns := ts } := by
  rcases h with h | ⟨h, rfl, hf⟩
  · simp only [State.fetch, h]
  · rw [State.with_turns_of_eq h]
    simp only [State.fetch, h, hf]

/-- The turn of the feed on `c`; with no turn given it is the oldest feed's. -/
theorem State.fetch_resume {s : State} {ts : List Turn} {c : Nat} {f : Feed}
    (h : s.turns = .resume c :: ts ∨ s.turns = [] ∧ ts = [] ∧ s.feeds.head? = some f) (hf : s.feedOn c = some f) :
    s.fetch = .resume c { s with turns := ts } := by
  rcases h with h | ⟨h, rfl, hhead⟩
  · simp only [State.fetch, h]
  · obtain ⟨fs, hfs⟩ := List.head?_eq_some_iff.mp hhead
    rw [State.with_turns_of_eq h]
    simp only [State.fetch, h, hfs, (State.feedOn_mem hf).2]

/-! The step from what the block finds to do. -/

theorem step_of_idle {s t : State} (hcfg : s.configured = true) (h : s.fetch = .idle t) : step s = .next t := by
  rw [step, if_pos hcfg, h]

theorem step_of_run {s t : State} {i : Instr} (hcfg : s.configured = true) (h : s.fetch = .run i t) :
    step s = exec i t := by rw [step, if_pos hcfg, h]

theorem step_of_start {s t : State} {c : Nat} {bs : List Byte} (hcfg : s.configured = true)
    (h : s.fetch = .start c bs t) (hc : t.hasCtx c = true) : step s = .next (t.openFeed c bs) := by
  rw [step, if_pos hcfg, h]
  exact if_pos hc

theorem step_of_resume {s t : State} {c : Nat} (hcfg : s.configured = true) (h : s.fetch = .resume c t) :
    step s = t.resumeFeed c := by rw [step, if_pos hcfg, h]

/-! The turn of a feed (R60, R155). -/

/-- No byte step reads the schedule. -/
theorem State.byteStep_turns {s s' : State} {c : Nat} {b : Byte} {ev : List Event} (ts : List Turn)
    (h : s.byteStep c b = .ok (s', ev)) :
    State.byteStep c b { s with turns := ts } = .ok ({ s' with turns := ts }, ev) := by
  obtain ⟨r, hr, rfl, rfl⟩ := State.byteStep_ok h
  refine (State.byteStep_of_arm (s := { s with turns := ts }) hr).trans ?_
  congr 2
  unfold State.applyArm
  cases r.raised <;> rfl

/-- A turn of a feed with a byte left is that byte's step. -/
theorem State.resumeFeed_of_byteStep {s s' : State} {c : Nat} {f : Feed} {b : Byte} {bs : List Byte} {ev : List Event}
    (hf : s.feedOn c = some f) (hr : f.rest = b :: bs) (hb : s.byteStep c b = .ok (s', ev)) :
    s.resumeFeed c = .next (s'.advanceFeed c bs (f.events ++ ev)) := by
  simp only [State.resumeFeed, hf, hr, hb]

/-- What a `DEC_BYTE` that answers events and a status is: one byte step, which leaves the feeds and the last result. -/
theorem exec_decByte_decoded {s t : State} {c : Nat} {b : Byte} {ev : List Event} {st : Status}
    (h : exec (.decByte c b) s = .next t) (ht : t.result = .decoded ev st) :
    ∃ s', s.byteStep c b = .ok (s', ev) ∧ st = (s'.ctx c).status ∧ s'.feeds = s.feeds ∧ s'.result = s.result ∧
      t = s'.answer (.decoded ev st) := by
  obtain ⟨-, r, hr, rfl⟩ := exec_decByte_next h
  cases ht
  exact ⟨s.applyArm c r, State.byteStep_of_arm hr, rfl, s.applyArm_feeds c r, s.applyArm_result c r, rfl⟩

/-- The turn of a feed, in the terms of `DEC_BYTE` of its next byte. -/
theorem State.resumeFeed_of_decByte {s t : State} {c : Nat} {f : Feed} {b : Byte} {bs : List Byte} {ev : List Event}
    {st : Status} (ts : List Turn) (hf : s.feedOn c = some f) (hr : f.rest = b :: bs)
    (h : exec (.decByte c b) s = .next t) (ht : t.result = .decoded ev st) :
    State.resumeFeed c { s with turns := ts } = .next (if bs = []
      then { t with turns := ts, feeds := s.feeds.filter (fun g => g.ctx ≠ c), result := .decoded (f.events ++ ev) st }
      else { t with
        turns := ts
        feeds := s.feeds.map (fun g => if g.ctx = c then { ctx := c, rest := bs, events := f.events ++ ev } else g)
        result := s.result }) := by
  obtain ⟨s', hb, rfl, hfeeds, hresult, rfl⟩ := exec_decByte_decoded h ht
  rw [State.resumeFeed_of_byteStep (s := { s with turns := ts }) hf hr (State.byteStep_turns ts hb), ← hfeeds,
    ← hresult]
  cases bs <;> rfl

/-- Settles O56: a turn to run whole, a turn to start, and a turn of a feed, each by what the block finds to do. -/
theorem stepRunsDecoded : Obligations.StepRunsDecoded := by
  intro s ts hcfg
  refine ⟨fun hts => ⟨fun hp => ?_, fun sl q i rest hp hd hfree => ?_, fun sl q e hp hd => ?_⟩,
    fun hts sl q i rest hp hd hfree => ?_, fun c f b bs t ev st hts hf hr h ht => ?_⟩
  · exact step_of_idle hcfg ((State.fetch_whole hts).trans (State.issue_idle false hp))
  · exact step_of_run hcfg ((State.fetch_whole hts).trans
      (State.issue_run (State.nextInstr_of_decode (s := { s with turns := ts }) hp hd) hfree nofun))
  · obtain ⟨c, bytes, hbytes, hshort⟩ := slotBytes_of_decode_error hd
    refine ⟨c, bytes, hbytes, fun hfree => ?_⟩
    have hn := State.nextInstr_of_decode_error (s := { s with turns := ts }) hp hd
    rw [hshort] at hn
    refine step_of_run hcfg ((State.fetch_whole hts).trans (State.issue_run hn ?_ nofun))
    rintro _ ⟨⟩
    exact hfree
  · have hn := State.nextInstr_of_decode (s := { s with turns := ts }) hp hd
    have hfetch : s.fetch = State.issue true { s with turns := ts } := by simp only [State.fetch, hts]
    refine ⟨fun c b bs hb hc => ?_, fun hb => ?_⟩
    · exact step_of_start hcfg (hfetch.trans (State.issue_start hn hfree hb)) hc
    · exact step_of_run hcfg (hfetch.trans (State.issue_run hn hfree fun _ => hb))
  · rw [step_of_resume hcfg (State.fetch_resume hts hf)]
    exact State.resumeFeed_of_decByte ts hf hr h ht

end Sys2Proof.Machine
end

section
/-! What a fatal error leaves standing: the stopped context, the operations that go on whatever the mark, and the outputs
before it (R33, R152, R250 to R256). -/

namespace Sys2Proof.Machine

open Sys2Proof.Safety

/-! A stopped context (R152, R254). -/

/-- Settles O43: bytes presented to a stopped context are discarded, and no other operation that names it writes it. -/
theorem fatalIsSticky : Obligations.FatalIsSticky := by
  intro i c s t hst hreset hblock h
  obtain ⟨-, -, hother⟩ := exec_frame h
  by_cases hname : i.context? = some c
  case neg => exact hother hblock c hname
  cases hf : feedsBytes i with
  | true =>
    obtain ⟨c', bs, s1, ev, hc', -, hfeed, rfl⟩ := exec_feeds_next hf h
    obtain rfl : c' = c := Option.some.inj (hc'.symm.trans hname)
    rw [State.feed_fatal hst] at hfeed
    cases hfeed
    rfl
  | false =>
    cases hr : requestOf i with
    | some f =>
      obtain ⟨-, hnone, -⟩ := requestOf_exclusive hr
      exact absurd (hnone.symm.trans hname) nofun
    | none =>
      rcases exec_other_next hf hr h with ⟨v, -, rfl⟩ | ⟨bs, -, rfl⟩ | ⟨c', rfl, -, -⟩ | ⟨rfl, -⟩ | ⟨c', -, -, rfl⟩
      case inr.inr.inl => exact absurd (congrArg Instr.ctxReset (Option.some.inj hname)) hreset
      case inr.inr.inr.inl => exact absurd rfl hblock
      all_goals rfl

/-! A byte step that raises (R64, R250, R251). -/

/-- Settles O45: only an arm that raises stops a running context, and it emits nothing of its own. -/
theorem fatalIsPrecise : Obligations.FatalIsPrecise := by
  intro c b s t h hrun hstop
  obtain ⟨hc, r, harm, rfl⟩ := exec_decByte_next h
  have hctx := State.applyArm_ctx_self s c r hc
  obtain ⟨⟨hr, hst, -⟩ | ⟨cause, hr, hev, hcause⟩, -⟩ := ctxByte_shape hrun harm
  · refine absurd ((congrArg Ctx.state hctx).symm.trans hstop) ?_
    simpa only [armCtx, hr] using hst
  · rw [State.answer_raisingArm hc hr hev]
    have hstopped : (stopped s c r.ctx cause r.calls).ctx c = r.ctx.stop cause (codeOf s.cfg cause) :=
      State.ctx_setCtx_self s c _ ((s.hasCtx_iff c).mp hc)
    exact ⟨cause, rfl, rfl, by rw [hstopped]; rfl, by rw [hstopped]; rfl, hcause, rfl, rfl, rfl⟩

/-! No operation but `STATUS_READ` reads CONN (R256): from another mark it goes on alike, and leaves some other mark. -/

/-- The machine with another mark. -/
def State.withConn (k : Conn) (s : State) : State := { s with conn := k }

theorem State.applyArm_withConn (s : State) (k : Conn) (c : Nat) (r : Arm) :
    ∃ j, (s.withConn k).applyArm c r = (s.applyArm c r).withConn j := by
  unfold State.applyArm
  cases r.raised with
  | none => exact ⟨k, rfl⟩
  | some cause => exact ⟨k.latch cause (codeOf s.cfg cause), rfl⟩

theorem State.byteStep_withConn (s : State) (k : Conn) (c : Nat) (b : Byte) :
    ∃ j, (s.withConn k).byteStep c b = (s.byteStep c b).map (Prod.map (State.withConn j) id) := by
  rw [State.byteStep_eq_armState, State.byteStep_eq_armState]
  change ∃ j, armState (s.withConn k) c (ctxByte s.cfg Config.adapter.decompress (s.ctx c) b) = _
  cases ctxByte s.cfg Config.adapter.decompress (s.ctx c) b with
  | error f => exact ⟨k, rfl⟩
  | ok r =>
    obtain ⟨j, hj⟩ := s.applyArm_withConn k c r
    exact ⟨j, by simp only [armState, hj] <;> rfl⟩

theorem State.feed_withConn (c : Nat) (bs : List Byte) (s : State) (k : Conn) :
    ∃ j, (s.withConn k).feed c bs = (s.feed c bs).map (Prod.map (State.withConn j) id) := by
  induction bs generalizing s k with
  | nil => exact ⟨k, rfl⟩
  | cons b bs ih =>
    obtain ⟨j, hj⟩ := s.byteStep_withConn k c b
    simp only [State.feed, hj]
    cases s.byteStep c b with
    | error f => exact ⟨k, rfl⟩
    | ok p =>
      obtain ⟨j', hj'⟩ := ih p.1 j
      simp only [Except.map, Prod.map, id, hj']
      cases p.1.feed c bs <;> exact ⟨j', rfl⟩

theorem State.present_withConn (s : State) (k : Conn) (c : Nat) (bs : List Byte) :
    ∃ j, (s.withConn k).present c bs = onNext (State.withConn j) (s.present c bs) := by
  obtain ⟨j, hj⟩ := State.feed_withConn c bs s k
  refine ⟨j, ?_⟩
  unfold State.present
  rw [hj]
  change (if s.hasCtx c = true then _ else _) = _
  cases s.hasCtx c with
  | false => rfl
  | true => cases s.feed c bs <;> rfl

theorem State.encodeFrame_withConn (s : State) (k : Conn) (f : Frame 64) (b : Built) :
    ∃ j, (s.withConn k).encodeFrame f b = (s.encodeFrame f b).withConn j := by
  rcases ho : b.outcome with cause | ⟨t, p⟩
  · simp only [State.encodeFrame_error ho]
    exact ⟨marked s.cfg k cause, rfl⟩
  · by_cases hp : p.length < 2 ^ 62
    · simp only [State.encodeFrame_ok ho hp]
      exact ⟨k, rfl⟩
    · simp only [State.encodeFrame_long ho (Nat.le_of_not_lt hp)]
      exact ⟨marked s.cfg k .valueOutOfRange, rfl⟩

theorem exec_withConn {i : Instr} (k : Conn) (s : State) (hi : ∀ c, i ≠ .statusRead c) :
    ∃ j, exec i (s.withConn k) = onNext (State.withConn j) (exec i s) := by
  rcases instr_shape i with h | ⟨f, h⟩ | ⟨v, rfl⟩ | ⟨bs, rfl⟩ | ⟨c, rfl⟩ | rfl | ⟨c, rfl⟩
  · obtain ⟨c, bs, -, he⟩ := exec_feeds h s.cfg
    rw [he s rfl, he (s.withConn k) rfl]
    split
    · exact s.present_withConn k c bs
    · exact ⟨k, rfl⟩
  · obtain ⟨b, -, he⟩ := exec_request h s.cfg s.adapterLog
    rw [he s rfl rfl, he (s.withConn k) rfl rfl]
    obtain ⟨j, hj⟩ := s.encodeFrame_withConn k f b
    exact ⟨j, congrArg Host.Outcome.next hj⟩
  · exact ⟨k, rfl⟩
  · exact ⟨k, rfl⟩
  · refine ⟨k, ?_⟩
    change execCtxReset c _ = onNext _ (execCtxReset c s)
    unfold execCtxReset
    change (if s.hasCtx c = true then _ else _) = _
    cases s.hasCtx c <;> rfl
  · exact ⟨Conn.clear, rfl⟩
  · exact absurd rfl (hi c)

/-- Settles O44: the two runs differ in the mark alone, which is then overwritten. -/
theorem noGating : Obligations.NoGating := by
  intro i s k k' hi
  obtain ⟨j, hj⟩ := exec_withConn k s hi
  change onNext _ (exec i (s.withConn k)) = _
  rw [hj]
  cases exec i s <;> rfl

end Sys2Proof.Machine
end

section
/-! No well-formed operation and no turn of a feed is stopped: from a state of the invariant each goes on (R37, R60, R226,
R300). -/

namespace Sys2Proof.Machine

open Sys2Proof.Safety

/-! The operations, whole. -/

/-- What well-formedness asks, in the terms of the machine's own bank (R25, R83, R91). -/
theorem wellFormed_iff {s : State} {i : Instr} : i.wellFormed s.cfg s.ctxs.length = true ↔
    (∀ c, i.context? = some c → s.hasCtx c = true) ∧ i.encodable s.cfg = true := by
  cases hn : i.context? <;> simp [Instr.wellFormed, Instr.contextOk, hn, State.hasCtx]

/-- An encodable operation goes on where the context it names exists; only one that presents bytes needs the invariant,
for its byte steps' sake. -/
theorem exec_completes {i : Instr} {s : State} (hi : inv s = true)
    (hctx : ∀ c, i.context? = some c → s.hasCtx c = true) (he : i.encodable s.cfg = true) :
    ∃ t, exec i s = .next t := by
  rcases instr_shape i with h | ⟨f, h⟩ | ⟨v, rfl⟩ | ⟨bs, rfl⟩ | ⟨c, rfl⟩ | rfl | ⟨c, rfl⟩
  · obtain ⟨c, bs, hn, hexec⟩ := exec_feeds h s.cfg
    obtain ⟨t, ht, -⟩ := exec_decFeed_completes (hctx c hn) hi bs
    exact ⟨t, by rw [hexec s rfl, if_pos he, ← exec_decFeed, ht]⟩
  · obtain ⟨b, -, hexec⟩ := exec_request h s.cfg s.adapterLog
    exact ⟨_, hexec s rfl rfl⟩
  · exact ⟨_, rfl⟩
  · exact ⟨_, rfl⟩
  · exact ⟨_, if_pos (hctx c rfl)⟩
  · exact ⟨_, rfl⟩
  · exact ⟨_, if_pos (hctx c rfl)⟩

/-! A turn of a feed. -/

/-- With no feed on the context the turn passes; else the feed has a byte left, and its step goes on (R63, log 12). -/
theorem State.resumeFeed_completes {s : State} (c : Nat) (hi : inv s = true) : ∃ t, s.resumeFeed c = .next t := by
  cases hf : s.feedOn c with
  | none => exact ⟨s, by simp only [State.resumeFeed, hf]⟩
  | some f =>
    obtain ⟨hmem, rfl⟩ := State.feedOn_mem hf
    obtain ⟨hfeeds, -⟩ := feedsOk_iff.mp (feedsOk_of_inv hi)
    obtain ⟨hc, hrest⟩ := hfeeds f hmem
    obtain ⟨b, bs, hr⟩ := List.exists_cons_of_ne_nil hrest
    obtain ⟨s1, ev, hb, -⟩ := State.byteStep_inv b hi hc
    exact ⟨_, State.resumeFeed_of_byteStep hf hr hb⟩

/-- A turn of a feed is taken from the state with the schedule moved on. -/
theorem State.fetch_resume_state {s u : State} {c : Nat} (h : s.fetch = .resume c u) :
    ∃ ts, u = { s with turns := ts } := by
  rcases s.fetch_cases with ⟨ts, hf⟩ | ⟨i, q, ts, -, hf⟩ | ⟨c', b, bs, q, ts, -, hf⟩ | ⟨c', ts, hf⟩ | ⟨c', -, hf⟩ <;>
    cases hf.symm.trans h
  exact ⟨ts, rfl⟩

/-- Settles O59: an operation goes on by its shape, a turn by the next byte of its feed, and what goes on keeps the
invariant. -/
theorem everyOperationCompletes : Obligations.EveryOperationCompletes := by
  refine ⟨fun i s hi hwf => ?_, fun c s u hi hcfg hfetch => ?_⟩
  · obtain ⟨hctx, he⟩ := wellFormed_iff.mp hwf
    obtain ⟨t, ht⟩ := exec_completes hi hctx he
    exact ⟨t, ht, exec_inv hi ht⟩
  · obtain ⟨ts, rfl⟩ := State.fetch_resume_state hfetch
    obtain ⟨t, ht⟩ := State.resumeFeed_completes (s := { s with turns := ts }) c hi
    have hstep : step s = .next t := (step_of_resume hcfg hfetch).trans ht
    exact ⟨t, hstep, stepKeepsInvariant s t hi hstep⟩

end Sys2Proof.Machine
end
